-- ==== Sys2Proof/Word.lean ====
section
/-! DEFINITION. The word types of HUFFCORE (00_scope.md R8, R10, R11; 20_memory.md R55). -/

namespace Sys2Proof

/-- A host data word and the width of every register: 32 bits (R8, R27). -/
abbrev Word := BitVec 32

/-- One byte lane of a word (R61). -/
abbrev Byte := BitVec 8

/-- A host byte address: 22 bits (R8, R55). -/
abbrev Addr := BitVec 22

/-- A symbol (R10). SYM_W is at most 16 (R6), so 16 bits hold every symbol; the values that occur
are below 2^SYM_W (log 15). -/
abbrev Sym := BitVec 16

/-- A bitstring (R11): element 0 is the first bit; `false` is bit 0 and `true` is bit 1. -/
abbrev Bits := List Bool

end Sys2Proof
end

