-- ==== Sys2Proof/Syntax.lean ====
section
/-! DEFINITION. The command set: one constructor per row of spec/opcode_table.json (30_encoding.md R76).
No command has an operand field (R78). -/

namespace Sys2Proof

/-- The five commands of R76. -/
inductive Instr where
  /-- BUILD, `build(text)` (R87). -/
  | build
  /-- ENCODE.P, `encode(text)` with packed output (R103). -/
  | encodeP
  /-- ENCODE.C, `encode(text)` with character output (R104). -/
  | encodeC
  /-- DECODE.P, `decode(bits)` with packed input (R112). -/
  | decodeP
  /-- DECODE.C, `decode(bits)` with character input (R113). -/
  | decodeC
deriving DecidableEq, Repr

end Sys2Proof
end

