-- ==== Sys2Proof/WellFormed.lean ====
section
/-! DEFINITION. Which instructions and which command-word fields are well formed (30_encoding.md R75,
R76, R78, R79). -/

namespace Sys2Proof

/-- The three fields of the one format CMD (R75). -/
structure CmdFields where
  /-- OP, bits 3..0. -/
  op : BitVec 4
  /-- FMT, bit 4. -/
  fmt : Bool
  /-- RSVD, bits 31..5. -/
  rsvd : BitVec 27
deriving DecidableEq, Repr

namespace CmdFields

/-- OP is 0x1, 0x2 or 0x3; 0x0 and 0x4 to 0xF are reserved (R75). -/
def opDefined (f : CmdFields) : Bool := f.op == 1 || f.op == 2 || f.op == 3

/-- FMT must be 0 when OP = BUILD (R75). -/
def fmtAllowed (f : CmdFields) : Bool := !(f.op == 1 && f.fmt)

/-- RSVD must be 0 (R75). -/
def rsvdZero (f : CmdFields) : Bool := f.rsvd == 0

/-- The fields are those of a defined command word (R75, R76). -/
def wf (f : CmdFields) : Bool := f.opDefined && f.fmtAllowed && f.rsvdZero

end CmdFields

/-- A command carries no immediate, register number or address (R78), so each of the five is well
formed as it stands; what can be ill formed is the word (`CmdFields.wf`). -/
def Instr.wf : Instr → Bool
  | .build => true
  | .encodeP => true
  | .encodeC => true
  | .decodeP => true
  | .decodeC => true

end Sys2Proof
end

