-- ==== Sys2Proof/Decode.lean ====
section
/-! DEFINITION. The decoder of command words, total and rejecting by name (30_encoding.md R79), and the
encoder (R76). -/

namespace Sys2Proof

/-- Why a word is BAD (R79). Every one of the three completes alike, with BAD_CMD (R143). -/
inductive BadWord where
  /-- Its OP is reserved. -/
  | reservedOp
  /-- It has FMT = 1 with OP = BUILD. -/
  | formatOfBuild
  /-- A RSVD bit is set. -/
  | reservedBits
deriving DecidableEq, Repr

/-- What a command word decodes to: `Cmd` of R79. -/
inductive Cmd where
  /-- One of the five commands. -/
  | valid (i : Instr)
  /-- BAD, with the reason. -/
  | bad (why : BadWord)
deriving DecidableEq, Repr

/-- The fields of a word as R75 places them. -/
def CmdFields.ofWord (v : Word) : CmdFields where
  op := v.extractLsb' 0 4
  fmt := v.getLsbD 4
  rsvd := v.extractLsb' 5 27

/-- The first of R79's three reasons that holds of a word. -/
def badReason (v : Word) : BadWord :=
  let f := CmdFields.ofWord v
  if !f.opDefined then .reservedOp
  else if !f.fmtAllowed then .formatOfBuild
  else .reservedBits

/-- `decodeCmd` of R79: a match on all 32 bits. -/
def decodeCmd (v : Word) : Cmd :=
  if v = 0x00000001 then .valid .build
  else if v = 0x00000002 then .valid .encodeP
  else if v = 0x00000012 then .valid .encodeC
  else if v = 0x00000003 then .valid .decodeP
  else if v = 0x00000013 then .valid .decodeC
  else .bad (badReason v)

/-- The instruction the decoder reads from a word of `nbits` bits with value `w`, bit 0 the least
significant bit of the command word; bits at `nbits` and above are 0. A command word is 32 bits (R75):
nothing longer decodes. -/
def decodeTableWord (nbits w : Nat) : Option Instr :=
  if nbits ≤ 32 then
    match decodeCmd (BitVec.ofNat 32 (w % 2 ^ nbits)) with
    | .valid i => some i
    | .bad _ => none
  else none

/-- The command word of an instruction (the table of R76). -/
def encode : Instr → Word
  | .build => 0x00000001
  | .encodeP => 0x00000002
  | .encodeC => 0x00000012
  | .decodeP => 0x00000003
  | .decodeC => 0x00000013

end Sys2Proof
end

