-- ==== Sys2Proof/Config.lean ====
section
/-! DEFINITION. The configuration parameters (00_scope.md R6, R7; 20_memory.md R55), the fixed
constants (R8) and the free values (20_memory.md R68, R74) of HUFFCORE. -/

namespace Sys2Proof

/-- The configuration structure of R6, R9 and R52: the values the document leaves open. The ranges
of R6 come with the data, so every `Config` is a legal HUFFCORE. -/
structure Config where
  /-- SYM_W, the width of a symbol in bits. -/
  symW : Nat
  /-- MAX_LEN, the capacity of TXT_IN and TXT_OUT in symbols. -/
  maxLen : Nat
  /-- MAX_BITS, the capacity of BIT in bits. -/
  maxBits : Nat
  /-- HC_BASE, where the platform places the block (R55). -/
  hcBase : Nat
  symW_range : 7 ≤ symW ∧ symW ≤ 16
  maxLen_range : 1 ≤ maxLen ∧ maxLen ≤ 2 ^ 18
  maxBits_range : 32 ≤ maxBits ∧ maxBits ≤ 2 ^ 23 ∧ maxBits % 32 = 0
deriving DecidableEq, Repr

namespace Config

/-- NSYM_MAX = 2^SYM_W, the size of the alphabet (R7). -/
def nsymMax (c : Config) : Nat := 2 ^ c.symW

/-- NODE_MAX = 2 NSYM_MAX - 1, the largest number of tree nodes (R7). -/
def nodeMax (c : Config) : Nat := 2 * c.nsymMax - 1

/-- CODE_MAX = NSYM_MAX - 1, the longest code (R7). -/
def codeMax (c : Config) : Nat := c.nsymMax - 1

/-- CODE_WORDS = ceil(CODE_MAX / 32), the words of the code window (R7). -/
def codeWords (c : Config) : Nat := (c.codeMax + 31) / 32

/-- BIT_WORDS = MAX_BITS / 32, the words of the BIT buffer (R7). -/
def bitWords (c : Config) : Nat := c.maxBits / 32

/-- RC, the reference configuration (R9). -/
def rc : Config where
  symW := 8
  maxLen := 4096
  maxBits := 131072
  hcBase := 0
  symW_range := by decide
  maxLen_range := by decide
  maxBits_range := by decide

/-- TC, the test configuration of the capacity corner cases (R9). -/
def tc : Config where
  symW := 8
  maxLen := 4
  maxBits := 32
  hcBase := 0
  symW_range := by decide
  maxLen_range := by decide
  maxBits_range := by decide

/-- CH0 = 0x30, the symbol for the character '0' (R8). -/
def ch0 : Sym := 0x30

/-- CH1 = 0x31, the symbol for the character '1' (R8). -/
def ch1 : Sym := 0x31

/-- The constant of the ID register (R8, R29). -/
def idValue : Word := 0x48554646

/-- FREE VALUE (R74, U1; log 3): the byte that reset number `epoch` left at port byte address `a` of a
buffer. Nothing constrains it. DESIGN CHOICE (log 26): it does not name the instance (R151). -/
opaque bufferDraw : (epoch a : Nat) → Byte

/-- FREE VALUE (R68, U2; log 4): what the `n`-th read of an output buffer word while BUSY returns.
Nothing constrains it. DESIGN CHOICE (log 26): it does not name the instance (R151). -/
opaque busyDraw : (n : Nat) → Word

end Config

end Sys2Proof
end

