-- ==== Sys2Proof/Machine/State.lean ====
section
/-! DEFINITION. The state of the block: the five parts of 10_state.md R17. Beside it what is no state of it: the
configuration (R52) and the inputs of the steps (70_reset_and_hazards.md R168). -/

namespace Sys2Proof.Machine

/-- The engine sequencing state (R18). -/
inductive Fsm where
  | idle
  | busy
deriving DecidableEq, Repr

/-- The nine error values of STATUS.ERR (R133). -/
inductive ErrCode where
  | none
  | emptyInput
  | unknownSymbol
  | invalidBit
  | malformedBitstream
  | uninitializedTree
  | lenRange
  | outOverflow
  | badCmd
deriving DecidableEq, Repr

/-- A tree node (R20); the two branches are node indices. -/
inductive Node where
  | leaf (sym : Sym) (weight : Nat)
  | internal (weight zeroBranch oneBranch : Nat)
deriving DecidableEq, Repr

/-- The committed engine state ENG (R20). The spec's functions `freq` and `code` are lists of pairs in
strictly ascending order of symbol: no pair for a symbol means freq = 0 and code = none (log 12). -/
structure Eng where
  built : Bool
  k : Nat
  total : Nat
  root : Nat
  freq : List (Sym × Nat)
  code : List (Sym × Bits)
  nodes : List Node
deriving DecidableEq, Repr

/-- The Uninitialized value of ENG (R21). -/
def Eng.uninitialized : Eng where
  built := false
  k := 0
  total := 0
  root := 0
  freq := []
  code := []
  nodes := []

/-- A response of the host port (R57, R58). -/
inductive Resp where
  | okay
  | error
deriving DecidableEq, Repr

/-- A host port access, always of 4 bytes (R56 to R58). -/
inductive Access where
  | read (a : Addr)
  | write (a : Addr) (v : Word)
deriving DecidableEq, Repr

/-- An access issued on the platform's bus, which a bridge turns into a port access (R55, R56): a system
byte address, a width in bytes, and the word a write carries. -/
structure BusAccess where
  addr : Nat
  bytes : Nat
  data : Option Word
deriving DecidableEq, Repr

/-- One thing a host script does (R84, R85): the statements of the notation, expanded to accesses. -/
inductive HostOp where
  /-- `WR` and `RD`: one port access. -/
  | issue (acc : Access)
  /-- `RD loc == value`: a read, with the value the rules give. -/
  | check (a : Addr) (v : Word)
  /-- `WAIT`: read STATUS again until BUSY = 0. -/
  | wait
  /-- An access through a bus bridge in front of the port. -/
  | bus (b : BusAccess)
deriving DecidableEq, Repr

/-- What the port answered: the access, the data read (0 for a write), the response, and the value the
script stated for it, if it did. -/
structure Response where
  access : Access
  data : Word
  resp : Resp
  expect : Option Word
deriving DecidableEq, Repr

/-- The three kinds of step (R168). -/
inductive Turn where
  | host
  | engine
  | reset
deriving DecidableEq, Repr

/-- The buffers TXT_IN, TXT_OUT and BIT (R46 to R48), at their port byte addresses. -/
structure Buffers where
  /-- The bytes written since reset, byte j of a word holding its bits 8j+7..8j (R61; log 2). -/
  mem : List Host.Cell
  /-- Which draw stands in the bytes that were not (R74): the number of reset events so far names it (log 3). -/
  epoch : Nat
deriving DecidableEq, Repr

/-- THE STATE RECORD OF THE SPEC: the architectural state of an instance, exactly the five parts of R17. The buffers are
the fields of `Buffers`; `irq` is a function of the registers (R49): `Block.irq`. A configuration
parameter is no field (R52): what depends on one takes a `Config` as an argument. -/
structure Block extends Buffers where
  /-- The sequencing state (R18); STATUS.BUSY reads it. -/
  fsm : Fsm
  /-- PEND, the accepted command word (R18). -/
  pend : Word
  /-- ENG, the committed engine state (R20); STATUS.BUILT reads ENG.built. -/
  eng : Eng
  /-- CTRL.IE (R33). -/
  ie : Bool
  /-- STATUS.DONE (R34). -/
  done : Bool
  /-- STATUS.OVR (R34, R148). -/
  ovr : Bool
  /-- STATUS.ERR (R34, R133). -/
  err : ErrCode
  /-- LEN (R38). -/
  len : Word
  /-- OUTLEN (R39). -/
  outlen : Word
  /-- ERRPOS (R40). -/
  errpos : Word
  /-- SEL (R44), below 2^SYM_W. -/
  sel : Sym
  /-- NODESEL (R45), below 2^(SYM_W+1). -/
  nodesel : BitVec 17
deriving DecidableEq, Repr

/-- What stands around the block, none of it the block's state: the configuration that the instance was built with, and
the inputs of the steps (R168) as plain data, since `step` is a function of one argument. -/
structure World where
  /-- The configuration structure that every step reads (R52; log 1). -/
  cfg : Config
  /-- How many draws reads while BUSY have taken; it names the next one, an input of the read step (R68; log 4). -/
  draws : Nat
  /-- What the host will issue, in order (log 8). -/
  script : List HostOp
  /-- Which agent moves next (R168; log 6). -/
  turns : List Turn
  /-- What the port answered, newest first (log 8). -/
  log : List Response
deriving DecidableEq, Repr

/-- What the host's interface calls the state: the block's state, and what stands around it. -/
structure State extends Block, World
deriving DecidableEq, Repr

/-- Why a step could stop with a fault. HUFFCORE has no such reason: every port access is answered (R57,
R58), every command completes (R167), and no behaviour is `stuck` (93_implementation_defined.md). Nobody
raises one (log 19). -/
inductive Fault where
deriving DecidableEq, Repr

/-- Why a step could be refused. -/
inductive Refusal where
  /-- Raised only by an arm of `exec` whose instruction has no meaning yet; safe. No arm is such an arm. -/
  | notModelled (mnemonic : String)
deriving DecidableEq, Repr

/-- The block's state after reset (R154; PEND: log 5). -/
def Block.initial : Block where
  fsm := .idle
  pend := 0
  eng := .uninitialized
  ie := false
  done := false
  ovr := false
  err := .none
  len := 0
  outlen := 0
  errpos := 0
  sel := 0
  nodesel := 0
  mem := []
  epoch := 0

/-- An instance with configuration `c` right after reset, with nothing for the host to issue. -/
def State.initial (c : Config) : State where
  toBlock := .initial
  cfg := c
  draws := 0
  script := []
  turns := []
  log := []

/-- The machine right after reset, in the reference configuration (R9, R154, R158; log 1). -/
def State.reset : State := State.initial Config.rc

end Sys2Proof.Machine
end

