-- ==== Sys2Proof/Machine/Ops.lean ====
section
/-! DEFINITION. The named operations over memory, tables and registers, and the shared events: acceptance
(30_encoding.md R80), raising an error (60_exceptions.md R135), completion (30_encoding.md R81), reset
(70_reset_and_hazards.md R155). -/

namespace Sys2Proof.Machine

/-! ### Memory: bytes of the buffers, by port byte address -/

namespace Memory

/-- The canonical form: addresses strictly rising. A byte not listed has no written value, so there is
no further clause about a value it reads as (log 3). -/
abbrev wf (m : List Host.Cell) : Prop := (m.map Prod.fst).Pairwise (· < ·)

/-- The byte last written at `a`, if one was written since reset. -/
def get? : List Host.Cell → Nat → Option Byte
  | [], _ => none
  | (k, b) :: m, a => if a = k then some b else get? m a

/-- Write one byte, keeping the canonical form. -/
def set : List Host.Cell → Nat → Byte → List Host.Cell
  | [], a, b => [(a, b)]
  | (k, c) :: m, a, b =>
    if a < k then (a, b) :: (k, c) :: m
    else if a = k then (a, b) :: m
    else (k, c) :: set m a b

/-- What an unlisted address reads as: the draw of the last reset (R74; log 3). -/
def unlisted (epoch a : Nat) : Byte := Config.bufferDraw epoch a

/-- Byte `j` of a word (R61). -/
def byteOf (v : Word) (j : Nat) : Byte := v.extractLsb' (8 * j) 8

/-- Write the four bytes of a word, byte 0 at the lowest address (R61). -/
def setWord (m : List Host.Cell) (a : Nat) (v : Word) : List Host.Cell :=
  set (set (set (set m a (byteOf v 0)) (a + 1) (byteOf v 1)) (a + 2) (byteOf v 2)) (a + 3) (byteOf v 3)

/-- Write words at consecutive word addresses from `a`. -/
def setWords : List Host.Cell → Nat → List Word → List Host.Cell
  | m, _, [] => m
  | m, a, v :: vs => setWords (setWord m a v) (a + 4) vs

end Memory

namespace Block

/-- The byte at port byte address `a` of a buffer. -/
def readByte (s : Block) (a : Nat) : Byte := (Memory.get? s.mem a).getD (Memory.unlisted s.epoch a)

/-- The word at port byte address `a` of a buffer (R61). -/
def readWord (s : Block) (a : Nat) : Word :=
  s.readByte (a + 3) ++ s.readByte (a + 2) ++ s.readByte (a + 1) ++ s.readByte a

/-- The byte at `a` was written since reset: the premise R74 asks of a claim about an entry. -/
def byteWritten (s : Block) (a : Nat) : Bool := (Memory.get? s.mem a).isSome

/-- Write one word of a buffer. -/
def writeWord (s : Block) (a : Nat) (v : Word) : Block := { s with mem := Memory.setWord s.mem a v }

/-- Write consecutive words of a buffer. -/
def writeWords (s : Block) (a : Nat) (vs : List Word) : Block := { s with mem := Memory.setWords s.mem a vs }

end Block

/-! ### Tables keyed by symbol: the functions `freq` and `code` of ENG -/

namespace Table

/-- The entry of symbol `s`. -/
def get? {β : Type} : List (Sym × β) → Sym → Option β
  | [], _ => none
  | (t, b) :: l, s => if s = t then some b else get? l s

/-- Set the entry of symbol `s`, keeping symbols strictly ascending. -/
def set {β : Type} : List (Sym × β) → Sym → β → List (Sym × β)
  | [], s, b => [(s, b)]
  | (t, c) :: l, s, b =>
    if s < t then (s, b) :: (t, c) :: l
    else if s = t then (s, b) :: l
    else (t, c) :: set l s b

/-- The canonical form: symbols strictly ascending. -/
abbrev wf {β : Type} (l : List (Sym × β)) : Prop := (l.map Prod.fst).Pairwise (· < ·)

end Table

namespace Eng

/-- ENG.freq(s): 0 means no entry (R20). -/
def freqOf (e : Eng) (s : Sym) : Nat := (Table.get? e.freq s).getD 0

/-- ENG.code(s) (R20). -/
def codeOf (e : Eng) (s : Sym) : Option Bits := Table.get? e.code s

end Eng

namespace Node

/-- The weight of a node (R20). -/
def weight : Node → Nat
  | .leaf _ w => w
  | .internal w _ _ => w

/-- The symbol of a Leaf, none for an Internal node. -/
def symbol? : Node → Option Sym
  | .leaf s _ => some s
  | .internal _ _ _ => none

/-- The branch a bit selects: zero-branch on 0, one-branch on 1 (R94, R111). None for a Leaf. -/
def branch? : Node → Bool → Option Nat
  | .leaf _ _, _ => none
  | .internal _ z o, b => some (if b then o else z)

end Node

/-! ### Bit strings and words -/

/-- The number whose bit i is element i of the bitstring (LSB-first, R48). -/
def bitsToNat : Bits → Nat
  | [] => 0
  | b :: bs => (if b then 1 else 0) + 2 * bitsToNat bs

/-- Word `w` of a bitstring: bit b is element 32w + b, and 0 past the end (R48, R108, R125). -/
def packWord (bs : Bits) (w : Nat) : Word := BitVec.ofNat 32 (bitsToNat ((bs.drop (32 * w)).take 32))

/-- The number of words a stream of `n` bits touches: ceil(n / 32) (R108). -/
def wordsOf (n : Nat) : Nat := (n + 31) / 32

/-- The words of a bitstring, the last one padded with zeros (R108). -/
def packWords (bs : Bits) : List Word := (List.range (wordsOf bs.length)).map (packWord bs)

/-- The symbol in a word: bits [SYM_W-1:0], the rest ignored (R44, R61, R62). -/
def symOfWord (c : Config) (v : Word) : Sym := BitVec.ofNat 16 (v.toNat % 2 ^ c.symW)

/-- zext_32 of a symbol (R13, R62). -/
def wordOfSym (s : Sym) : Word := s.setWidth 32

/-! ### The shared events -/

namespace Block

/-- Set the pieces of the completion record of a command that succeeds with result length `n`: ERR = NONE,
ERRPOS = 0, OUTLEN = n (R39, R40, R135). -/
def succeed (n : Nat) (s : Block) : Block :=
  { s with err := .none, errpos := 0, outlen := BitVec.ofNat 32 n }

/-- `raise e(p)` of R135, the one way an error is reported: ERR and ERRPOS are set and everything else,
OUTLEN, ENG, LEN and the buffers among it, stays. -/
def raise (e : ErrCode) (p : Nat) (s : Block) : Block :=
  { s with err := e, errpos := BitVec.ofNat 32 p }

/-- `x[OUTLEN] <- n` (R39). -/
def setOutlen (n : Nat) (s : Block) : Block := { s with outlen := BitVec.ofNat 32 n }

/-- An error raised before any output: position 0, and OUTLEN is the 0 written at acceptance (R97, R110,
R119, R135; log 9). -/
def raiseEarly (e : ErrCode) (s : Block) : Block := (s.setOutlen 0).raise e 0

/-- The last two lines of `complete` (R81), the return to IDLE that every command ends with, error or not. -/
def complete (s : Block) : Block := { s with fsm := .idle, done := true }

/-- Acceptance of the command word `v` (R80, the branch for fsm = IDLE). -/
def accept (v : Word) (s : Block) : Block :=
  { s with pend := v, fsm := .busy, done := false, err := .none, outlen := 0, errpos := 0 }

/-- A write dropped because fsm = BUSY: only OVR is set (R67, R148). -/
def overrun (s : Block) : Block := { s with ovr := true }

/-- ENG is replaced all at once (R23, R96). -/
def commit (e : Eng) (s : Block) : Block := { s with eng := e }

/-- The reset event (R155): everything as `Block.initial` has it, and the buffers drawn anew. -/
def resetEvent (s : Block) : Block := { Block.initial with epoch := s.epoch + 1 }

end Block

/-! ### The same in the block's surroundings, which stay -/

namespace State

/-- A step of the block's state. -/
def onBlock (f : Block → Block) (s : State) : State := { s with toBlock := f s.toBlock }

/-- An acceptance (R80). -/
def accept (v : Word) (s : State) : State := s.onBlock (Block.accept v)

/-- A reset event (R155). The host's script, the turns and the log are not the block's (log 20). -/
def resetEvent (s : State) : State := s.onBlock Block.resetEvent

/-- The completion of a command with the `do` function `f` (R81): it reads the configuration (R52), and its whole effect
is on the block's state (R19). -/
def completeWith (f : Config → Block → Block) (s : State) : State := s.onBlock fun b => (f s.cfg b).complete

end State

end Sys2Proof.Machine
end

