-- ==== Sys2Proof/Machine/Flags.lean ====
section
/-! DEFINITION. The flags: the STATUS word, its W1C write, CTRL.IE and irq (10_state.md R33 to R36, R49, R51;
60_exceptions.md R133, R146, R148). -/

namespace Sys2Proof.Machine

/-- The numeric code of an error (R133). -/
def ErrCode.code : ErrCode → BitVec 4
  | .none => 0
  | .emptyInput => 1
  | .unknownSymbol => 2
  | .invalidBit => 3
  | .malformedBitstream => 4
  | .uninitializedTree => 5
  | .lenRange => 6
  | .outOverflow => 7
  | .badCmd => 8

namespace Block

/-- STATUS.BUSY is 1 exactly when fsm = BUSY (R34). -/
def busy (s : Block) : Bool := s.fsm == .busy

/-- The interrupt output: irq = STATUS.DONE and CTRL.IE (R49, R146). -/
def irq (s : Block) : Bool := s.done && s.ie

/-- The word STATUS reads as (R34): reserved [31:12], ERR [11:8], reserved [7:4], OVR [3], BUILT [2],
DONE [1], BUSY [0]. -/
def statusWord (s : Block) : Word :=
  0#20 ++ s.err.code ++ 0#4 ++ BitVec.ofBool s.ovr ++ BitVec.ofBool s.eng.built ++ BitVec.ofBool s.done
    ++ BitVec.ofBool s.busy

/-- The word CTRL reads as (R33). -/
def ctrlWord (s : Block) : Word := 0#31 ++ BitVec.ofBool s.ie

/-- A host write of `v` to STATUS: DONE and OVR are cleared by a 1 (R36). -/
def clearStatus (v : Word) (s : Block) : Block :=
  { s with done := s.done && !v.getLsbD 1, ovr := s.ovr && !v.getLsbD 3 }

/-- A host write of `v` to CTRL: IE <- v[0] (R33). -/
def setCtrl (v : Word) (s : Block) : Block := { s with ie := v.getLsbD 0 }

end Block

end Sys2Proof.Machine
end

