-- ==== Sys2Proof/Machine/Operands.lean ====
section
/-! DEFINITION. The implicit operands of the commands: every buffer form in which a command reads its input
and writes its output (30_encoding.md R77, R78; 20_memory.md R62 to R64, R69). -/

namespace Sys2Proof.Machine

/-- The format of a bitstream: the FMT field (R75, R77). -/
inductive Fmt where
  | packed
  | char
deriving DecidableEq, Repr

/-- Base addresses of the regions (R54). -/
def codeWinBase : Nat := 0x010000
def txtInBase : Nat := 0x100000
def txtOutBase : Nat := 0x200000
def bitBase : Nat := 0x300000

namespace Block

/-- x[LEN], the input length (R38, R78). -/
def inputLen (s : Block) : Nat := s.len.toNat

/-- TXT_IN[i], a symbol (R46, R62). -/
def txtIn (c : Config) (s : Block) (i : Nat) : Sym := symOfWord c (s.readWord (txtInBase + 4 * i))

/-- TXT_OUT[i], a symbol (R47, R63). -/
def txtOut (c : Config) (s : Block) (i : Nat) : Sym := symOfWord c (s.readWord (txtOutBase + 4 * i))

/-- BIT word w (R48, R64). -/
def bitWord (s : Block) (w : Nat) : Word := s.readWord (bitBase + 4 * w)

/-- BIT[i], stream bit i: bit (i mod 32) of word (i div 32) (R48, R114). -/
def bit (s : Block) (i : Nat) : Bool := (s.bitWord (i / 32)).getLsbD (i % 32)

/-- The input text TXT_IN[0 .. n-1] (R78). -/
def text (c : Config) (s : Block) (n : Nat) : List Sym := (List.range n).map (s.txtIn c)

/-- `readBit` of R111: a packed bit is always a bit (R114), a character is one only as CH0 or CH1 (R115). -/
def readBit (c : Config) (s : Block) (fmt : Fmt) (i : Nat) : Option Bool :=
  match fmt with
  | .packed => some (s.bit i)
  | .char =>
    if s.txtIn c i = Config.ch0 then some false
    else if s.txtIn c i = Config.ch1 then some true
    else none

/-- The input elements 0 .. n-1 of a DECODE. -/
def inputBits (c : Config) (s : Block) (fmt : Fmt) (n : Nat) : List (Option Bool) := (List.range n).map (s.readBit c fmt)

/-- `writePacked` of R108: the stream's bits, and zeros to the end of the last word it touches. -/
def writePacked (out : Bits) (s : Block) : Block := s.writeWords bitBase (packWords out)

/-- `writeChars` of R109: one symbol CH0 or CH1 per bit. -/
def writeChars (out : Bits) (s : Block) : Block :=
  s.writeWords txtOutBase (out.map fun b => wordOfSym (if b then Config.ch1 else Config.ch0))

/-- The decoded text goes to TXT_OUT[0 ..] (R119). -/
def writeText (out : List Sym) (s : Block) : Block := s.writeWords txtOutBase (out.map wordOfSym)

end Block

/-- How many bits the output buffer of an ENCODE holds: `cap` of R102. -/
def Fmt.outCap (c : Config) : Fmt → Nat
  | .packed => c.maxBits
  | .char => c.maxLen

/-- How many elements the input buffer of a DECODE holds: `capIn` of R111. -/
def Fmt.inCap (c : Config) : Fmt → Nat
  | .packed => c.maxBits
  | .char => c.maxLen

/-- The stream goes to the buffer FMT selects (R77, R102). -/
def Block.writeBits (fmt : Fmt) (out : Bits) (s : Block) : Block :=
  match fmt with
  | .packed => s.writePacked out
  | .char => s.writeChars out

end Sys2Proof.Machine
end

