-- ==== Sys2Proof/Machine/Inspect.lean ====
section
/-! DEFINITION. The inspection registers: every value a pure function of ENG, SEL and NODESEL
(10_state.md R41 to R43; 43_inspect.md R122 to R129). -/

namespace Sys2Proof.Machine

/-- A natural number in a 32-bit register; every one that arises fits (R12, log 13). -/
def natReg (n : Nat) : Word := BitVec.ofNat 32 n

namespace Block

/-- The committed code of symbol SEL (R124, R125). -/
def selCode (s : Block) : Option Bits := s.eng.codeOf s.sel

/-- FREQ (R123). -/
def freqReg (s : Block) : Word := natReg (s.eng.freqOf s.sel)

/-- CODELEN (R124). -/
def codeLenReg (s : Block) : Word := natReg (s.selCode.getD []).length

/-- CODEWIN word j (R125). -/
def codeWinWord (s : Block) (j : Nat) : Word := packWord (s.selCode.getD []) j

/-- The node NODESEL names, when VALID = ENG.built and NODESEL < 2k - 1 (R126). -/
def selNode (s : Block) : Option Node :=
  if s.eng.built && s.nodesel.toNat < 2 * s.eng.k - 1 then s.eng.nodes[s.nodesel.toNat]? else none

/-- NODE_INFO (R126): VALID [31], LEAF [30], SYMBOL [15:0]. -/
def nodeInfoReg (s : Block) : Word :=
  match s.selNode with
  | none => 0
  | some (.leaf y _) => 1#1 ++ 1#1 ++ 0#14 ++ y
  | some (.internal _ _ _) => 1#1 ++ 0#31

/-- NODE_WEIGHT (R127). -/
def nodeWeightReg (s : Block) : Word :=
  match s.selNode with
  | none => 0
  | some n => natReg n.weight

/-- NODE_ZERO (R128): 0 for no node and for a Leaf. -/
def nodeZeroReg (s : Block) : Word := natReg ((s.selNode.bind (·.branch? false)).getD 0)

/-- NODE_ONE (R129): 0 for no node and for a Leaf. -/
def nodeOneReg (s : Block) : Word := natReg ((s.selNode.bind (·.branch? true)).getD 0)

end Block

end Sys2Proof.Machine
end

