-- ==== Sys2Proof/Machine/Port.lean ====
section
/-! DEFINITION. The host port: the address map, MemRead and MemWrite (20_memory.md R53 to R68; 10_state.md
R27 to R45; 30_encoding.md R80; 43_inspect.md R130), and the bus bridge in front of it (R55, R56). -/

namespace Sys2Proof.Machine

/-- The registers of the register map (R27). -/
inductive Reg where
  | id | cfgSymw | cfgMaxlen | cfgMaxbits | ctrl | status | cmd | len | outlen | errpos | nsym | total
  | root | sel | freq | codelen | nodesel | nodeInfo | nodeWeight | nodeZero | nodeOne
deriving DecidableEq, Repr

/-- The offset of a register in the REG region (the table of R27). -/
def Reg.offset : Reg → Nat
  | .id => 0x000
  | .cfgSymw => 0x004
  | .cfgMaxlen => 0x008
  | .cfgMaxbits => 0x00C
  | .ctrl => 0x010
  | .status => 0x014
  | .cmd => 0x018
  | .len => 0x01C
  | .outlen => 0x020
  | .errpos => 0x024
  | .nsym => 0x028
  | .total => 0x02C
  | .root => 0x030
  | .sel => 0x034
  | .freq => 0x038
  | .codelen => 0x03C
  | .nodesel => 0x040
  | .nodeInfo => 0x044
  | .nodeWeight => 0x048
  | .nodeZero => 0x04C
  | .nodeOne => 0x050

/-- Every register. -/
def Reg.all : List Reg :=
  [.id, .cfgSymw, .cfgMaxlen, .cfgMaxbits, .ctrl, .status, .cmd, .len, .outlen, .errpos, .nsym, .total,
   .root, .sel, .freq, .codelen, .nodesel, .nodeInfo, .nodeWeight, .nodeZero, .nodeOne]

/-- The register at an offset; 0x054 and above are unimplemented (R60). -/
def Reg.ofOffset (n : Nat) : Option Reg := Reg.all.find? fun r => r.offset == n

/-- What an implemented aligned address names (R54). -/
inductive PortLoc where
  | reg (r : Reg)
  | codeWin (w : Nat)
  | txtIn (w : Nat)
  | txtOut (w : Nat)
  | bit (w : Nat)
deriving DecidableEq, Repr

/-- The address map (R54): none when the address is misaligned (R59) or unimplemented (R60). -/
def locate (c : Config) (a : Addr) : Option PortLoc :=
  let n := a.toNat
  if n % 4 ≠ 0 then none
  else if n < codeWinBase then (Reg.ofOffset n).map .reg
  else if n < txtInBase then
    let w := (n - codeWinBase) / 4
    if w < c.codeWords then some (.codeWin w) else none
  else if n < txtOutBase then
    let w := (n - txtInBase) / 4
    if w < c.maxLen then some (.txtIn w) else none
  else if n < bitBase then
    let w := (n - txtOutBase) / 4
    if w < c.maxLen then some (.txtOut w) else none
  else
    let w := (n - bitBase) / 4
    if w < c.bitWords then some (.bit w) else none

namespace Block

/-- What a register reads as (R29 to R45, R123 to R129). -/
def regRead (c : Config) (s : Block) : Reg → Word
  | .id => Config.idValue
  | .cfgSymw => natReg c.symW
  | .cfgMaxlen => natReg c.maxLen
  | .cfgMaxbits => natReg c.maxBits
  | .ctrl => s.ctrlWord
  | .status => s.statusWord
  | .cmd => 0
  | .len => s.len
  | .outlen => s.outlen
  | .errpos => s.errpos
  | .nsym => natReg s.eng.k
  | .total => natReg s.eng.total
  | .root => natReg s.eng.root
  | .sel => s.sel.setWidth 32
  | .freq => s.freqReg
  | .codelen => s.codeLenReg
  | .nodesel => s.nodesel.setWidth 32
  | .nodeInfo => s.nodeInfoReg
  | .nodeWeight => s.nodeWeightReg
  | .nodeZero => s.nodeZeroReg
  | .nodeOne => s.nodeOneReg

/-- A write that BUSY drops (R67): performed as `f` while IDLE, dropped with OVR while BUSY. -/
def unlessBusy (s : Block) (f : Block → Block) : Block :=
  match s.fsm with
  | .idle => f s
  | .busy => s.overrun

/-- LEN <- v (R38). -/
def setLen (v : Word) (s : Block) : Block := { s with len := v }

/-- SEL <- v[SYM_W-1:0] (R44). -/
def setSel (c : Config) (v : Word) (s : Block) : Block := { s with sel := symOfWord c v }

/-- NODESEL <- v[SYM_W:0] (R45). -/
def setNodesel (c : Config) (v : Word) (s : Block) : Block :=
  { s with nodesel := BitVec.ofNat 17 (v.toNat % 2 ^ (c.symW + 1)) }

/-- What a write to a register does: CMD and LEN are dropped while BUSY, CTRL, STATUS, SEL and NODESEL
never are, and a read-only register ignores it (R33, R36 to R38, R44, R45, R67, R80, R130). -/
def regWrite (c : Config) (s : Block) (r : Reg) (v : Word) : Block :=
  match r with
  | .ctrl => s.setCtrl v
  | .status => s.clearStatus v
  | .cmd => s.unlessBusy (accept v)
  | .len => s.unlessBusy (setLen v)
  | .sel => s.setSel c v
  | .nodesel => s.setNodesel c v
  | .id => s
  | .cfgSymw => s
  | .cfgMaxlen => s
  | .cfgMaxbits => s
  | .outlen => s
  | .errpos => s
  | .nsym => s
  | .total => s
  | .root => s
  | .freq => s
  | .codelen => s
  | .nodeInfo => s
  | .nodeWeight => s
  | .nodeZero => s
  | .nodeOne => s

/-- What a word of an output buffer reads as: its contents `stored` while IDLE, a draw while BUSY (R63, R64, R68). -/
def outputRead (s : Block) (stored draw : Word) : Word :=
  match s.fsm with
  | .idle => stored
  | .busy => draw

/-- MemRead(a, 4) (R57): the data and the response. `draw` is the free input of the step (R168), which is read only where
R68 says so; of a TXT_OUT read its bits above SYM_W are 0. -/
def memRead (c : Config) (s : Block) (draw : Word) (a : Addr) : Word × Resp :=
  match locate c a with
  | none => (0, .error)
  | some (.reg r) => (s.regRead c r, .okay)
  | some (.codeWin w) => (s.codeWinWord w, .okay)
  | some (.txtIn w) => (wordOfSym (s.txtIn c w), .okay)
  | some (.txtOut w) => (s.outputRead (wordOfSym (s.txtOut c w)) (wordOfSym (symOfWord c draw)), .okay)
  | some (.bit w) => (s.outputRead (s.bitWord w) draw, .okay)

/-- Whether a read of `a` returns a draw (R68). -/
def drawsAt (c : Config) (s : Block) (a : Addr) : Bool :=
  match locate c a with
  | none => false
  | some (.reg _) => false
  | some (.codeWin _) => false
  | some (.txtIn _) => false
  | some (.txtOut _) => s.busy
  | some (.bit _) => s.busy

/-- A host write of `v` to TXT_IN word `w` while IDLE (R62). -/
def setTxtIn (c : Config) (w : Nat) (v : Word) (s : Block) : Block :=
  s.writeWord (txtInBase + 4 * w) (wordOfSym (symOfWord c v))

/-- A host write of `v` to BIT word `w` while IDLE (R64). -/
def setBitWord (w : Nat) (v : Word) (s : Block) : Block := s.writeWord (bitBase + 4 * w) v

/-- MemWrite(a, 4, v) (R58): the response and the block's state. -/
def memWrite (c : Config) (s : Block) (a : Addr) (v : Word) : Resp × Block :=
  match locate c a with
  | none => (.error, s)
  | some (.reg r) => (.okay, s.regWrite c r v)
  | some (.codeWin _) => (.okay, s)
  | some (.txtIn w) => (.okay, s.unlessBusy (setTxtIn c w v))
  | some (.txtOut _) => (.okay, s)
  | some (.bit w) => (.okay, s.unlessBusy (setBitWord w v))

end Block

/-! ### Accesses of the host -/

namespace State

/-- A read has used up one draw (R68; log 4). -/
def drew (s : State) : State := { s with draws := s.draws + 1 }

/-- MemRead(a, 4): its draw is the next one, and only the count of draws can change (R57). -/
def memRead (s : State) (a : Addr) : (Word × Resp) × State :=
  (s.toBlock.memRead s.cfg (Config.busyDraw s.draws) a, if s.drawsAt s.cfg a then s.drew else s)

/-- MemWrite(a, 4, v). -/
def memWrite (s : State) (a : Addr) (v : Word) : Resp × State :=
  ((s.toBlock.memWrite s.cfg a v).1, s.onBlock fun b => (b.memWrite s.cfg a v).2)

/-- A response goes to the host (R57, R58). -/
def respond (r : Response) (s : State) : State := { s with log := r :: s.log }

/-- One port access, with the value the script stated for it, if it did. -/
def perform (s : State) (acc : Access) (expect : Option Word) : State :=
  match acc with
  | .read a => (s.memRead a).2.respond ⟨acc, (s.memRead a).1.1, (s.memRead a).1.2, expect⟩
  | .write a v => (s.memWrite a v).2.respond ⟨acc, 0, (s.memWrite a v).1, expect⟩

end State

/-- The port access that a bus access asks for, when its address lies in the block's window: system
address a reaches port address a - HC_BASE (R55). -/
def BusAccess.port? (b : BusAccess) (c : Config) : Option Access :=
  if c.hcBase ≤ b.addr ∧ b.addr < c.hcBase + 2 ^ 22 then
    let a := BitVec.ofNat 22 (b.addr - c.hcBase)
    match b.data with
    | none => some (.read a)
    | some v => some (.write a v)
  else none

/-- An access through a bridge (R56, log 14): an access of 4 bytes goes to the port as it is, an access of
another width is refused with ERROR and no effect, and one outside the window does not reach the block. -/
def State.performBus (s : State) (b : BusAccess) : State :=
  match b.port? s.cfg with
  | none => s
  | some acc => if b.bytes = 4 then s.perform acc none else s.respond ⟨acc, 0, .error, none⟩

end Sys2Proof.Machine
end

