-- ==== Sys2Proof/Machine/Agents.lean ====
section
/-! DEFINITION. The host as an agent that runs its script, and which agent moves next
(30_encoding.md R84, R85; 70_reset_and_hazards.md R167, R168, R170). -/

namespace Sys2Proof.Machine

/-- The port address of STATUS (R27). -/
def statusAddr : Addr := BitVec.ofNat 22 Reg.status.offset

/-- The port address of CMD (R27). -/
def cmdAddr : Addr := BitVec.ofNat 22 Reg.cmd.offset

namespace State

/-- The host goes on to the rest of its script. -/
def scriptTo (rest : List HostOp) (s : State) : State := { s with script := rest }

/-- The agent that moves is taken off the list. -/
def turnsTo (ts : List Turn) (s : State) : State := { s with turns := ts }

/-- The host's step (R168): the next access of its script. `WAIT` reads STATUS and stays in place while
bit 0 (BUSY) is 1 (R85). -/
def hostStep (s : State) : State :=
  match s.script with
  | [] => s
  | .issue acc :: rest => (s.perform acc none).scriptTo rest
  | .check a v :: rest => (s.perform (.read a) (some v)).scriptTo rest
  | .wait :: rest =>
    let s' := s.perform (.read statusAddr) none
    if (s.memRead statusAddr).1.1.getLsbD 0 then s' else s'.scriptTo rest
  | .bus b :: rest => (s.performBus b).scriptTo rest

/-- Whether an agent's step is enabled (R168): the engine's exactly when fsm = BUSY, the host's when it has
something to issue, the reset always. -/
def enabled (s : State) : Turn → Bool
  | .host => !s.script.isEmpty
  | .engine => s.busy
  | .reset => true

/-- The agent that moves next, and the turns after it: the first turn of the list whose step is enabled.
When the list names none, the engine completes a pending command (R167, R170), else the host goes on.
None when the run is over (R170). Logs 6, 7. -/
def nextTurn (s : State) : Option (Turn × List Turn) :=
  match s.turns.dropWhile fun t => !s.enabled t with
  | t :: ts => some (t, ts)
  | [] =>
    if s.busy then some (.engine, [])
    else if s.script.isEmpty then none
    else some (.host, [])

end State

/-- A response is the one the script stated (R84), or it stated none. R84 speaks of the value only: DESIGN CHOICE (log 27), a
read that the port answers with ERROR does not agree, even where the stated value is the 0 that it reads (R57). -/
def Response.met (r : Response) : Bool :=
  match r.expect with
  | none => true
  | some v => r.resp == .okay && r.data == v

end Sys2Proof.Machine
end

