-- ==== Sys2Proof/Machine/Build.lean ====
section
/-! DEFINITION. BUILD: the frequency counter, the tree builder and the code-table generator
(40_build.md R87 to R97). -/

namespace Sys2Proof.Machine

/-! ### Count phase -/

/-- One more occurrence of `s`. -/
def bump (freq : List (Sym × Nat)) (s : Sym) : List (Sym × Nat) :=
  Table.set freq s ((Table.get? freq s).getD 0 + 1)

/-- `countFreq` (R88): the table of occurrence counts, which has an entry exactly for the symbols of the text. -/
def countFreq (t : List Sym) : List (Sym × Nat) := t.foldl bump []

/-! ### Merge phase -/

/-- The key of a node in the priority structure: (weight, seq) (R90). The node index is its seq. -/
abbrev Key := Nat × Nat

/-- The lexicographic order on keys (R90). -/
def Key.le (a b : Key) : Bool := a.1 < b.1 || (a.1 == b.1 && a.2 ≤ b.2)

/-- `min_lex` over the structure `x :: q` (R14, R91). -/
def minLex (x : Key) : List Key → Key
  | [] => x
  | y :: q => if Key.le x y then minLex x q else minLex y q

/-- `seedLeaves` (R89): one Leaf per symbol in ascending order of symbol; `freq` is already ascending. -/
def seedLeaves (freq : List (Sym × Nat)) : List Node := freq.map fun e => .leaf e.1 e.2

/-- The keys of the seeded leaves: leaf j has seq j (R89, R90). -/
def seedKeys (freq : List (Sym × Nat)) : List Key := freq.zipIdx.map fun e => (e.1.2, e.2)

/-- The merge loop (R91): while more than one node is in the structure `q`, remove the least, A, then the
least of the rest, B, and insert Internal(weight A + weight B, zero = A, one = B) with the next seq, which
is the length of the node table. Answers the node table and the root. A structure of n keys needs n - 1
rounds, so `fuel` = n never runs out. -/
def mergeLoop : (fuel : Nat) → List Node → List Key → List Node × Nat
  | 0, nodes, _ => (nodes, 0)
  | _ + 1, nodes, [] => (nodes, 0)
  | _ + 1, nodes, [x] => (nodes, x.2)
  | fuel + 1, nodes, x :: y :: q =>
    let a := minLex x (y :: q)
    match (x :: y :: q).erase a with
    | [] => (nodes, a.2)
    | z :: r =>
      let b := minLex z r
      mergeLoop fuel (nodes ++ [.internal (a.1 + b.1) a.2 b.2])
        ((z :: r).erase b ++ [(a.1 + b.1, nodes.length)])

/-- `mergeAll` (R91 to R93): the node table and the root. -/
def mergeAll (freq : List (Sym × Nat)) : List Node × Nat :=
  mergeLoop freq.length (seedLeaves freq) (seedKeys freq)

/-! ### Code phase -/

/-- The walk of R94 from node `n` with the bits `p` accumulated so far: every leaf it reaches, with its
path. A child's index is below its parent's (R22), so a walk from node n needs at most n + 1 levels. -/
def walk : (fuel : Nat) → List Node → (n : Nat) → (p : Bits) → List (Sym × Bits)
  | 0, _, _, _ => []
  | fuel + 1, nodes, n, p =>
    match nodes[n]? with
    | none => []
    | some (.leaf s _) => [(s, p)]
    | some (.internal _ z o) => walk fuel nodes z (p ++ [false]) ++ walk fuel nodes o (p ++ [true])

/-- `genCodes` (R94, R95): the paths, recorded per symbol; a root that is a Leaf gets the code [0]. -/
def genCodes (nodes : List Node) (root : Nat) : List (Sym × Bits) :=
  match nodes[root]? with
  | some (.leaf s _) => [(s, [false])]
  | _ => (walk (root + 1) nodes root []).foldl (fun code e => Table.set code e.1 e.2) []

/-! ### Commit -/

/-- The ENG that a BUILD of the text `t` commits (R87, R96). -/
def buildEng (t : List Sym) : Eng :=
  let freq := countFreq t
  let (nodes, root) := mergeAll freq
  { built := true
    k := freq.length
    total := t.length
    root := root
    freq := freq
    code := genCodes nodes root
    nodes := nodes }

/-- `doBuild` (R87, R96, R97). -/
def doBuild (c : Config) (s : Block) : Block :=
  if c.maxLen < s.inputLen then s.raiseEarly .lenRange
  else if s.inputLen = 0 then s.raiseEarly .emptyInput
  else
    let e := buildEng (s.text c s.inputLen)
    (s.commit e).succeed (2 * e.k - 1)

/-- BUILD (R87). -/
def execBuild (s : State) : Host.Outcome State Fault Refusal := .next (s.completeWith doBuild)

end Sys2Proof.Machine
end

