-- ==== Sys2Proof/Machine/Encode.lean ====
section
/-! DEFINITION. ENCODE.P and ENCODE.C: the bitstream encoder (41_encode.md R102 to R110). -/

namespace Sys2Proof.Machine

/-- The loop of `encodeBits` (R102) over the symbols of the text from index `i` on, with the bits `out`
appended so far: it stops at the first symbol without a code (R105) or whose code does not fit (R106). -/
def encodeLoop (code : Sym → Option Bits) (cap : Nat) :
    List Sym → (i : Nat) → (out : Bits) → Bits × Option (ErrCode × Nat)
  | [], _, out => (out, none)
  | s :: t, i, out =>
    match code s with
    | none => (out, some (.unknownSymbol, i))
    | some c =>
      if cap < out.length + c.length then (out, some (.outOverflow, i))
      else encodeLoop code cap t (i + 1) (out ++ c)

/-- `encodeBits(cap)` (R102): it reads the code table, LEN and TXT_IN only. -/
def encodeBits (c : Config) (cap : Nat) (s : Block) : Bits × Option (ErrCode × Nat) :=
  encodeLoop s.eng.codeOf cap (s.text c s.inputLen) 0 []

/-- How a command that produced `n` output elements ends: OUTLEN counts them, and an error is raised over
that (R102, R111, R135). -/
def Block.finish (n : Nat) (err : Option (ErrCode × Nat)) (s : Block) : Block :=
  match err with
  | none => s.succeed n
  | some (e, p) => (s.setOutlen n).raise e p

/-- `doEncode(fmt)` (R102). -/
def doEncode (fmt : Fmt) (c : Config) (s : Block) : Block :=
  if !s.eng.built then s.raiseEarly .uninitializedTree
  else if c.maxLen < s.inputLen then s.raiseEarly .lenRange
  else
    let (out, err) := encodeBits c (fmt.outCap c) s
    (s.writeBits fmt out).finish out.length err

/-- ENCODE.P (R103). -/
def execEncodeP (s : State) : Host.Outcome State Fault Refusal := .next (s.completeWith (doEncode .packed))

/-- ENCODE.C (R104). -/
def execEncodeC (s : State) : Host.Outcome State Fault Refusal := .next (s.completeWith (doEncode .char))

end Sys2Proof.Machine
end

