-- ==== Sys2Proof/Machine/Decode.lean ====
section
/-! DEFINITION. DECODE.P and DECODE.C: the bitstream decoder, and the completion of a BAD word (42_decode.md
R111 to R121; 60_exceptions.md R143). -/

namespace Sys2Proof.Machine

namespace Eng

/-- The symbol of node `i` when it is a Leaf. -/
def leafAt (e : Eng) (i : Nat) : Option Sym := e.nodes[i]?.bind Node.symbol?

/-- Where the automaton moves from node `cur` on bit `b` (R111). In every state a run reaches, `cur` is an
Internal node here (R111); where it is none, the automaton stays (log 10). -/
def moveOn (e : Eng) (cur : Nat) (b : Bool) : Nat := (e.nodes[cur]?.bind (·.branch? b)).getD cur

end Eng

/-- The loop of `decodeBits` (R111) over the input elements from index `i` on. `out` is what was emitted,
`cur` the automaton's node, `start` the index of the first bit of the code being read. -/
def decodeLoop (e : Eng) (maxLen : Nat) :
    List (Option Bool) → (i : Nat) → (out : List Sym) → (cur start : Nat) → List Sym × Option (ErrCode × Nat)
  | [], _, out, cur, start =>
    if cur = e.root then (out, none) else (out, some (.malformedBitstream, start))
  | none :: _, i, out, _, _ => (out, some (.invalidBit, i))
  | some b :: bs, i, out, cur, start =>
    match e.leafAt e.root with
    | some s =>
      if out.length = maxLen then (out, some (.outOverflow, start))
      else decodeLoop e maxLen bs (i + 1) (out ++ [s]) cur (i + 1)
    | none =>
      match e.leafAt (e.moveOn cur b) with
      | some s =>
        if out.length = maxLen then (out, some (.outOverflow, start))
        else decodeLoop e maxLen bs (i + 1) (out ++ [s]) e.root (i + 1)
      | none => decodeLoop e maxLen bs (i + 1) out (e.moveOn cur b) start

/-- `decodeBits(fmt, n)` (R111): it reads the tree and the input elements only. -/
def decodeBits (c : Config) (fmt : Fmt) (n : Nat) (s : Block) : List Sym × Option (ErrCode × Nat) :=
  decodeLoop s.eng c.maxLen (s.inputBits c fmt n) 0 [] s.eng.root 0

/-- `doDecode(fmt)` (R111, R118, R119). -/
def doDecode (fmt : Fmt) (c : Config) (s : Block) : Block :=
  if !s.eng.built then s.raiseEarly .uninitializedTree
  else if fmt.inCap c < s.inputLen then s.raiseEarly .lenRange
  else
    let (out, err) := decodeBits c fmt s.inputLen s
    (s.writeText out).finish out.length err

/-- DECODE.P (R112). -/
def execDecodeP (s : State) : Host.Outcome State Fault Refusal := .next (s.completeWith (doDecode .packed))

/-- DECODE.C (R113). -/
def execDecodeC (s : State) : Host.Outcome State Fault Refusal := .next (s.completeWith (doDecode .char))

/-- What a word that decodes to BAD does: `raise BAD_CMD(0)` and nothing else (R81, R82, R143). -/
def doBad (_ : Config) (s : Block) : Block := s.raiseEarly .badCmd

/-- The completion of a BAD word (R81, R143). -/
def execBad (s : State) : Host.Outcome State Fault Refusal := .next (s.completeWith doBad)

end Sys2Proof.Machine
end

