-- ==== Sys2Proof/Machine/Dispatch.lean ====
section
/-! DEFINITION. The dispatch of `complete` (30_encoding.md R81): one arm per command. -/

namespace Sys2Proof.Machine

def exec (i : Instr) (s : State) : Host.Outcome State Fault Refusal :=
  match i with
  | .build => Sys2Proof.Machine.execBuild s
  | .encodeP => Sys2Proof.Machine.execEncodeP s
  | .encodeC => Sys2Proof.Machine.execEncodeC s
  | .decodeP => Sys2Proof.Machine.execDecodeP s
  | .decodeC => Sys2Proof.Machine.execDecodeC s

end Sys2Proof.Machine
end

