-- ==== Sys2Proof/Machine/Step.lean ====
section
/-! DEFINITION. One step of the machine: a port access of the host, the completion of the pending command,
or a reset (70_reset_and_hazards.md R168; 30_encoding.md R81). -/

namespace Sys2Proof.Machine

/-- The engine's step (R81): the command PEND decodes to, or BAD_CMD. -/
def engineStep (s : State) : Host.Outcome State Fault Refusal :=
  match decodeCmd s.pend with
  | .valid i => exec i s
  | .bad _ => execBad s

/-- One step (R168). When the run is over (R170) the block waits in IDLE (R158) and nothing changes. -/
def step (s : State) : Host.Outcome State Fault Refusal :=
  match s.nextTurn with
  | none => .next s
  | some (.host, ts) => .next (s.turnsTo ts).hostStep
  | some (.engine, ts) => engineStep (s.turnsTo ts)
  | some (.reset, ts) => .next (s.turnsTo ts).resetEvent

/-- `s` with a command word where the engine takes its next command: PEND, by the acceptance of R80, and the
engine's turn next (log 11). -/
def State.withFetchWord (s : State) (nbits w : Nat) : State :=
  { s.accept (BitVec.ofNat 32 (w % 2 ^ nbits)) with turns := .engine :: s.turns }

end Sys2Proof.Machine
end

