-- ==== Sys2Proof/Machine/Script.lean ====
section
/-! DEFINITION. The host-script notation and its pseudo-instructions, expanded to port accesses
(30_encoding.md R84, R85). -/

namespace Sys2Proof.Machine

/-- A `<loc>` of R84. -/
inductive Loc where
  | reg (r : Reg)
  | txtIn (i : Nat)
  | txtOut (i : Nat)
  | bitw (w : Nat)
  | codew (w : Nat)
  | hex (a : Addr)
deriving DecidableEq, Repr

/-- addr(loc) of R84. No address above 22 bits can be presented (R55), and R84 bounds no index: DESIGN CHOICE (log 25), an index
whose address passes 22 bits is taken modulo 2^22. -/
def Loc.addr : Loc → Addr
  | .reg r => BitVec.ofNat 22 r.offset
  | .txtIn i => BitVec.ofNat 22 (0x100000 + 4 * i)
  | .txtOut i => BitVec.ofNat 22 (0x200000 + 4 * i)
  | .bitw w => BitVec.ofNat 22 (0x300000 + 4 * w)
  | .codew w => BitVec.ofNat 22 (0x010000 + 4 * w)
  | .hex a => a

/-- A statement of a host script (R84) or a pseudo-instruction (R85). -/
inductive Stmt where
  | wr (loc : Loc) (v : Word)
  | rd (loc : Loc)
  | rdEq (loc : Loc) (v : Word)
  | cmd (i : Instr)
  | wait
  | ack
  | text (cs : List Char)
  | bits (bs : Bits)
  | charbits (bs : Bits)
deriving DecidableEq, Repr

/-- `WR loc, v`. -/
def wrOp (loc : Loc) (v : Word) : HostOp := .issue (.write loc.addr v)

/-- Writes of consecutive words of an indexed location, from index `i` on. -/
def wrOps (loc : Nat → Loc) : (i : Nat) → List Word → List HostOp
  | _, [] => []
  | i, v :: vs => wrOp (loc i) v :: wrOps loc (i + 1) vs

/-- The code of a character: its ASCII code (R84). -/
def charCode (c : Char) : Word := BitVec.ofNat 32 c.toNat

/-- The expansion of a statement (R84, R85). R85 gives TEXT and CHARBITS an order and BITS none: DESIGN CHOICE (log 24), the
BITW writes of BITS are issued in ascending w. -/
def Stmt.expand : Stmt → List HostOp
  | .wr loc v => [wrOp loc v]
  | .rd loc => [.issue (.read loc.addr)]
  | .rdEq loc v => [.check loc.addr v]
  | .cmd i => [wrOp (.reg .cmd) (encode i)]
  | .wait => [.wait]
  | .ack => [wrOp (.reg .status) 0x0000000A]
  | .text cs => wrOps .txtIn 0 (cs.map charCode) ++ [wrOp (.reg .len) (BitVec.ofNat 32 cs.length)]
  | .bits bs => wrOps .bitw 0 (packWords bs) ++ [wrOp (.reg .len) (BitVec.ofNat 32 bs.length)]
  | .charbits bs =>
    wrOps .txtIn 0 (bs.map fun b => wordOfSym (if b then Config.ch1 else Config.ch0))
      ++ [wrOp (.reg .len) (BitVec.ofNat 32 bs.length)]

/-- A host script as the accesses it performs (R85). -/
def expandScript (p : List Stmt) : List HostOp := p.flatMap Stmt.expand

/-- The start of a run of a script from a state (R170), with a choice of who moves when (R168). -/
def State.load (s : State) (p : List Stmt) (ts : List Turn) : State :=
  { s with script := expandScript p, turns := ts }

end Sys2Proof.Machine
end

