-- ==== Sys2Proof/Machine/Procedures.lean ====
section
/-! DEFINITION. The host procedures that read the tables and the tree through the port (43_inspect.md R131,
R132), as functions of the state they run from. They issue no BUILD, so ENG stands still under them (R122). -/

namespace Sys2Proof.Machine

namespace State

/-- `RD loc`: the data a read returns. -/
def rd (s : State) (loc : Loc) : Word := (s.memRead loc.addr).1.1

/-- `WR loc, v`: the state after a write. -/
def wr (s : State) (loc : Loc) (v : Word) : State := (s.memWrite loc.addr v).2

/-- Bits 0 .. n-1 of the words read from the code window, LSB-first (R131). -/
def readCodeBits (s : State) (n : Nat) : Bits :=
  (List.range n).map fun i => (s.rd (.codew (i / 32))).getLsbD (i % 32)

/-- The body of R131's loop: select symbol `y`, and yield its entry if it has one. -/
def readEntry (s : State) (y : Nat) : Option (Nat × Nat × Bits) :=
  let s' := s.wr (.reg .sel) (BitVec.ofNat 32 y)
  let f := (s'.rd (.reg .freq)).toNat
  if f = 0 then none else some (y, f, s'.readCodeBits (s'.rd (.reg .codelen)).toNat)

/-- `frequencyTable()` and `codeTable()` as R131 reads them: symbol, count and code, in ascending order of
symbol. Each round selects its own symbol, so the rounds are taken from one state. -/
def readTables (s : State) : List (Nat × Nat × Bits) :=
  (List.range s.cfg.nsymMax).filterMap s.readEntry

end State

/-- The tree that R132 renders. -/
inductive RenderedTree where
  | leaf (sym weight : Nat)
  | internal (weight : Nat) (zeroBranch oneBranch : RenderedTree)
deriving DecidableEq, Repr

/-- `render(v)` of R132, to a depth of `fuel` nodes; none when the depth runs out, which for fuel above v
does not happen in a tree whose children lie below their parents (R22). -/
def State.render (s : State) : (fuel : Nat) → (v : Nat) → Option RenderedTree
  | 0, _ => none
  | fuel + 1, v =>
    let s' := s.wr (.reg .nodesel) (BitVec.ofNat 32 v)
    let info := s'.rd (.reg .nodeInfo)
    let w := (s'.rd (.reg .nodeWeight)).toNat
    if info.getLsbD 30 then some (.leaf (info.extractLsb' 0 16).toNat w)
    else
      match s.render fuel (s'.rd (.reg .nodeZero)).toNat, s.render fuel (s'.rd (.reg .nodeOne)).toNat with
      | some z, some o => some (.internal w z o)
      | _, _ => none

/-- `tree()` of R132: none is "no tree". -/
def State.readTree (s : State) : Option RenderedTree :=
  if (s.rd (.reg .status)).getLsbD 2 then
    s.render ((s.rd (.reg .root)).toNat + 1) (s.rd (.reg .root)).toNat
  else none

end Sys2Proof.Machine
end

