-- ==== Sys2Proof/Safety.lean ====
section
/-! DEFINITION. What a good state is, in the terms the statements use: the invariants of 10_state.md R22 and
R34, 20_memory.md R69 and R74, and reachability. All are decidable, so that a witness can be checked. -/

namespace Sys2Proof.Machine

namespace Eng

/-- The weight of node `i`, 0 where there is none. -/
def weightAt (e : Eng) (i : Nat) : Nat := (e.nodes[i]?.map Node.weight).getD 0

/-- The children of a node: zero-branch, then one-branch. -/
def childrenOf : Node → List Nat
  | .leaf _ _ => []
  | .internal _ z o => [z, o]

/-- Every child index of the tree, in the order in which the merges removed the nodes (R91). -/
def children (e : Eng) : List Nat := e.nodes.flatMap childrenOf

/-- The node at index `i` is Internal, with both branches below it, different, and its weight their sum. -/
def internalOk (e : Eng) (i : Nat) : Bool :=
  match e.nodes[i]? with
  | some (.internal w z o) => z < i && o < i && z != o && w == e.weightAt z + e.weightAt o
  | _ => false

/-- Follow the bits of `p` from node `n`: a zero-branch on 0 and a one-branch on 1 (R94). None when a Leaf is
passed. -/
def descend (e : Eng) : (n : Nat) → (p : Bits) → Option Nat
  | n, [] => some n
  | n, b :: p =>
    match e.nodes[n]?.bind (·.branch? b) with
    | none => none
    | some m => e.descend m p

/-- The code `p` of symbol `s` is its root-to-leaf path (R94), or [0] when the root is a Leaf (R95). -/
def codeOk (e : Eng) (s : Sym) (p : Bits) : Bool :=
  if e.k = 1 then p == [false] else (e.descend e.root p).bind e.leafAt == some s

/-- The invariants of R22, with R94 and R95 for the codes. The leaves stand in the order of the frequency
table, which is ascending; the code table has the same symbols. -/
abbrev TreeOk (c : Config) (e : Eng) : Prop :=
  1 ≤ e.k ∧ e.freq.length = e.k ∧ Table.wf e.freq
  ∧ (∀ x ∈ e.freq, 1 ≤ x.2 ∧ x.1.toNat < c.nsymMax)
  ∧ e.nodes.length = 2 * e.k - 1 ∧ e.root = 2 * e.k - 2
  ∧ e.nodes.take e.k = e.freq.map (fun x => .leaf x.1 x.2)
  ∧ (∀ i < e.nodes.length, e.k ≤ i → e.internalOk i = true)
  ∧ (∀ j < e.root, e.children.count j = 1)
  ∧ e.weightAt e.root = e.total ∧ (e.freq.map Prod.snd).sum = e.total
  ∧ e.code.map Prod.fst = e.freq.map Prod.fst
  ∧ (∀ x ∈ e.code, 1 ≤ x.2.length ∧ x.2.length ≤ c.codeMax ∧ e.codeOk x.1 x.2 = true)

/-- ENG is the Uninitialized value (R21) or a committed tree (R22) of a text that fitted TXT_IN (R42). -/
abbrev Ok (c : Config) (e : Eng) : Prop :=
  (e.built = false → e = .uninitialized) ∧ (e.built = true → e.TreeOk c ∧ e.total ≤ c.maxLen)

end Eng

namespace Fmt

/-- The ENCODE command of a format (R76, R77): ENCODE.P for packed, ENCODE.C for characters. -/
def encoder : Fmt → Instr
  | .packed => .encodeP
  | .char => .encodeC

/-- The DECODE command of a format (R76, R77): DECODE.P for packed, DECODE.C for characters. -/
def decoder : Fmt → Instr
  | .packed => .decodeP
  | .char => .decodeC

/-- Where the ENCODE of a format stores (R77, R108, R109): the base of BIT or of TXT_OUT. -/
def outBase : Fmt → Nat
  | .packed => bitBase
  | .char => txtOutBase

/-- How many bytes the ENCODE of a format stores for `n` bits (R108, R109): 4 for each word the stream
touches, or 4 for each bit. -/
def outBytes (n : Nat) : Fmt → Nat
  | .packed => 4 * wordsOf n
  | .char => 4 * n

end Fmt

namespace State

/-- The byte address `a` lies in an implemented word of a buffer (R54, R60). -/
def bufferByte (c : Config) (a : Nat) : Bool :=
  (txtInBase ≤ a && a < txtInBase + 4 * c.maxLen)
  || (txtOutBase ≤ a && a < txtOutBase + 4 * c.maxLen)
  || (bitBase ≤ a && a < bitBase + 4 * c.bitWords)

/-- Memory is canonical and holds nothing outside the buffers (R69). -/
abbrev MemOk (s : State) : Prop := Memory.wf s.mem ∧ ∀ x ∈ s.mem, bufferByte s.cfg x.1 = true

/-- SEL and NODESEL hold values of their fields' widths (R44, R45). -/
abbrev SelOk (s : State) : Prop :=
  s.sel.toNat < 2 ^ s.cfg.symW ∧ s.nodesel.toNat < 2 ^ (s.cfg.symW + 1)

/-- While BUSY the completion record is as acceptance left it (R34, R39, R40, R80). -/
abbrev RecordOk (s : State) : Prop :=
  s.fsm = .busy → s.done = false ∧ s.err = .none ∧ s.outlen = 0 ∧ s.errpos = 0

/-- The invariant of the machine. -/
abbrev Inv (s : State) : Prop := s.MemOk ∧ s.SelOk ∧ s.RecordOk ∧ s.eng.Ok s.cfg

end State

namespace Block

/-- The state `s` with the completion record (ERR, ERRPOS, OUTLEN) of a command that has just completed (R81,
R135): nothing else differs from `s`. -/
def completedWith (e : ErrCode) (pos n : Nat) (s : Block) : Block :=
  { s with
    fsm := .idle
    done := true
    err := e
    errpos := BitVec.ofNat 32 pos
    outlen := BitVec.ofNat 32 n }

/-- Every byte of the buffers outside the `n` bytes from `base` on reads in `t` as in `s`. -/
def SameOutside (base n : Nat) (s t : Block) : Prop :=
  ∀ a, ¬ (base ≤ a ∧ a < base + n) → t.readByte a = s.readByte a

/-- BIT holds the stream `bs`, with zeros to the end of the last word it touches (R108). -/
abbrev HoldsStream (s : Block) (bs : Bits) : Prop := ∀ i < 32 * wordsOf bs.length, s.bit i = bs.getD i false

/-- TXT_OUT holds the stream `bs` as characters: CH0 for 0 and CH1 for 1 (R109). -/
abbrev HoldsChars (c : Config) (s : Block) (bs : Bits) : Prop :=
  ∀ j < bs.length, s.txtOut c j = if bs.getD j false then 0x31 else 0x30

/-- The output of an ENCODE stands where its format puts it (R108, R109). -/
def HoldsOutput (c : Config) (s : Block) (fmt : Fmt) (bs : Bits) : Prop :=
  match fmt with
  | .packed => s.HoldsStream bs
  | .char => s.HoldsChars c bs

/-- TXT_OUT holds the text `ys` (R119). -/
abbrev HoldsText (c : Config) (s : Block) (ys : List Sym) : Prop := ∀ j < ys.length, s.txtOut c j = ys.getD j 0

/-- The input of a DECODE of `bs`: in BIT (R114), or as characters in TXT_IN (R115). -/
abbrev InputIs (c : Config) (s : Block) (fmt : Fmt) (bs : Bits) : Prop :=
  ∀ i < bs.length, s.readBit c fmt i = some (bs.getD i false)

end Block

namespace State

/-- `Block.completedWith`, in the block's surroundings. -/
def completedWith (e : ErrCode) (pos n : Nat) (s : State) : State := s.onBlock (Block.completedWith e pos n)

/-- `t` comes from `s` by some number of steps. -/
inductive Reaches (s : State) : State → Prop where
  | refl : Reaches s s
  | tail {t u : State} : Reaches s t → step t = .next u → Reaches s u

/-- A safe run: every state reached from `s` by steps satisfies the invariant. -/
def Safe (s : State) : Prop := ∀ t, Reaches s t → t.Inv

end State

/-- The symbols of a rendered tree with their paths from its root, 0 for a zero-branch and 1 for a one-branch. -/
def RenderedTree.paths : RenderedTree → List (Nat × Bits)
  | .leaf y _ => [(y, [])]
  | .internal _ z o => z.paths.map (fun x => (x.1, false :: x.2)) ++ o.paths.map (fun x => (x.1, true :: x.2))

/-- The symbols of a rendered tree with their weights, from left to right. -/
def RenderedTree.leaves : RenderedTree → List (Nat × Nat)
  | .leaf y w => [(y, w)]
  | .internal _ z o => z.leaves ++ o.leaves

/-- The weight at the root of a rendered tree. -/
def RenderedTree.weight : RenderedTree → Nat
  | .leaf _ w => w
  | .internal w _ _ => w

/-- Every Internal node of a rendered tree has the sum of its branches' weights. -/
def RenderedTree.sums : RenderedTree → Bool
  | .leaf _ _ => true
  | .internal w z o => w == z.weight + o.weight && z.sums && o.sums

end Sys2Proof.Machine
end

