-- ==== Sys2Proof/Certificates/Slice0/Obligations.lean ====
section
/-! DEFINITION. The statements for the provers: what the rules of spec/ say the block does. -/

open Sys2Proof Sys2Proof.Machine

/-! ### Command words -/

/-- 30_encoding.md §1, §3: the words of the table decode to their commands, and R79's and E2's examples of
reserved words to none (words written out from the fields of R75). -/
def Obligations.TableWordsDecode : Prop :=
  decodeTableWord 32 0x00000001 = some .build ∧ decodeTableWord 32 0x00000002 = some .encodeP
  ∧ decodeTableWord 32 0x00000012 = some .encodeC ∧ decodeTableWord 32 0x00000003 = some .decodeP
  ∧ decodeTableWord 32 0x00000013 = some .decodeC
  ∧ decodeTableWord 32 0x00000000 = none ∧ decodeTableWord 32 0x00000011 = none
  ∧ decodeTableWord 32 0x00000004 = none ∧ decodeTableWord 32 0x00000022 = none
  ∧ decodeTableWord 32 0x80000001 = none ∧ decodeTableWord 32 0xFFFFFFFF = none

/-- R76: exactly five words are defined, those of its table, each selected by all 32 bits. Decoding an encoded command
gives it back, and a word that decodes to a command is that command's word. -/
def Obligations.DecodeAndEncodeAgree : Prop :=
  (encode .build = 0x00000001 ∧ encode .encodeP = 0x00000002 ∧ encode .encodeC = 0x00000012
    ∧ encode .decodeP = 0x00000003 ∧ encode .decodeC = 0x00000013)
  ∧ (∀ i : Instr, i.wf = true → decodeCmd (encode i) = .valid i
    ∧ decodeTableWord 32 (encode i).toNat = some i)
  ∧ ∀ (v : Word) (i : Instr), decodeCmd v = .valid i → v = encode i

/-- R79: every word decodes to exactly one of the five commands or BAD: to a command exactly when it is that command's
word, and to BAD exactly when its OP field [3:0] is reserved, or it has FMT [4] = 1 with OP = BUILD, or a RSVD bit
[31:5] is set. -/
def Obligations.BadWordsByTheirFields : Prop :=
  ∀ v : Word,
    ((decodeCmd v = .valid .build ↔ v = 0x00000001) ∧ (decodeCmd v = .valid .encodeP ↔ v = 0x00000002)
      ∧ (decodeCmd v = .valid .encodeC ↔ v = 0x00000012) ∧ (decodeCmd v = .valid .decodeP ↔ v = 0x00000003)
      ∧ (decodeCmd v = .valid .decodeC ↔ v = 0x00000013))
    ∧ ((∃ why, decodeCmd v = .bad why) ↔
    (v.toNat % 16 ≠ 1 ∧ v.toNat % 16 ≠ 2 ∧ v.toNat % 16 ≠ 3)
    ∨ (v.toNat % 16 = 1 ∧ v.toNat / 16 % 2 = 1)
    ∨ v.toNat / 32 ≠ 0)

/-! ### Steps -/

/-- R81: when the engine moves, fsm is BUSY, and where PEND decodes to a command the step is that command's
effect, in the state whose turn list has moved on. The third clause is about the model's own device and not the spec's (log 11,
DEDUCED): a word that `withFetchWord` puts in PEND is the next thing to run. The turn list is the model's too (log 6). -/
def Obligations.EngineStepRunsTheDecodedCommand : Prop :=
  (∀ (s : State) (ts : List Turn), s.nextTurn = some (.engine, ts) → s.fsm = .busy)
  ∧ (∀ (s : State) (ts : List Turn) (i : Instr), s.nextTurn = some (.engine, ts) →
      decodeCmd s.pend = .valid i → step s = exec i { s with turns := ts })
  ∧ ∀ (s : State) (w : Nat) (i : Instr), decodeTableWord 32 w = some i →
      step (s.withFetchWord 32 w) = exec i (s.accept (BitVec.ofNat 32 w))

/-- R143: a BAD word is accepted, BUSY goes to 1, and it completes with BAD_CMD, position 0, OUTLEN 0 and DONE = 1; nothing
else changes but the model's own turn list (log 6). -/
def Obligations.BadWordCompletesWithBadCmd : Prop :=
  (∀ (s : State) (v : Word) (why : BadWord), s.fsm = .idle → decodeCmd v = .bad why →
    (s.memWrite 0x000018 v).1 = .okay ∧ (s.memWrite 0x000018 v).2.fsm = .busy ∧ (s.memWrite 0x000018 v).2.pend = v)
  ∧ ∀ (s : State) (ts : List Turn) (why : BadWord), s.nextTurn = some (.engine, ts) →
      decodeCmd s.pend = .bad why →
      step s = .next { s with
        turns := ts, fsm := .idle, done := true, err := .badCmd, errpos := 0, outlen := 0 }

/-- 10_state.md §2 (R19), 70_reset_and_hazards.md §3 (R167): an accepted command completes, or is abandoned by a reset,
within as many steps as there are turns given to others, and one more. The turn list is the model's (log 6). -/
def Obligations.AcceptedCommandEnds : Prop :=
  ∀ s : State, s.fsm = .busy → ∃ n, n ≤ s.turns.length + 1 ∧ ∃ t : State,
    Host.Core.run Sys2Proof.core n s = .next t ∧ t.fsm = .idle

/-- R80: a write of `v` to CMD while IDLE is the acceptance, of any word, a BAD one too, which then completes with BAD_CMD;
while BUSY it sets OVR and nothing else. -/
def Obligations.AcceptanceOfACommandWord : Prop :=
  ∀ (s : State) (v : Word),
    (s.fsm = .idle → s.memWrite 0x000018 v = (.okay, { s with
      pend := v, fsm := .busy, done := false, err := .none, outlen := 0, errpos := 0 }))
    ∧ (s.fsm = .busy → s.memWrite 0x000018 v = (.okay, { s with ovr := true }))
    ∧ ∀ why : BadWord, s.fsm = .idle → decodeCmd v = .bad why →
        ∃ t : State, engineStep (s.memWrite 0x000018 v).2 = .next t ∧ t.err = .badCmd ∧ t.fsm = .idle ∧ t.done = true

/-- 70_reset_and_hazards.md §1 (R155, R156): the reset event: every register and ENG as after reset, no buffer entry written and
each a new draw, no irq, and ENCODE and DECODE then fail with UNINITIALIZED_TREE; also while BUSY, with no record. Four clauses are
the model's own choices: a draw is `bufferDraw` of the next `epoch` (log 3), the count of draws stays (log 4), and so do the
configuration, the script, the turns and the log (logs 1, 20). -/
def Obligations.ResetEventClearsEverything : Prop :=
  ∀ (s : State) (ts : List Turn), s.nextTurn = some (.reset, ts) → ∃ t : State, step s = .next t
    ∧ t.fsm = .idle ∧ t.eng = Eng.uninitialized
    ∧ t.ie = false ∧ t.done = false ∧ t.ovr = false ∧ t.err = .none
    ∧ t.len = 0 ∧ t.outlen = 0 ∧ t.errpos = 0 ∧ t.sel = 0 ∧ t.nodesel = 0
    ∧ (∀ a, t.byteWritten a = false) ∧ (∀ a, t.readByte a = Config.bufferDraw (s.epoch + 1) a)
    ∧ t.irq = false
    ∧ (∀ i : Instr, i ≠ .build → ∃ u : State, exec i t = .next u ∧ u.err = .uninitializedTree)
    ∧ t.cfg = s.cfg ∧ t.epoch = s.epoch + 1 ∧ t.draws = s.draws ∧ t.script = s.script ∧ t.turns = ts
    ∧ t.log = s.log

/-- R154 (70_reset_and_hazards.md §1) and I3 of 95_test_vectors.md: what every register and the code window read after
reset, in every configuration, whatever SEL and NODESEL then select. The value of PEND after reset is the model's own
(log 5) and is not stated here. -/
def Obligations.RegistersReadTheirResetValues : Prop :=
  ∀ (c : Config) (v : Word), let s := State.initial c
    s.fsm = .idle ∧ s.irq = false
    ∧ (∀ a : Addr, a ∈ ([0x010, 0x014, 0x018, 0x01C, 0x020, 0x024, 0x028, 0x02C, 0x030, 0x034, 0x040] : List Addr) →
        s.memRead a = ((0, .okay), s))
    ∧ (∀ a : Addr, a ∈ ([0x038, 0x03C] : List Addr) →
        ((s.memWrite 0x034 v).2.memRead a).1 = (0, .okay))
    ∧ (∀ a : Addr, a ∈ ([0x044, 0x048, 0x04C, 0x050] : List Addr) →
        ((s.memWrite 0x040 v).2.memRead a).1 = (0, .okay))
    ∧ (∀ j, j < c.codeWords →
        ((s.memWrite 0x034 v).2.memRead (BitVec.ofNat 22 (0x010000 + 4 * j))).1 = (0, .okay))
    ∧ s.memRead 0x000 = ((0x48554646, .okay), s)
    ∧ s.memRead 0x004 = ((BitVec.ofNat 32 c.symW, .okay), s)
    ∧ s.memRead 0x008 = ((BitVec.ofNat 32 c.maxLen, .okay), s)
    ∧ s.memRead 0x00C = ((BitVec.ofNat 32 c.maxBits, .okay), s)

/-! ### The port -/

/-- R59, R60: a misaligned or unimplemented access answers ERROR, reads 0 and changes nothing; every other is
answered OKAY. -/
def Obligations.PortRefusesMisalignedAndUnimplemented : Prop :=
  ∀ (s : State) (a : Addr) (v : Word),
    let refusedAddr : Prop := a.toNat % 4 ≠ 0
      ∨ (0x54 ≤ a.toNat ∧ a.toNat < 0x010000)
      ∨ (0x010000 + 4 * s.cfg.codeWords ≤ a.toNat ∧ a.toNat < 0x100000)
      ∨ (0x100000 + 4 * s.cfg.maxLen ≤ a.toNat ∧ a.toNat < 0x200000)
      ∨ (0x200000 + 4 * s.cfg.maxLen ≤ a.toNat ∧ a.toNat < 0x300000)
      ∨ 0x300000 + 4 * s.cfg.bitWords ≤ a.toNat
    (refusedAddr → s.memRead a = ((0, .error), s) ∧ s.memWrite a v = (.error, s))
    ∧ (¬ refusedAddr → (s.memRead a).1.2 = .okay ∧ (s.memWrite a v).1 = .okay)

/-- R57 (20_memory.md §2): a read changes no architectural state; only the model's count of draws (log 4) can move, and only
while BUSY. -/
def Obligations.ReadsChangeNothing : Prop :=
  ∀ (s : State) (a : Addr),
    (s.memRead a).2 = { s with draws := (s.memRead a).2.draws }
    ∧ (s.fsm = .idle → (s.memRead a).2 = s)
    ∧ (a.toNat < 0x200000 → (s.memRead a).2 = s)

/-- R67: while BUSY a write to CMD, LEN, TXT_IN or BIT is dropped and sets OVR; CTRL, STATUS, SEL and NODESEL are
written as ever; a write to a read-only register or region is ignored, BUSY or not, and does not set OVR. -/
def Obligations.WritesDuringABusyCommand : Prop :=
  (∀ (s : State) (a : Addr) (v : Word), s.fsm = .busy →
    (a = 0x018 ∨ a = 0x01C ∨ (∃ w, w < s.cfg.maxLen ∧ a.toNat = 0x100000 + 4 * w)
      ∨ (∃ w, w < s.cfg.bitWords ∧ a.toNat = 0x300000 + 4 * w)) →
    s.memWrite a v = (.okay, { s with ovr := true }))
  ∧ (∀ (s : State) (v : Word), s.fsm = .busy →
      s.memWrite 0x010 v = (.okay, { s with ie := v.getLsbD 0 })
      ∧ s.memWrite 0x014 v = (.okay, { s with done := s.done && !v.getLsbD 1, ovr := s.ovr && !v.getLsbD 3 })
      ∧ s.memWrite 0x034 v = (.okay, { s with sel := BitVec.ofNat 16 (v.toNat % 2 ^ s.cfg.symW) })
      ∧ s.memWrite 0x040 v = (.okay, { s with nodesel := BitVec.ofNat 17 (v.toNat % 2 ^ (s.cfg.symW + 1)) }))
  ∧ ∀ (s : State) (a : Addr) (v : Word),
      (a ∈ ([0x000, 0x004, 0x008, 0x00C, 0x020, 0x024, 0x028, 0x02C, 0x030, 0x038, 0x03C, 0x044, 0x048, 0x04C,
          0x050] : List Addr)
        ∨ (∃ w, w < s.cfg.codeWords ∧ a.toNat = 0x010000 + 4 * w)
        ∨ (∃ w, w < s.cfg.maxLen ∧ a.toNat = 0x200000 + 4 * w)) →
      s.memWrite a v = (.okay, s)

/-- R29 to R32: ID and the configuration registers, IDLE or BUSY, in every configuration. -/
def Obligations.IdentityAndConfigurationRegisters : Prop :=
  ∀ s : State, s.memRead 0x000 = ((0x48554646, .okay), s)
    ∧ ((s.memRead 0x004).1.1.toNat = s.cfg.symW ∧ (s.memRead 0x004).1.2 = .okay)
    ∧ ((s.memRead 0x008).1.1.toNat = s.cfg.maxLen ∧ (s.memRead 0x008).1.2 = .okay)
    ∧ ((s.memRead 0x00C).1.1.toNat = s.cfg.maxBits ∧ (s.memRead 0x00C).1.2 = .okay)

/-- R34 (10_state.md §5) with the codes of R133: STATUS reads BUSY [0], DONE [1], BUILT [2], OVR [3], ERR [11:8] and 0
elsewhere. -/
def Obligations.StatusRegisterLayout : Prop :=
  ∀ s : State, (s.memRead 0x014).1.2 = .okay
    ∧ (s.memRead 0x014).1.1.toNat =
        (if s.fsm = .busy then 1 else 0) + 2 * (if s.done then 1 else 0) + 4 * (if s.eng.built then 1 else 0)
        + 8 * (if s.ovr then 1 else 0)
        + 256 * (match s.err with
          | .none => 0 | .emptyInput => 1 | .unknownSymbol => 2 | .invalidBit => 3 | .malformedBitstream => 4
          | .uninitializedTree => 5 | .lenRange => 6 | .outOverflow => 7 | .badCmd => 8)

/-- R33, R36, and of R37 to R45 what reads back: a write to CTRL sets IE, which alone reads back and is 0 after reset, and a
write to STATUS clears DONE and OVR by ones, both IDLE and BUSY; LEN is written while IDLE and reads back, and while BUSY the write is
dropped and sets OVR. In every state CMD reads 0, OUTLEN, ERRPOS, SEL and NODESEL read what they hold, and NSYM, TOTAL and ROOT
read k, total and root of ENG. No read changes the state. -/
def Obligations.ControlStatusAndLengthRegisters : Prop :=
  ∀ (s : State) (v : Word),
    s.memWrite 0x010 v = (.okay, { s with ie := v.getLsbD 0 })
    ∧ (s.memRead 0x010).1.1.toNat = (if s.ie then 1 else 0)
    ∧ s.memWrite 0x014 v = (.okay, { s with done := s.done && !v.getLsbD 1, ovr := s.ovr && !v.getLsbD 3 })
    ∧ (s.memRead 0x01C).1 = (s.len, .okay)
    ∧ (s.fsm = .idle → s.memWrite 0x01C v = (.okay, { s with len := v }))
    ∧ (s.fsm = .busy → s.memWrite 0x01C v = (.okay, { s with ovr := true }))
    ∧ (∀ c : Config, (State.initial c).ie = false) ∧ s.resetEvent.ie = false
    ∧ s.memRead 0x018 = ((0, .okay), s)
    ∧ s.memRead 0x020 = ((s.outlen, .okay), s)
    ∧ s.memRead 0x024 = ((s.errpos, .okay), s)
    ∧ s.memRead 0x028 = ((BitVec.ofNat 32 s.eng.k, .okay), s)
    ∧ s.memRead 0x02C = ((BitVec.ofNat 32 s.eng.total, .okay), s)
    ∧ s.memRead 0x030 = ((BitVec.ofNat 32 s.eng.root, .okay), s)
    ∧ s.memRead 0x034 = ((BitVec.setWidth 32 s.sel, .okay), s)
    ∧ s.memRead 0x040 = ((BitVec.setWidth 32 s.nodesel, .okay), s)

/-- R44, R45: SEL keeps SYM_W bits and NODESEL SYM_W + 1, at once and in both IDLE and BUSY, and nothing else changes;
a NODESEL of 2k - 1 or more selects no node. -/
def Obligations.SelectorsKeepTheirWidths : Prop :=
  (∀ (s : State) (v : Word), let t := (s.memWrite 0x034 v).2
    (t.memRead 0x034).1.1.toNat = v.toNat % 2 ^ s.cfg.symW ∧ t = { s with sel := t.sel })
  ∧ (∀ (s : State) (v : Word), let t := (s.memWrite 0x040 v).2
    (t.memRead 0x040).1.1.toNat = v.toNat % 2 ^ (s.cfg.symW + 1) ∧ t = { s with nodesel := t.nodesel })
  ∧ ∀ s : State, 2 * s.eng.k - 1 ≤ s.nodesel.toNat →
      ∀ a : Addr, a ∈ ([0x044, 0x048, 0x04C, 0x050] : List Addr) → (s.memRead a).1.1 = 0

/-- R62: a TXT_IN word keeps bits [SYM_W-1:0] of what is written while IDLE, reads them zero-extended, and no other byte
of the buffers changes; while BUSY the write is dropped. -/
def Obligations.TextInputWords : Prop :=
  ∀ (s : State) (w : Nat) (v : Word), w < s.cfg.maxLen →
    let a : Addr := BitVec.ofNat 22 (0x100000 + 4 * w)
    let t := (s.memWrite a v).2
    (s.memRead a).1 = (BitVec.setWidth 32 (s.txtIn s.cfg w), .okay)
    ∧ (s.fsm = .idle → (t.memRead a).1 = (BitVec.ofNat 32 (v.toNat % 2 ^ s.cfg.symW), .okay)
        ∧ (t.txtIn t.cfg w).toNat = v.toNat % 2 ^ s.cfg.symW
        ∧ Block.SameOutside (0x100000 + 4 * w) 4 s.toBlock t.toBlock ∧ t = { s with mem := t.mem })
    ∧ (s.fsm = .busy → t = { s with ovr := true })

/-- 20_memory.md §3 (R64): bit b of BIT word w is BIT[32w + b], for reads and writes while IDLE; no other byte changes; while BUSY
a write is dropped and a read is a draw. That the draw is `busyDraw` of the count of draws is the model's choice (log 4). -/
def Obligations.BitBufferWords : Prop :=
  ∀ (s : State) (w : Nat) (v : Word), w < s.cfg.bitWords →
    let a : Addr := BitVec.ofNat 22 (0x300000 + 4 * w)
    let t := (s.memWrite a v).2
    (s.fsm = .idle → (s.memRead a).1.2 = .okay
        ∧ (∀ b, b < 32 → (s.memRead a).1.1.getLsbD b = s.bit (32 * w + b))
        ∧ (∀ b, b < 32 → t.bit (32 * w + b) = v.getLsbD b)
        ∧ Block.SameOutside (0x300000 + 4 * w) 4 s.toBlock t.toBlock ∧ t = { s with mem := t.mem })
    ∧ (s.fsm = .busy → (s.memRead a).1 = (Config.busyDraw s.draws, .okay) ∧ t = { s with ovr := true })

/-- R63, R68 (20_memory.md §3, §4): a TXT_OUT read while IDLE is the symbol zero-extended. While BUSY a read of TXT_OUT or
BIT says nothing of the buffers or ENG: it is the same whatever they hold; a TXT_OUT draw has bits [31:SYM_W] zero. Draws are
the free values of log 4. -/
def Obligations.OutputReadsWhileBusySayNothing : Prop :=
  (∀ (s : State) (w : Nat), w < s.cfg.maxLen → s.fsm = .idle →
    s.memRead (BitVec.ofNat 22 (0x200000 + 4 * w)) = ((BitVec.setWidth 32 (s.txtOut s.cfg w), .okay), s))
  ∧ (∀ (s : State) (w : Nat), w < s.cfg.maxLen → s.fsm = .busy →
      (s.memRead (BitVec.ofNat 22 (0x200000 + 4 * w))).1.1.toNat < 2 ^ s.cfg.symW)
  ∧ ∀ (s : State) (a : Addr) (m : List Host.Cell) (e : Eng), s.fsm = .busy → 0x200000 ≤ a.toNat →
      ({ s with mem := m, eng := e }.memRead a).1 = (s.memRead a).1

/-! ### Inspection -/

/-- R126 to R129: the node registers show the node that NODESEL names, and 0 when it names none. -/
def Obligations.NodeRegistersShowTheSelectedNode : Prop :=
  (∀ (s : State) (n : Node), s.eng.built = true → s.nodesel.toNat < 2 * s.eng.k - 1 →
    s.eng.nodes[s.nodesel.toNat]? = some n →
    match n with
    | .leaf y w => (s.memRead 0x044).1.1.toNat = 2 ^ 31 + 2 ^ 30 + y.toNat
        ∧ (s.memRead 0x048).1.1 = BitVec.ofNat 32 w
        ∧ (s.memRead 0x04C).1.1 = 0 ∧ (s.memRead 0x050).1.1 = 0
    | .internal w z o => (s.memRead 0x044).1.1.toNat = 2 ^ 31
        ∧ (s.memRead 0x048).1.1 = BitVec.ofNat 32 w
        ∧ (s.memRead 0x04C).1.1 = BitVec.ofNat 32 z ∧ (s.memRead 0x050).1.1 = BitVec.ofNat 32 o)
  ∧ ∀ s : State, ¬ (s.eng.built = true ∧ s.nodesel.toNat < 2 * s.eng.k - 1) →
      (s.memRead 0x044).1.1 = 0 ∧ (s.memRead 0x048).1.1 = 0 ∧ (s.memRead 0x04C).1.1 = 0
      ∧ (s.memRead 0x050).1.1 = 0

/-- R123 to R125 (43_inspect.md §2): FREQ and CODELEN show the entry of SEL, and bit b of CODEWIN word j is code bit
32j + b, or 0 where there is none; no code of a committed table is longer than the window. -/
def Obligations.CodeWindowShowsTheWholeCode : Prop :=
  (∀ s : State, (s.memRead 0x038).1.1 = BitVec.ofNat 32 (s.eng.freqOf s.sel)
    ∧ (s.memRead 0x03C).1.1 = BitVec.ofNat 32 ((s.eng.codeOf s.sel).getD []).length)
  ∧ (∀ (s : State) (j b : Nat), j < s.cfg.codeWords → b < 32 →
      (s.memRead (BitVec.ofNat 22 (0x010000 + 4 * j))).1.1.getLsbD b
        = ((s.eng.codeOf s.sel).getD []).getD (32 * j + b) false)
  ∧ ∀ (s : State) (p : Bits), s.eng.Ok s.cfg → s.eng.codeOf s.sel = some p →
      p.length ≤ 32 * s.cfg.codeWords

/-- R122 (43_inspect.md §1): what the inspection registers and the code window read is a function of ENG, SEL and NODESEL
(and the configuration): two states that agree on these read alike, whatever else differs, fsm among it. -/
def Obligations.InspectionReadsDependOnEngineAndSelectors : Prop :=
  ∀ (s t : State) (a : Addr), s.cfg = t.cfg → s.eng = t.eng → s.sel = t.sel → s.nodesel = t.nodesel →
    (a ∈ ([0x028, 0x02C, 0x030, 0x038, 0x03C, 0x044, 0x048, 0x04C, 0x050] : List Addr)
      ∨ (0x010000 ≤ a.toNat ∧ a.toNat < 0x100000)) →
    (s.memRead a).1 = (t.memRead a).1

/-- R131: the host procedure yields exactly the entries of the committed tables, in ascending order of symbol, NSYM of them,
with counts that sum to TOTAL, and nothing when BUILT = 0; from every state whose ENG is Uninitialized or a committed tree, IDLE
or BUSY. -/
def Obligations.TableEnumerationYieldsTheTables : Prop :=
  ∀ s : State, s.eng.Ok s.cfg →
    s.readTables = s.eng.freq.map (fun x => (x.1.toNat, x.2, (s.eng.codeOf x.1).getD []))
    ∧ (s.readTables.map Prod.fst).Pairwise (· < ·)
    ∧ s.readTables.length = s.eng.k ∧ (s.readTables.map fun x => x.2.1).sum = s.eng.total
    ∧ (s.eng.built = false → s.readTables = [])

/-- 43_inspect.md §4 (R132): `tree()` renders the committed tree to its end: its leaves are the counted symbols with their
counts, each once; every Internal node weighs what its two branches do, and the root TOTAL; for k ≥ 2 the path of each symbol is its
code, and for k = 1 the tree is the Leaf of the one symbol. When not BUILT it is "no tree". -/
def Obligations.TreeRenderingShowsTheCodePaths : Prop :=
  (∀ s : State, s.eng.Ok s.cfg → s.eng.built = true → ∃ r, s.readTree = some r ∧ r.weight = s.eng.total
    ∧ r.sums = true ∧ r.leaves.Perm (s.eng.freq.map fun x => (x.1.toNat, x.2))
    ∧ (2 ≤ s.eng.k → ∀ (y : Sym) (p : Bits), (y.toNat, p) ∈ r.paths ↔ s.eng.codeOf y = some p)
    ∧ (s.eng.k = 1 → ∃ y w, s.eng.freq = [(y, w)] ∧ r = .leaf y.toNat w))
  ∧ ∀ s : State, s.eng.built = false → s.readTree = none

/-! ### BUILD -/

/-- R97, R136, R141: a BUILD with LEN above MAX_LEN, or with LEN = 0, completes with its error and leaves ENG and the
buffers as they were. -/
def Obligations.BuildRejectsEmptyAndLongText : Prop :=
  ∀ s : State,
    (s.cfg.maxLen < s.len.toNat → exec .build s = .next { s with
      fsm := .idle, done := true, err := .lenRange, errpos := 0, outlen := 0 })
    ∧ (s.len.toNat = 0 → exec .build s = .next { s with
      fsm := .idle, done := true, err := .emptyInput, errpos := 0, outlen := 0 })

/-- R98, and the frame of BUILD (R87, R96): a BUILD of 1 to MAX_LEN symbols completes without an error and changes only ENG,
the record, DONE and BUSY: no byte of the buffers. Its frequency table counts the text: freq(y) is the number of occurrences of
y, the counts sum to n = TOTAL, k = NSYM is the number of distinct symbols, and OUTLEN = 2k - 1. -/
def Obligations.BuildCommitsTheFrequenciesOfTheText : Prop :=
  ∀ s : State, 1 ≤ s.len.toNat → s.len.toNat ≤ s.cfg.maxLen →
    ∃ e : Eng, exec .build s = .next { s.completedWith .none 0 (2 * e.k - 1) with eng := e }
      ∧ e.built = true ∧ e.total = s.len.toNat
      ∧ (∀ y, e.freqOf y = (s.text s.cfg s.len.toNat).count y)
      ∧ (e.freq.map Prod.snd).sum = s.len.toNat
      ∧ e.k = (s.text s.cfg s.len.toNat).dedup.length
      ∧ (({ s with eng := e } : State).memRead 0x028).1.1.toNat = (s.text s.cfg s.len.toNat).dedup.length
      ∧ (({ s with eng := e } : State).memRead 0x02C).1.1.toNat = s.len.toNat
      ∧ e.nodes.length = 2 * e.k - 1 ∧ e.root = 2 * e.k - 2

/-- R99: after a successful BUILD a symbol has a code exactly when it has a count; every code is non-empty, at most k - 1 bits for
k ≥ 2 and 1 bit for k = 1, and fits in CODE_MAX bits; no two symbols have the same code, and no code is a prefix of another's; and when
k ≥ 2 the sum over the coded symbols of 2^(-length of the code) is exactly 1, here times 2^(k-1), which no code length passes. -/
def Obligations.CodesArePrefixFree : Prop :=
  ∀ s t : State, 1 ≤ s.len.toNat → s.len.toNat ≤ s.cfg.maxLen → exec .build s = .next t →
    (∀ y, t.eng.codeOf y ≠ none ↔ 0 < t.eng.freqOf y)
    ∧ (∀ y p, t.eng.codeOf y = some p → p ≠ [] ∧ (t.eng.k = 1 → p.length = 1)
        ∧ (2 ≤ t.eng.k → p.length ≤ t.eng.k - 1) ∧ p.length ≤ s.cfg.codeMax)
    ∧ (∀ y z p q, y ≠ z → t.eng.codeOf y = some p → t.eng.codeOf z = some q → p ≠ q ∧ ¬ p <+: q)
    ∧ (2 ≤ t.eng.k → (t.eng.code.map fun x => 2 ^ (t.eng.k - 1 - x.2.length)).sum = 2 ^ (t.eng.k - 1))

/-- R94: with k ≥ 2 the code of a symbol is its root-to-leaf path: p is the code of y exactly when the branches that p names
lead from the root to the Leaf of y. -/
def Obligations.CodesAreRootToLeafPaths : Prop :=
  ∀ s t : State, 1 ≤ s.len.toNat → s.len.toNat ≤ s.cfg.maxLen → exec .build s = .next t → 2 ≤ t.eng.k →
    ∀ (y : Sym) (p : Bits), t.eng.codeOf y = some p ↔ (t.eng.descend t.eng.root p).bind t.eng.leafAt = some y

/-- R93, R95: one distinct symbol: no merge, the Leaf is the root at index 0, and its code is [0]. -/
def Obligations.SingleSymbolTextIsOneLeaf : Prop :=
  ∀ (s : State) (y : Sym) (n : Nat), 1 ≤ n → n ≤ s.cfg.maxLen → s.len.toNat = n → s.text s.cfg n = List.replicate n y →
    exec .build s = .next { s.completedWith .none 0 1 with
      eng := { built := true, k := 1, total := n, root := 0, freq := [(y, n)], code := [(y, [false])],
               nodes := [.leaf y n] } }

/-- R90, R91 (40_build.md §3): the merges remove nodes in strictly rising order of (weight, insertion sequence number), the
zero-branch of each Internal node before its one-branch: the children, listed by parent, rise in that order. -/
def Obligations.MergesRemoveNodesInKeyOrder : Prop :=
  ∀ s t : State, 1 ≤ s.len.toNat → s.len.toNat ≤ s.cfg.maxLen → exec .build s = .next t →
    t.eng.children.Pairwise fun i j =>
      t.eng.weightAt i < t.eng.weightAt j ∨ (t.eng.weightAt i = t.eng.weightAt j ∧ i < j)

/-- R100: the committed ENG is a function of the frequency table: two BUILDs of texts in which every symbol occurs equally often
commit equal ENG values. -/
def Obligations.BuildDependsOnFrequenciesOnly : Prop :=
  ∀ s s' t t' : State, 1 ≤ s.len.toNat → s.len.toNat ≤ s.cfg.maxLen →
    1 ≤ s'.len.toNat → s'.len.toNat ≤ s'.cfg.maxLen →
    (∀ y, (s.text s.cfg s.len.toNat).count y = (s'.text s'.cfg s'.len.toNat).count y) →
    exec .build s = .next t → exec .build s' = .next t' → t.eng = t'.eng

/-! ### Errors that come before any element -/

/-- R140: an ENCODE or DECODE while Uninitialized completes with UNINITIALIZED_TREE, whatever LEN holds, and changes nothing
else. -/
def Obligations.UninitializedTreeIsCheckedFirst : Prop :=
  ∀ (s : State) (i : Instr), i = .encodeP ∨ i = .encodeC ∨ i = .decodeP ∨ i = .decodeC → s.eng.built = false →
    exec i s = .next { s with
      fsm := .idle, done := true, err := .uninitializedTree, errpos := 0, outlen := 0 }

/-- R141: LEN above the input capacity: MAX_LEN, or MAX_BITS for DECODE.P. -/
def Obligations.LengthAboveCapacityIsLenRange : Prop :=
  ∀ (s : State) (i : Instr),
    (i = .build ∧ s.cfg.maxLen < s.len.toNat)
    ∨ ((i = .encodeP ∨ i = .encodeC ∨ i = .decodeC) ∧ s.eng.built = true ∧ s.cfg.maxLen < s.len.toNat)
    ∨ (i = .decodeP ∧ s.eng.built = true ∧ s.cfg.maxBits < s.len.toNat) →
    exec i s = .next { s with fsm := .idle, done := true, err := .lenRange, errpos := 0, outlen := 0 }

/-- R133 (60_exceptions.md §1): the errors each command can report; none of them reports BAD_CMD. -/
def Obligations.ErrorsOfEachCommand : Prop :=
  ∀ s t : State,
    (exec .build s = .next t → t.err ∈ ([.none, .emptyInput, .lenRange] : List ErrCode))
    ∧ (exec .encodeP s = .next t ∨ exec .encodeC s = .next t →
        t.err ∈ ([.none, .uninitializedTree, .lenRange, .unknownSymbol, .outOverflow] : List ErrCode))
    ∧ (exec .decodeP s = .next t →
        t.err ∈ ([.none, .uninitializedTree, .lenRange, .outOverflow, .malformedBitstream] : List ErrCode))
    ∧ (exec .decodeC s = .next t →
        t.err ∈ ([.none, .uninitializedTree, .lenRange, .outOverflow, .malformedBitstream, .invalidBit] :
          List ErrCode))

/-! ### ENCODE -/

/-- R107, R108, R109: ENCODE.P and ENCODE.C of a text whose symbols all have codes and whose stream fits: it completes without an
error, OUTLEN is the sum of the code lengths, the output is the concatenation of the codes (packed with zero padding, or as
characters), no byte outside it changes and no other state. -/
def Obligations.EncodeWritesTheConcatenatedCodes : Prop :=
  ∀ (s : State) (fmt : Fmt) (cs : List Bits), s.eng.built = true → s.len.toNat ≤ s.cfg.maxLen →
    (s.text s.cfg s.len.toNat).map s.eng.codeOf = cs.map some → cs.flatten.length ≤ fmt.outCap s.cfg →
    ∃ t : State, exec fmt.encoder s = .next t
      ∧ t = { s.completedWith .none 0 cs.flatten.length with mem := t.mem }
      ∧ t.HoldsOutput s.cfg fmt cs.flatten
      ∧ Block.SameOutside fmt.outBase (fmt.outBytes cs.flatten.length) s.toBlock t.toBlock

/-- R105: the first symbol without a code, at index i: UNKNOWN_SYMBOL(i), OUTLEN counts the bits of the symbols before it,
which are written, and nothing else changes. For ENCODE.P and ENCODE.C. -/
def Obligations.EncodeStopsAtAnUnknownSymbol : Prop :=
  ∀ (s : State) (fmt : Fmt) (i : Nat) (cs : List Bits), s.eng.built = true → s.len.toNat ≤ s.cfg.maxLen →
    i < s.len.toNat → (s.text s.cfg i).map s.eng.codeOf = cs.map some → cs.flatten.length ≤ fmt.outCap s.cfg →
    s.eng.codeOf (s.txtIn s.cfg i) = none →
    ∃ t : State, exec fmt.encoder s = .next t
      ∧ t = { s.completedWith .unknownSymbol i cs.flatten.length with mem := t.mem }
      ∧ t.HoldsOutput s.cfg fmt cs.flatten
      ∧ Block.SameOutside fmt.outBase (fmt.outBytes cs.flatten.length) s.toBlock t.toBlock

/-- R106: the first symbol whose code does not fit, at index i: OUT_OVERFLOW(i), OUTLEN counts the bits of the symbols before it,
which are written; no bit of symbol i is. For ENCODE.P (MAX_BITS) and ENCODE.C (MAX_LEN). -/
def Obligations.EncodeStopsAtAnOverflow : Prop :=
  ∀ (s : State) (fmt : Fmt) (i : Nat) (cs : List Bits) (c : Bits), s.eng.built = true →
    s.len.toNat ≤ s.cfg.maxLen → i < s.len.toNat → (s.text s.cfg i).map s.eng.codeOf = cs.map some →
    cs.flatten.length ≤ fmt.outCap s.cfg → s.eng.codeOf (s.txtIn s.cfg i) = some c →
    fmt.outCap s.cfg < cs.flatten.length + c.length →
    ∃ t : State, exec fmt.encoder s = .next t
      ∧ t = { s.completedWith .outOverflow i cs.flatten.length with mem := t.mem }
      ∧ t.HoldsOutput s.cfg fmt cs.flatten
      ∧ Block.SameOutside fmt.outBase (fmt.outBytes cs.flatten.length) s.toBlock t.toBlock

/-- R110: the frame of ENCODE.P and ENCODE.C, on every path: only the record, DONE, BUSY and the first OUTLEN bits' worth of the
output buffer that FMT selects can change; TXT_IN and ENG do not, and OUTLEN never passes the buffer. UNINITIALIZED_TREE and
LEN_RANGE write no output and leave OUTLEN = 0. -/
def Obligations.EncodeFrame : Prop :=
  ∀ (s t : State) (fmt : Fmt), exec fmt.encoder s = .next t →
    t = { s with fsm := .idle, done := true, err := t.err, errpos := t.errpos, outlen := t.outlen, mem := t.mem }
    ∧ t.outlen.toNat ≤ fmt.outCap s.cfg
    ∧ Block.SameOutside fmt.outBase (fmt.outBytes t.outlen.toNat) s.toBlock t.toBlock
    ∧ (∀ i, i < s.cfg.maxLen → t.txtIn t.cfg i = s.txtIn s.cfg i)
    ∧ (t.err = .uninitializedTree ∨ t.err = .lenRange → t.mem = s.mem ∧ t.outlen = 0)

/-- R102 (41_encode.md §1): ENCODE uses the code table only, neither the tree nor the frequency table: two states that agree on the
configuration, LEN, BUILT, the code table and the text give the same record and the same output. -/
def Obligations.EncodeReadsOnlyTheCodeTable : Prop :=
  ∀ (s s' t t' : State) (fmt : Fmt), s.cfg = s'.cfg → s.len = s'.len → s.eng.built = s'.eng.built →
    (∀ y, s.eng.codeOf y = s'.eng.codeOf y) → (∀ i, i < s.len.toNat → s.txtIn s.cfg i = s'.txtIn s'.cfg i) →
    exec fmt.encoder s = .next t → exec fmt.encoder s' = .next t' →
    t.err = t'.err ∧ t.errpos = t'.errpos ∧ t.outlen = t'.outlen
    ∧ ∀ a, fmt.outBase ≤ a → a < fmt.outBase + fmt.outBytes t.outlen.toNat → t.readByte a = t'.readByte a

/-! ### DECODE -/

/-- R111 to R115 (42_decode.md §1, §3), and the completion of DECODE.P and DECODE.C: a stream that is the concatenation of the
codes of a text that fits decodes to that text, for k = 1 and for k ≥ 2; no byte outside the decoded text changes and no other
state. -/
def Obligations.DecodeReturnsTheEncodedText : Prop :=
  ∀ (s : State) (fmt : Fmt) (ys : List Sym) (cs : List Bits), s.eng.Ok s.cfg → s.eng.built = true →
    ys.map s.eng.codeOf = cs.map some → ys.length ≤ s.cfg.maxLen →
    s.len.toNat = cs.flatten.length → s.len.toNat ≤ fmt.inCap s.cfg → s.InputIs s.cfg fmt cs.flatten →
    ∃ t : State, exec fmt.decoder s = .next t
      ∧ t = { s.completedWith .none 0 ys.length with mem := t.mem }
      ∧ t.HoldsText s.cfg ys ∧ Block.SameOutside txtOutBase (4 * ys.length) s.toBlock t.toBlock

/-- R117, R139: a stream that ends in the middle of a code: MALFORMED_BITSTREAM at the first bit of the unfinished code, and the
symbols before it are written. For DECODE.P and DECODE.C. -/
def Obligations.DecodeOfAStreamEndingMidCode : Prop :=
  ∀ (s : State) (fmt : Fmt) (ys : List Sym) (cs : List Bits) (z : Sym) (p q : Bits), s.eng.Ok s.cfg →
    s.eng.built = true → ys.map s.eng.codeOf = cs.map some → ys.length ≤ s.cfg.maxLen →
    s.eng.codeOf z = some (p ++ q) → p ≠ [] → q ≠ [] →
    s.len.toNat = (cs.flatten ++ p).length → s.len.toNat ≤ fmt.inCap s.cfg → s.InputIs s.cfg fmt (cs.flatten ++ p) →
    ∃ t : State, exec fmt.decoder s = .next t
      ∧ t = { s.completedWith .malformedBitstream cs.flatten.length ys.length with mem := t.mem }
      ∧ t.HoldsText s.cfg ys ∧ Block.SameOutside txtOutBase (4 * ys.length) s.toBlock t.toBlock

/-- R118, R142 (42_decode.md §3): DECODE.P of a stream whose first MAX_LEN codes are followed by another whole code:
OUT_OVERFLOW at the first bit of that code, OUTLEN = MAX_LEN, and the MAX_LEN symbols are written. Whatever follows is not read. -/
def Obligations.DecodeStopsAtAFullTextBuffer : Prop :=
  ∀ (s : State) (ys : List Sym) (cs : List Bits) (z : Sym) (c rest : Bits), s.eng.Ok s.cfg →
    s.eng.built = true → ys.map s.eng.codeOf = cs.map some → ys.length = s.cfg.maxLen →
    s.eng.codeOf z = some c → s.len.toNat = (cs.flatten ++ c ++ rest).length →
    s.len.toNat ≤ s.cfg.maxBits → s.InputIs s.cfg .packed (cs.flatten ++ c ++ rest) →
    ∃ t : State, exec .decodeP s = .next t
      ∧ t = { s.completedWith .outOverflow cs.flatten.length ys.length with mem := t.mem }
      ∧ t.HoldsText s.cfg ys ∧ Block.SameOutside txtOutBase (4 * ys.length) s.toBlock t.toBlock

/-- R138: DECODE.C stops at the first symbol i that is neither CH0 nor CH1: INVALID_BIT(i), and its output is that of the i
elements before it, decoded alone. DECODE.P never raises INVALID_BIT. -/
def Obligations.DecodeStopsAtAnInvalidCharacter : Prop :=
  (∀ (s : State) (i : Nat), s.eng.built = true → s.len.toNat ≤ s.cfg.maxLen → i < s.len.toNat →
    (∀ j, j < i → s.txtIn s.cfg j = 0x30 ∨ s.txtIn s.cfg j = 0x31) → s.txtIn s.cfg i ≠ 0x30 → s.txtIn s.cfg i ≠ 0x31 →
    ∃ t u : State, exec .decodeC s = .next t ∧ exec .decodeC { s with len := BitVec.ofNat 32 i } = .next u
      ∧ t.err = .invalidBit ∧ t.errpos.toNat = i ∧ t.outlen = u.outlen ∧ t.mem = u.mem)
  ∧ ∀ s t : State, exec .decodeP s = .next t → t.err ≠ .invalidBit

/-- 42_decode.md §3 (R116, and R118 for such a tree): while the root is a single Leaf of symbol y, every bit, 0 or 1, emits y, and a
stream never ends mid-code; of a stream of more than MAX_LEN bits MAX_LEN are emitted, and the next is OUT_OVERFLOW at its own index.
For DECODE.P and, when every character is CH0 or CH1, DECODE.C. -/
def Obligations.SingleLeafDecodesEveryBit : Prop :=
  ∀ (s : State) (fmt : Fmt) (bs : Bits) (y : Sym) (w : Nat), s.eng.built = true →
    s.eng.nodes[s.eng.root]? = some (.leaf y w) → y.toNat < s.cfg.nsymMax →
    s.len.toNat = bs.length → s.len.toNat ≤ fmt.inCap s.cfg → s.InputIs s.cfg fmt bs →
    ∃ t : State, exec fmt.decoder s = .next t
      ∧ (s.len.toNat ≤ s.cfg.maxLen → t = { s.completedWith .none 0 bs.length with mem := t.mem }
          ∧ t.HoldsText s.cfg (List.replicate bs.length y)
          ∧ Block.SameOutside txtOutBase (4 * bs.length) s.toBlock t.toBlock)
      ∧ (s.cfg.maxLen < s.len.toNat → t = { s.completedWith .outOverflow s.cfg.maxLen s.cfg.maxLen with mem := t.mem }
          ∧ t.HoldsText s.cfg (List.replicate s.cfg.maxLen y)
          ∧ Block.SameOutside txtOutBase (4 * s.cfg.maxLen) s.toBlock t.toBlock)

/-- R121: the frame of DECODE.P and DECODE.C, on every path: only the record, DONE, BUSY and the first OUTLEN entries of TXT_OUT can
change; ENG, TXT_IN and BIT do not, and OUTLEN never passes MAX_LEN. -/
def Obligations.DecodeFrame : Prop :=
  ∀ (s t : State) (fmt : Fmt), exec fmt.decoder s = .next t →
    t = { s with fsm := .idle, done := true, err := t.err, errpos := t.errpos, outlen := t.outlen, mem := t.mem }
    ∧ t.outlen.toNat ≤ s.cfg.maxLen
    ∧ Block.SameOutside txtOutBase (4 * t.outlen.toNat) s.toBlock t.toBlock
    ∧ (∀ i, i < s.cfg.maxLen → t.txtIn t.cfg i = s.txtIn s.cfg i) ∧ ∀ i, i < s.cfg.maxBits → t.bit i = s.bit i

/-- R121 (42_decode.md §4): with k = 2 every stream of valid bits within capacity decodes, one symbol a bit. For DECODE.P and
DECODE.C. -/
def Obligations.TwoSymbolStreamsAlwaysDecode : Prop :=
  ∀ (s : State) (fmt : Fmt) (bs : Bits), s.eng.Ok s.cfg → s.eng.built = true → s.eng.k = 2 →
    s.len.toNat = bs.length → s.len.toNat ≤ fmt.inCap s.cfg → s.len.toNat ≤ s.cfg.maxLen → s.InputIs s.cfg fmt bs →
    ∃ t : State, exec fmt.decoder s = .next t ∧ t.err = .none ∧ t.errpos = 0 ∧ t.outlen = s.len

/-- R111 (42_decode.md §1): DECODE uses the tree only, neither the code table nor the frequency table: two states that agree on the
configuration, LEN, BUILT, the nodes, the root and the input elements give the same record and the same text. -/
def Obligations.DecodeReadsOnlyTheTree : Prop :=
  ∀ (s s' t t' : State) (fmt : Fmt), s.cfg = s'.cfg → s.len = s'.len → s.eng.built = s'.eng.built →
    s.eng.nodes = s'.eng.nodes → s.eng.root = s'.eng.root →
    (∀ i, i < s.len.toNat → s.readBit s.cfg fmt i = s'.readBit s'.cfg fmt i) →
    exec fmt.decoder s = .next t → exec fmt.decoder s' = .next t' →
    t.err = t'.err ∧ t.errpos = t'.errpos ∧ t.outlen = t'.outlen
    ∧ ∀ j, j < t.outlen.toNat → t.txtOut t.cfg j = t'.txtOut t'.cfg j

/-! ### Round trips -/

/-- R120, packed: BUILD, ENCODE.P and DECODE.P, each accepted in turn, of a text of 1 to MAX_LEN symbols in TXT_IN: the ENCODE.P
succeeds with OUTLEN = m when the m bits fit, and the DECODE.P with LEN = m then writes the text to TXT_OUT. -/
def Obligations.PackedRoundTrip : Prop :=
  ∀ s : State, 1 ≤ s.len.toNat → s.len.toNat ≤ s.cfg.maxLen →
    ∃ s1 : State, exec .build (s.accept 0x00000001) = .next s1 ∧ s1.err = .none
      ∧ (((s.text s.cfg s.len.toNat).map fun y => ((s1.eng.codeOf y).getD []).length).sum ≤ s.cfg.maxBits →
        ∃ s2 s3 : State, exec .encodeP (s1.accept 0x00000002) = .next s2 ∧ s2.err = .none
          ∧ s2.outlen.toNat = ((s.text s.cfg s.len.toNat).map fun y => ((s1.eng.codeOf y).getD []).length).sum
          ∧ exec .decodeP (({ s2 with len := s2.outlen } : State).accept 0x00000003) = .next s3 ∧ s3.err = .none
          ∧ s3.outlen = s.len ∧ ∀ i, i < s.len.toNat → s3.txtOut s3.cfg i = s.txtIn s.cfg i)

/-- R120, characters: the same with ENCODE.C and DECODE.C, where TXT_IN is loaded with the characters of TXT_OUT in between: `u` is
any state that agrees with the state after ENCODE.C on the configuration and ENG, with LEN = m and TXT_IN[0 .. m-1] so
loaded. -/
def Obligations.CharacterRoundTrip : Prop :=
  ∀ s : State, 1 ≤ s.len.toNat → s.len.toNat ≤ s.cfg.maxLen →
    ∃ s1 : State, exec .build (s.accept 0x00000001) = .next s1 ∧ s1.err = .none
      ∧ (((s.text s.cfg s.len.toNat).map fun y => ((s1.eng.codeOf y).getD []).length).sum ≤ s.cfg.maxLen →
        ∃ s2 : State, exec .encodeC (s1.accept 0x00000012) = .next s2 ∧ s2.err = .none
          ∧ ∀ u : State, u.cfg = s2.cfg → u.eng = s2.eng → u.len = s2.outlen →
            (∀ j, j < s2.outlen.toNat → u.txtIn u.cfg j = s2.txtOut s2.cfg j) →
            ∃ s3 : State, exec .decodeC (u.accept 0x00000013) = .next s3 ∧ s3.err = .none
              ∧ s3.outlen = s.len ∧ ∀ i, i < s.len.toNat → s3.txtOut s3.cfg i = s.txtIn s.cfg i)

/-! ### The whole machine -/

/-- R146, R49: irq is DONE and IE; every completion, of a BAD word too, raises it when IE = 1; writing 1 to DONE, writing IE = 0,
accepting a command and reset each drop it; setting IE while DONE = 1 raises it at once. -/
def Obligations.InterruptFollowsDoneAndEnable : Prop :=
  (∀ s : State, s.irq = true ↔ s.done = true ∧ s.ie = true)
  ∧ (∀ (s t : State) (i : Instr), exec i s = .next t ∨ execBad s = .next t → t.done = true ∧ t.irq = s.ie)
  ∧ (∀ (s : State) (v : Word), v.getLsbD 1 = true → (s.memWrite 0x014 v).2.irq = false)
  ∧ (∀ (s : State) (v : Word), v.getLsbD 0 = false → (s.memWrite 0x010 v).2.irq = false)
  ∧ (∀ (s : State) (v : Word), s.fsm = .idle → (s.memWrite 0x018 v).2.irq = false)
  ∧ (∀ (s : State) (v : Word), s.done = true → v.getLsbD 0 = true → (s.memWrite 0x010 v).2.irq = true)
  ∧ ∀ s : State, s.resetEvent.irq = false

/-- R23: whatever step is taken, ENG changes only at the completion of a successful BUILD, which replaces all of it by a value
computed from the text alone, or by reset. -/
def Obligations.OnlyASuccessfulBuildChangesEngine : Prop :=
  ∀ s t : State, step s = .next t → t.eng ≠ s.eng →
    (∃ ts, s.nextTurn = some (.reset, ts))
    ∨ ∃ ts, s.nextTurn = some (.engine, ts) ∧ s.pend = 0x00000001 ∧ 1 ≤ s.len.toNat ∧ s.len.toNat ≤ s.cfg.maxLen
        ∧ t.err = .none ∧ t.eng = buildEng (s.text s.cfg s.len.toNat)

/-- R67, R161 (20_memory.md §4, 70_reset_and_hazards.md §2): while BUSY no host step touches PEND, fsm, ENG, LEN, the buffers, the
record or the configuration; what it can change is CTRL.IE, DONE, OVR, SEL, NODESEL and the host's own data. -/
def Obligations.HostCannotDisturbARunningCommand : Prop :=
  ∀ s : State, s.fsm = .busy → let t := s.hostStep
    t = { s with
      ie := t.ie, done := t.done, ovr := t.ovr, sel := t.sel, nodesel := t.nodesel, draws := t.draws,
      script := t.script, log := t.log }
    ∧ (s.done = false → t.done = false)

/-- 10_state.md §2 (R19, R52, R161): a command's whole effect is one on the block's state, a function of that state at acceptance and
of the configuration, and leaves all that stands around the block (the split into `Block` and `World` is the model's own, logs 1 and 8);
and any number of host steps while BUSY leaves the ENG, the
buffers and the completion record that it ends with as they would have been at once. -/
def Obligations.CompletionIgnoresTheHostWhileBusy : Prop :=
  (∀ (i : Instr) (s t : State), exec i s = .next t → t.toWorld = s.toWorld
    ∧ ∀ s' t' : State, s'.toBlock = s.toBlock → s'.cfg = s.cfg → exec i s' = .next t' → t'.toBlock = t.toBlock)
  ∧ ∀ (s t u : State) (n : Nat), s.fsm = .busy → engineStep s = .next t →
    engineStep (State.hostStep^[n] s) = .next u →
    u.eng = t.eng ∧ u.mem = t.mem ∧ u.err = t.err ∧ u.errpos = t.errpos ∧ u.outlen = t.outlen
    ∧ u.fsm = t.fsm ∧ u.done = t.done ∧ u.len = t.len ∧ u.epoch = t.epoch

/-- R148 (60_exceptions.md §5): OVR is sticky: whatever step is taken, it is cleared only by reset or by a host write to STATUS with
bit 3 set. -/
def Obligations.OverrunIsSticky : Prop :=
  ∀ s t : State, step s = .next t → s.ovr = true → t.ovr = false →
    (∃ ts, s.nextTurn = some (.reset, ts))
    ∨ ∃ ts v rest, s.nextTurn = some (.host, ts) ∧ v.getLsbD 3 = true
        ∧ (s.script = .issue (.write 0x014 v) :: rest
          ∨ ∃ b : BusAccess, s.script = .bus b :: rest ∧ b.port? s.cfg = some (.write 0x014 v) ∧ b.bytes = 4)

/-- 20_memory.md §1, §2 (R55, R56) and X7 of 93_implementation_defined.md; that the model has a bridge, and its window, is the
model's choice (log 14). System address HC_BASE + n reaches port address n; an access that is not one full aligned word answers
ERROR with no effect, a word of 4 bytes does what the host's own access to port address n does, and an address outside the window
reaches nothing. -/
def Obligations.BridgePassesWholeWordsOnly : Prop :=
  (∀ (s : State) (b : BusAccess) (rest : List HostOp) (n : Nat), s.script = .bus b :: rest →
    b.addr = s.cfg.hcBase + n → n < 2 ^ 22 →
    let acc : Access := match b.data with
      | none => .read (BitVec.ofNat 22 n)
      | some v => .write (BitVec.ofNat 22 n) v
    (b.bytes ≠ 4 ∨ n % 4 ≠ 0 → s.hostStep = { s with script := rest, log := ⟨acc, 0, .error, none⟩ :: s.log })
    ∧ (b.bytes = 4 → s.hostStep = ({ s with script := .issue acc :: rest } : State).hostStep))
  ∧ ∀ (s : State) (b : BusAccess) (rest : List HostOp), s.script = .bus b :: rest →
      b.addr < s.cfg.hcBase ∨ s.cfg.hcBase + 2 ^ 22 ≤ b.addr → s.hostStep = { s with script := rest }

/-- R85 (30_encoding.md §5): the accesses of `TEXT "s"`, issued while IDLE, load the codes of the characters into TXT_IN from index 0
and their number into LEN, and change no other byte. That a character has its ASCII code is R84's general knowledge (log 16). -/
def Obligations.TextStatementLoadsTheInput : Prop :=
  ∀ (s : State) (cs : List Char) (rest : List HostOp), s.fsm = .idle → cs.length ≤ s.cfg.maxLen →
    s.script = (Stmt.text cs).expand ++ rest → let t := State.hostStep^[cs.length + 1] s
    t.script = rest ∧ t.len.toNat = cs.length
    ∧ (∀ i, i < cs.length → (t.txtIn t.cfg i).toNat = (cs.getD i ' ').toNat % 2 ^ s.cfg.symW)
    ∧ Block.SameOutside txtInBase (4 * cs.length) s.toBlock t.toBlock
    ∧ t = { s with mem := t.mem, len := t.len, script := t.script, log := t.log }

/-! ### Invariants -/

/-- R22: every step keeps ENG Uninitialized or a committed tree with the invariants of R22: 2k - 1 nodes, leaves first and ascending,
children below their parents, every index but the root's a child exactly once, weights that add up, codes exactly for the counted
symbols, non-empty, at most CODE_MAX long. -/
def Obligations.EveryStepKeepsTheTreeInvariants : Prop :=
  ∀ s t : State, s.eng.Ok s.cfg → step s = .next t → t.eng.Ok t.cfg

/-- 20_memory.md §4 (R69, R74): every step keeps the buffers' memory in canonical form and inside the implemented buffers, and no step
changes the configuration (R52). The form is the model's own way to hold the buffers (logs 2, 3). -/
def Obligations.EveryStepKeepsMemoryCanonical : Prop :=
  ∀ s t : State, step s = .next t → t.cfg = s.cfg ∧ (s.MemOk → t.MemOk)

/-- R34 (10_state.md §5), R44, R45: every step keeps SEL and NODESEL within their widths, and the record of a pending command as
acceptance left it; so BUSY and DONE are never both 1. -/
def Obligations.EveryStepKeepsSelectorsAndRecord : Prop :=
  ∀ s t : State, step s = .next t → (s.SelOk → t.SelOk) ∧ (s.RecordOk → t.RecordOk)

/-- 70_reset_and_hazards.md §1 (R154): the invariants hold after reset, in every configuration. -/
def Obligations.InvariantsHoldAfterReset : Prop :=
  State.reset.Inv ∧ ∀ c : Config, (State.initial c).Inv
end

