-- ==== Sys2Proof/Laws/State.lean ====
section
/-! SUPPORT. What each named update does to each field: of the block's state, one lemma per field; of what stands around it,
one lemma for the block and one per field. Each is by rfl. -/

namespace Sys2Proof.Machine

namespace Block

@[simp] theorem succeed_mem (n : Nat) (s : Block) : (s.succeed n).mem = s.mem := rfl
@[simp] theorem succeed_epoch (n : Nat) (s : Block) : (s.succeed n).epoch = s.epoch := rfl
@[simp] theorem succeed_fsm (n : Nat) (s : Block) : (s.succeed n).fsm = s.fsm := rfl
@[simp] theorem succeed_pend (n : Nat) (s : Block) : (s.succeed n).pend = s.pend := rfl
@[simp] theorem succeed_eng (n : Nat) (s : Block) : (s.succeed n).eng = s.eng := rfl
@[simp] theorem succeed_ie (n : Nat) (s : Block) : (s.succeed n).ie = s.ie := rfl
@[simp] theorem succeed_done (n : Nat) (s : Block) : (s.succeed n).done = s.done := rfl
@[simp] theorem succeed_ovr (n : Nat) (s : Block) : (s.succeed n).ovr = s.ovr := rfl
@[simp] theorem succeed_err (n : Nat) (s : Block) : (s.succeed n).err = .none := rfl
@[simp] theorem succeed_len (n : Nat) (s : Block) : (s.succeed n).len = s.len := rfl
@[simp] theorem succeed_outlen (n : Nat) (s : Block) : (s.succeed n).outlen = BitVec.ofNat 32 n := rfl
@[simp] theorem succeed_errpos (n : Nat) (s : Block) : (s.succeed n).errpos = 0 := rfl
@[simp] theorem succeed_sel (n : Nat) (s : Block) : (s.succeed n).sel = s.sel := rfl
@[simp] theorem succeed_nodesel (n : Nat) (s : Block) : (s.succeed n).nodesel = s.nodesel := rfl

@[simp] theorem raise_mem (e : ErrCode) (p : Nat) (s : Block) : (s.raise e p).mem = s.mem := rfl
@[simp] theorem raise_epoch (e : ErrCode) (p : Nat) (s : Block) : (s.raise e p).epoch = s.epoch := rfl
@[simp] theorem raise_fsm (e : ErrCode) (p : Nat) (s : Block) : (s.raise e p).fsm = s.fsm := rfl
@[simp] theorem raise_pend (e : ErrCode) (p : Nat) (s : Block) : (s.raise e p).pend = s.pend := rfl
@[simp] theorem raise_eng (e : ErrCode) (p : Nat) (s : Block) : (s.raise e p).eng = s.eng := rfl
@[simp] theorem raise_ie (e : ErrCode) (p : Nat) (s : Block) : (s.raise e p).ie = s.ie := rfl
@[simp] theorem raise_done (e : ErrCode) (p : Nat) (s : Block) : (s.raise e p).done = s.done := rfl
@[simp] theorem raise_ovr (e : ErrCode) (p : Nat) (s : Block) : (s.raise e p).ovr = s.ovr := rfl
@[simp] theorem raise_err (e : ErrCode) (p : Nat) (s : Block) : (s.raise e p).err = e := rfl
@[simp] theorem raise_len (e : ErrCode) (p : Nat) (s : Block) : (s.raise e p).len = s.len := rfl
@[simp] theorem raise_outlen (e : ErrCode) (p : Nat) (s : Block) : (s.raise e p).outlen = s.outlen := rfl
@[simp] theorem raise_errpos (e : ErrCode) (p : Nat) (s : Block) : (s.raise e p).errpos = BitVec.ofNat 32 p := rfl
@[simp] theorem raise_sel (e : ErrCode) (p : Nat) (s : Block) : (s.raise e p).sel = s.sel := rfl
@[simp] theorem raise_nodesel (e : ErrCode) (p : Nat) (s : Block) : (s.raise e p).nodesel = s.nodesel := rfl

@[simp] theorem setOutlen_mem (n : Nat) (s : Block) : (s.setOutlen n).mem = s.mem := rfl
@[simp] theorem setOutlen_epoch (n : Nat) (s : Block) : (s.setOutlen n).epoch = s.epoch := rfl
@[simp] theorem setOutlen_fsm (n : Nat) (s : Block) : (s.setOutlen n).fsm = s.fsm := rfl
@[simp] theorem setOutlen_pend (n : Nat) (s : Block) : (s.setOutlen n).pend = s.pend := rfl
@[simp] theorem setOutlen_eng (n : Nat) (s : Block) : (s.setOutlen n).eng = s.eng := rfl
@[simp] theorem setOutlen_ie (n : Nat) (s : Block) : (s.setOutlen n).ie = s.ie := rfl
@[simp] theorem setOutlen_done (n : Nat) (s : Block) : (s.setOutlen n).done = s.done := rfl
@[simp] theorem setOutlen_ovr (n : Nat) (s : Block) : (s.setOutlen n).ovr = s.ovr := rfl
@[simp] theorem setOutlen_err (n : Nat) (s : Block) : (s.setOutlen n).err = s.err := rfl
@[simp] theorem setOutlen_len (n : Nat) (s : Block) : (s.setOutlen n).len = s.len := rfl
@[simp] theorem setOutlen_outlen (n : Nat) (s : Block) : (s.setOutlen n).outlen = BitVec.ofNat 32 n := rfl
@[simp] theorem setOutlen_errpos (n : Nat) (s : Block) : (s.setOutlen n).errpos = s.errpos := rfl
@[simp] theorem setOutlen_sel (n : Nat) (s : Block) : (s.setOutlen n).sel = s.sel := rfl
@[simp] theorem setOutlen_nodesel (n : Nat) (s : Block) : (s.setOutlen n).nodesel = s.nodesel := rfl

@[simp] theorem raiseEarly_mem (e : ErrCode) (s : Block) : (s.raiseEarly e).mem = s.mem := rfl
@[simp] theorem raiseEarly_epoch (e : ErrCode) (s : Block) : (s.raiseEarly e).epoch = s.epoch := rfl
@[simp] theorem raiseEarly_fsm (e : ErrCode) (s : Block) : (s.raiseEarly e).fsm = s.fsm := rfl
@[simp] theorem raiseEarly_pend (e : ErrCode) (s : Block) : (s.raiseEarly e).pend = s.pend := rfl
@[simp] theorem raiseEarly_eng (e : ErrCode) (s : Block) : (s.raiseEarly e).eng = s.eng := rfl
@[simp] theorem raiseEarly_ie (e : ErrCode) (s : Block) : (s.raiseEarly e).ie = s.ie := rfl
@[simp] theorem raiseEarly_done (e : ErrCode) (s : Block) : (s.raiseEarly e).done = s.done := rfl
@[simp] theorem raiseEarly_ovr (e : ErrCode) (s : Block) : (s.raiseEarly e).ovr = s.ovr := rfl
@[simp] theorem raiseEarly_err (e : ErrCode) (s : Block) : (s.raiseEarly e).err = e := rfl
@[simp] theorem raiseEarly_len (e : ErrCode) (s : Block) : (s.raiseEarly e).len = s.len := rfl
@[simp] theorem raiseEarly_outlen (e : ErrCode) (s : Block) : (s.raiseEarly e).outlen = 0 := rfl
@[simp] theorem raiseEarly_errpos (e : ErrCode) (s : Block) : (s.raiseEarly e).errpos = 0 := rfl
@[simp] theorem raiseEarly_sel (e : ErrCode) (s : Block) : (s.raiseEarly e).sel = s.sel := rfl
@[simp] theorem raiseEarly_nodesel (e : ErrCode) (s : Block) : (s.raiseEarly e).nodesel = s.nodesel := rfl

@[simp] theorem complete_mem (s : Block) : s.complete.mem = s.mem := rfl
@[simp] theorem complete_epoch (s : Block) : s.complete.epoch = s.epoch := rfl
@[simp] theorem complete_fsm (s : Block) : s.complete.fsm = .idle := rfl
@[simp] theorem complete_pend (s : Block) : s.complete.pend = s.pend := rfl
@[simp] theorem complete_eng (s : Block) : s.complete.eng = s.eng := rfl
@[simp] theorem complete_ie (s : Block) : s.complete.ie = s.ie := rfl
@[simp] theorem complete_done (s : Block) : s.complete.done = true := rfl
@[simp] theorem complete_ovr (s : Block) : s.complete.ovr = s.ovr := rfl
@[simp] theorem complete_err (s : Block) : s.complete.err = s.err := rfl
@[simp] theorem complete_len (s : Block) : s.complete.len = s.len := rfl
@[simp] theorem complete_outlen (s : Block) : s.complete.outlen = s.outlen := rfl
@[simp] theorem complete_errpos (s : Block) : s.complete.errpos = s.errpos := rfl
@[simp] theorem complete_sel (s : Block) : s.complete.sel = s.sel := rfl
@[simp] theorem complete_nodesel (s : Block) : s.complete.nodesel = s.nodesel := rfl

@[simp] theorem accept_mem (v : Word) (s : Block) : (s.accept v).mem = s.mem := rfl
@[simp] theorem accept_epoch (v : Word) (s : Block) : (s.accept v).epoch = s.epoch := rfl
@[simp] theorem accept_fsm (v : Word) (s : Block) : (s.accept v).fsm = .busy := rfl
@[simp] theorem accept_pend (v : Word) (s : Block) : (s.accept v).pend = v := rfl
@[simp] theorem accept_eng (v : Word) (s : Block) : (s.accept v).eng = s.eng := rfl
@[simp] theorem accept_ie (v : Word) (s : Block) : (s.accept v).ie = s.ie := rfl
@[simp] theorem accept_done (v : Word) (s : Block) : (s.accept v).done = false := rfl
@[simp] theorem accept_ovr (v : Word) (s : Block) : (s.accept v).ovr = s.ovr := rfl
@[simp] theorem accept_err (v : Word) (s : Block) : (s.accept v).err = .none := rfl
@[simp] theorem accept_len (v : Word) (s : Block) : (s.accept v).len = s.len := rfl
@[simp] theorem accept_outlen (v : Word) (s : Block) : (s.accept v).outlen = 0 := rfl
@[simp] theorem accept_errpos (v : Word) (s : Block) : (s.accept v).errpos = 0 := rfl
@[simp] theorem accept_sel (v : Word) (s : Block) : (s.accept v).sel = s.sel := rfl
@[simp] theorem accept_nodesel (v : Word) (s : Block) : (s.accept v).nodesel = s.nodesel := rfl

@[simp] theorem overrun_mem (s : Block) : s.overrun.mem = s.mem := rfl
@[simp] theorem overrun_epoch (s : Block) : s.overrun.epoch = s.epoch := rfl
@[simp] theorem overrun_fsm (s : Block) : s.overrun.fsm = s.fsm := rfl
@[simp] theorem overrun_pend (s : Block) : s.overrun.pend = s.pend := rfl
@[simp] theorem overrun_eng (s : Block) : s.overrun.eng = s.eng := rfl
@[simp] theorem overrun_ie (s : Block) : s.overrun.ie = s.ie := rfl
@[simp] theorem overrun_done (s : Block) : s.overrun.done = s.done := rfl
@[simp] theorem overrun_ovr (s : Block) : s.overrun.ovr = true := rfl
@[simp] theorem overrun_err (s : Block) : s.overrun.err = s.err := rfl
@[simp] theorem overrun_len (s : Block) : s.overrun.len = s.len := rfl
@[simp] theorem overrun_outlen (s : Block) : s.overrun.outlen = s.outlen := rfl
@[simp] theorem overrun_errpos (s : Block) : s.overrun.errpos = s.errpos := rfl
@[simp] theorem overrun_sel (s : Block) : s.overrun.sel = s.sel := rfl
@[simp] theorem overrun_nodesel (s : Block) : s.overrun.nodesel = s.nodesel := rfl

@[simp] theorem commit_mem (e : Eng) (s : Block) : (s.commit e).mem = s.mem := rfl
@[simp] theorem commit_epoch (e : Eng) (s : Block) : (s.commit e).epoch = s.epoch := rfl
@[simp] theorem commit_fsm (e : Eng) (s : Block) : (s.commit e).fsm = s.fsm := rfl
@[simp] theorem commit_pend (e : Eng) (s : Block) : (s.commit e).pend = s.pend := rfl
@[simp] theorem commit_eng (e : Eng) (s : Block) : (s.commit e).eng = e := rfl
@[simp] theorem commit_ie (e : Eng) (s : Block) : (s.commit e).ie = s.ie := rfl
@[simp] theorem commit_done (e : Eng) (s : Block) : (s.commit e).done = s.done := rfl
@[simp] theorem commit_ovr (e : Eng) (s : Block) : (s.commit e).ovr = s.ovr := rfl
@[simp] theorem commit_err (e : Eng) (s : Block) : (s.commit e).err = s.err := rfl
@[simp] theorem commit_len (e : Eng) (s : Block) : (s.commit e).len = s.len := rfl
@[simp] theorem commit_outlen (e : Eng) (s : Block) : (s.commit e).outlen = s.outlen := rfl
@[simp] theorem commit_errpos (e : Eng) (s : Block) : (s.commit e).errpos = s.errpos := rfl
@[simp] theorem commit_sel (e : Eng) (s : Block) : (s.commit e).sel = s.sel := rfl
@[simp] theorem commit_nodesel (e : Eng) (s : Block) : (s.commit e).nodesel = s.nodesel := rfl

@[simp] theorem clearStatus_mem (v : Word) (s : Block) : (s.clearStatus v).mem = s.mem := rfl
@[simp] theorem clearStatus_epoch (v : Word) (s : Block) : (s.clearStatus v).epoch = s.epoch := rfl
@[simp] theorem clearStatus_fsm (v : Word) (s : Block) : (s.clearStatus v).fsm = s.fsm := rfl
@[simp] theorem clearStatus_pend (v : Word) (s : Block) : (s.clearStatus v).pend = s.pend := rfl
@[simp] theorem clearStatus_eng (v : Word) (s : Block) : (s.clearStatus v).eng = s.eng := rfl
@[simp] theorem clearStatus_ie (v : Word) (s : Block) : (s.clearStatus v).ie = s.ie := rfl
@[simp] theorem clearStatus_done (v : Word) (s : Block) : (s.clearStatus v).done = (s.done && !v.getLsbD 1) := rfl
@[simp] theorem clearStatus_ovr (v : Word) (s : Block) : (s.clearStatus v).ovr = (s.ovr && !v.getLsbD 3) := rfl
@[simp] theorem clearStatus_err (v : Word) (s : Block) : (s.clearStatus v).err = s.err := rfl
@[simp] theorem clearStatus_len (v : Word) (s : Block) : (s.clearStatus v).len = s.len := rfl
@[simp] theorem clearStatus_outlen (v : Word) (s : Block) : (s.clearStatus v).outlen = s.outlen := rfl
@[simp] theorem clearStatus_errpos (v : Word) (s : Block) : (s.clearStatus v).errpos = s.errpos := rfl
@[simp] theorem clearStatus_sel (v : Word) (s : Block) : (s.clearStatus v).sel = s.sel := rfl
@[simp] theorem clearStatus_nodesel (v : Word) (s : Block) : (s.clearStatus v).nodesel = s.nodesel := rfl

@[simp] theorem setCtrl_mem (v : Word) (s : Block) : (s.setCtrl v).mem = s.mem := rfl
@[simp] theorem setCtrl_epoch (v : Word) (s : Block) : (s.setCtrl v).epoch = s.epoch := rfl
@[simp] theorem setCtrl_fsm (v : Word) (s : Block) : (s.setCtrl v).fsm = s.fsm := rfl
@[simp] theorem setCtrl_pend (v : Word) (s : Block) : (s.setCtrl v).pend = s.pend := rfl
@[simp] theorem setCtrl_eng (v : Word) (s : Block) : (s.setCtrl v).eng = s.eng := rfl
@[simp] theorem setCtrl_ie (v : Word) (s : Block) : (s.setCtrl v).ie = v.getLsbD 0 := rfl
@[simp] theorem setCtrl_done (v : Word) (s : Block) : (s.setCtrl v).done = s.done := rfl
@[simp] theorem setCtrl_ovr (v : Word) (s : Block) : (s.setCtrl v).ovr = s.ovr := rfl
@[simp] theorem setCtrl_err (v : Word) (s : Block) : (s.setCtrl v).err = s.err := rfl
@[simp] theorem setCtrl_len (v : Word) (s : Block) : (s.setCtrl v).len = s.len := rfl
@[simp] theorem setCtrl_outlen (v : Word) (s : Block) : (s.setCtrl v).outlen = s.outlen := rfl
@[simp] theorem setCtrl_errpos (v : Word) (s : Block) : (s.setCtrl v).errpos = s.errpos := rfl
@[simp] theorem setCtrl_sel (v : Word) (s : Block) : (s.setCtrl v).sel = s.sel := rfl
@[simp] theorem setCtrl_nodesel (v : Word) (s : Block) : (s.setCtrl v).nodesel = s.nodesel := rfl

@[simp] theorem setLen_mem (v : Word) (s : Block) : (s.setLen v).mem = s.mem := rfl
@[simp] theorem setLen_epoch (v : Word) (s : Block) : (s.setLen v).epoch = s.epoch := rfl
@[simp] theorem setLen_fsm (v : Word) (s : Block) : (s.setLen v).fsm = s.fsm := rfl
@[simp] theorem setLen_pend (v : Word) (s : Block) : (s.setLen v).pend = s.pend := rfl
@[simp] theorem setLen_eng (v : Word) (s : Block) : (s.setLen v).eng = s.eng := rfl
@[simp] theorem setLen_ie (v : Word) (s : Block) : (s.setLen v).ie = s.ie := rfl
@[simp] theorem setLen_done (v : Word) (s : Block) : (s.setLen v).done = s.done := rfl
@[simp] theorem setLen_ovr (v : Word) (s : Block) : (s.setLen v).ovr = s.ovr := rfl
@[simp] theorem setLen_err (v : Word) (s : Block) : (s.setLen v).err = s.err := rfl
@[simp] theorem setLen_len (v : Word) (s : Block) : (s.setLen v).len = v := rfl
@[simp] theorem setLen_outlen (v : Word) (s : Block) : (s.setLen v).outlen = s.outlen := rfl
@[simp] theorem setLen_errpos (v : Word) (s : Block) : (s.setLen v).errpos = s.errpos := rfl
@[simp] theorem setLen_sel (v : Word) (s : Block) : (s.setLen v).sel = s.sel := rfl
@[simp] theorem setLen_nodesel (v : Word) (s : Block) : (s.setLen v).nodesel = s.nodesel := rfl

@[simp] theorem setSel_mem (c : Config) (v : Word) (s : Block) : (s.setSel c v).mem = s.mem := rfl
@[simp] theorem setSel_epoch (c : Config) (v : Word) (s : Block) : (s.setSel c v).epoch = s.epoch := rfl
@[simp] theorem setSel_fsm (c : Config) (v : Word) (s : Block) : (s.setSel c v).fsm = s.fsm := rfl
@[simp] theorem setSel_pend (c : Config) (v : Word) (s : Block) : (s.setSel c v).pend = s.pend := rfl
@[simp] theorem setSel_eng (c : Config) (v : Word) (s : Block) : (s.setSel c v).eng = s.eng := rfl
@[simp] theorem setSel_ie (c : Config) (v : Word) (s : Block) : (s.setSel c v).ie = s.ie := rfl
@[simp] theorem setSel_done (c : Config) (v : Word) (s : Block) : (s.setSel c v).done = s.done := rfl
@[simp] theorem setSel_ovr (c : Config) (v : Word) (s : Block) : (s.setSel c v).ovr = s.ovr := rfl
@[simp] theorem setSel_err (c : Config) (v : Word) (s : Block) : (s.setSel c v).err = s.err := rfl
@[simp] theorem setSel_len (c : Config) (v : Word) (s : Block) : (s.setSel c v).len = s.len := rfl
@[simp] theorem setSel_outlen (c : Config) (v : Word) (s : Block) : (s.setSel c v).outlen = s.outlen := rfl
@[simp] theorem setSel_errpos (c : Config) (v : Word) (s : Block) : (s.setSel c v).errpos = s.errpos := rfl
@[simp] theorem setSel_sel (c : Config) (v : Word) (s : Block) : (s.setSel c v).sel = symOfWord c v := rfl
@[simp] theorem setSel_nodesel (c : Config) (v : Word) (s : Block) : (s.setSel c v).nodesel = s.nodesel := rfl

@[simp] theorem setNodesel_mem (c : Config) (v : Word) (s : Block) : (s.setNodesel c v).mem = s.mem := rfl
@[simp] theorem setNodesel_epoch (c : Config) (v : Word) (s : Block) : (s.setNodesel c v).epoch = s.epoch := rfl
@[simp] theorem setNodesel_fsm (c : Config) (v : Word) (s : Block) : (s.setNodesel c v).fsm = s.fsm := rfl
@[simp] theorem setNodesel_pend (c : Config) (v : Word) (s : Block) : (s.setNodesel c v).pend = s.pend := rfl
@[simp] theorem setNodesel_eng (c : Config) (v : Word) (s : Block) : (s.setNodesel c v).eng = s.eng := rfl
@[simp] theorem setNodesel_ie (c : Config) (v : Word) (s : Block) : (s.setNodesel c v).ie = s.ie := rfl
@[simp] theorem setNodesel_done (c : Config) (v : Word) (s : Block) : (s.setNodesel c v).done = s.done := rfl
@[simp] theorem setNodesel_ovr (c : Config) (v : Word) (s : Block) : (s.setNodesel c v).ovr = s.ovr := rfl
@[simp] theorem setNodesel_err (c : Config) (v : Word) (s : Block) : (s.setNodesel c v).err = s.err := rfl
@[simp] theorem setNodesel_len (c : Config) (v : Word) (s : Block) : (s.setNodesel c v).len = s.len := rfl
@[simp] theorem setNodesel_outlen (c : Config) (v : Word) (s : Block) : (s.setNodesel c v).outlen = s.outlen := rfl
@[simp] theorem setNodesel_errpos (c : Config) (v : Word) (s : Block) : (s.setNodesel c v).errpos = s.errpos := rfl
@[simp] theorem setNodesel_sel (c : Config) (v : Word) (s : Block) : (s.setNodesel c v).sel = s.sel := rfl
@[simp] theorem setNodesel_nodesel (c : Config) (v : Word) (s : Block) : (s.setNodesel c v).nodesel = BitVec.ofNat 17 (v.toNat % 2 ^ (c.symW + 1)) := rfl

@[simp] theorem writeWord_mem (a : Nat) (v : Word) (s : Block) : (s.writeWord a v).mem = Memory.setWord s.mem a v := rfl
@[simp] theorem writeWord_epoch (a : Nat) (v : Word) (s : Block) : (s.writeWord a v).epoch = s.epoch := rfl
@[simp] theorem writeWord_fsm (a : Nat) (v : Word) (s : Block) : (s.writeWord a v).fsm = s.fsm := rfl
@[simp] theorem writeWord_pend (a : Nat) (v : Word) (s : Block) : (s.writeWord a v).pend = s.pend := rfl
@[simp] theorem writeWord_eng (a : Nat) (v : Word) (s : Block) : (s.writeWord a v).eng = s.eng := rfl
@[simp] theorem writeWord_ie (a : Nat) (v : Word) (s : Block) : (s.writeWord a v).ie = s.ie := rfl
@[simp] theorem writeWord_done (a : Nat) (v : Word) (s : Block) : (s.writeWord a v).done = s.done := rfl
@[simp] theorem writeWord_ovr (a : Nat) (v : Word) (s : Block) : (s.writeWord a v).ovr = s.ovr := rfl
@[simp] theorem writeWord_err (a : Nat) (v : Word) (s : Block) : (s.writeWord a v).err = s.err := rfl
@[simp] theorem writeWord_len (a : Nat) (v : Word) (s : Block) : (s.writeWord a v).len = s.len := rfl
@[simp] theorem writeWord_outlen (a : Nat) (v : Word) (s : Block) : (s.writeWord a v).outlen = s.outlen := rfl
@[simp] theorem writeWord_errpos (a : Nat) (v : Word) (s : Block) : (s.writeWord a v).errpos = s.errpos := rfl
@[simp] theorem writeWord_sel (a : Nat) (v : Word) (s : Block) : (s.writeWord a v).sel = s.sel := rfl
@[simp] theorem writeWord_nodesel (a : Nat) (v : Word) (s : Block) : (s.writeWord a v).nodesel = s.nodesel := rfl

@[simp] theorem writeWords_mem (a : Nat) (vs : List Word) (s : Block) : (s.writeWords a vs).mem = Memory.setWords s.mem a vs := rfl
@[simp] theorem writeWords_epoch (a : Nat) (vs : List Word) (s : Block) : (s.writeWords a vs).epoch = s.epoch := rfl
@[simp] theorem writeWords_fsm (a : Nat) (vs : List Word) (s : Block) : (s.writeWords a vs).fsm = s.fsm := rfl
@[simp] theorem writeWords_pend (a : Nat) (vs : List Word) (s : Block) : (s.writeWords a vs).pend = s.pend := rfl
@[simp] theorem writeWords_eng (a : Nat) (vs : List Word) (s : Block) : (s.writeWords a vs).eng = s.eng := rfl
@[simp] theorem writeWords_ie (a : Nat) (vs : List Word) (s : Block) : (s.writeWords a vs).ie = s.ie := rfl
@[simp] theorem writeWords_done (a : Nat) (vs : List Word) (s : Block) : (s.writeWords a vs).done = s.done := rfl
@[simp] theorem writeWords_ovr (a : Nat) (vs : List Word) (s : Block) : (s.writeWords a vs).ovr = s.ovr := rfl
@[simp] theorem writeWords_err (a : Nat) (vs : List Word) (s : Block) : (s.writeWords a vs).err = s.err := rfl
@[simp] theorem writeWords_len (a : Nat) (vs : List Word) (s : Block) : (s.writeWords a vs).len = s.len := rfl
@[simp] theorem writeWords_outlen (a : Nat) (vs : List Word) (s : Block) : (s.writeWords a vs).outlen = s.outlen := rfl
@[simp] theorem writeWords_errpos (a : Nat) (vs : List Word) (s : Block) : (s.writeWords a vs).errpos = s.errpos := rfl
@[simp] theorem writeWords_sel (a : Nat) (vs : List Word) (s : Block) : (s.writeWords a vs).sel = s.sel := rfl
@[simp] theorem writeWords_nodesel (a : Nat) (vs : List Word) (s : Block) : (s.writeWords a vs).nodesel = s.nodesel := rfl

@[simp] theorem resetEvent_mem (s : Block) : s.resetEvent.mem = [] := rfl
@[simp] theorem resetEvent_epoch (s : Block) : s.resetEvent.epoch = s.epoch + 1 := rfl
@[simp] theorem resetEvent_fsm (s : Block) : s.resetEvent.fsm = .idle := rfl
@[simp] theorem resetEvent_pend (s : Block) : s.resetEvent.pend = 0 := rfl
@[simp] theorem resetEvent_eng (s : Block) : s.resetEvent.eng = .uninitialized := rfl
@[simp] theorem resetEvent_ie (s : Block) : s.resetEvent.ie = false := rfl
@[simp] theorem resetEvent_done (s : Block) : s.resetEvent.done = false := rfl
@[simp] theorem resetEvent_ovr (s : Block) : s.resetEvent.ovr = false := rfl
@[simp] theorem resetEvent_err (s : Block) : s.resetEvent.err = .none := rfl
@[simp] theorem resetEvent_len (s : Block) : s.resetEvent.len = 0 := rfl
@[simp] theorem resetEvent_outlen (s : Block) : s.resetEvent.outlen = 0 := rfl
@[simp] theorem resetEvent_errpos (s : Block) : s.resetEvent.errpos = 0 := rfl
@[simp] theorem resetEvent_sel (s : Block) : s.resetEvent.sel = 0 := rfl
@[simp] theorem resetEvent_nodesel (s : Block) : s.resetEvent.nodesel = 0 := rfl

end Block

namespace State

@[simp] theorem onBlock_toBlock (f : Block → Block) (s : State) : (s.onBlock f).toBlock = f s.toBlock := rfl
@[simp] theorem onBlock_toWorld (f : Block → Block) (s : State) : (s.onBlock f).toWorld = s.toWorld := rfl

@[simp] theorem accept_toBlock (v : Word) (s : State) : (s.accept v).toBlock = s.toBlock.accept v := rfl
@[simp] theorem accept_toWorld (v : Word) (s : State) : (s.accept v).toWorld = s.toWorld := rfl

@[simp] theorem resetEvent_toBlock (s : State) : s.resetEvent.toBlock = s.toBlock.resetEvent := rfl
@[simp] theorem resetEvent_toWorld (s : State) : s.resetEvent.toWorld = s.toWorld := rfl

@[simp] theorem completeWith_toBlock (f : Config → Block → Block) (s : State) : (s.completeWith f).toBlock = (f s.cfg s.toBlock).complete := rfl
@[simp] theorem completeWith_toWorld (f : Config → Block → Block) (s : State) : (s.completeWith f).toWorld = s.toWorld := rfl

@[simp] theorem completedWith_toBlock (e : ErrCode) (p n : Nat) (s : State) : (s.completedWith e p n).toBlock = s.toBlock.completedWith e p n := rfl
@[simp] theorem completedWith_toWorld (e : ErrCode) (p n : Nat) (s : State) : (s.completedWith e p n).toWorld = s.toWorld := rfl

@[simp] theorem drew_toBlock (s : State) : s.drew.toBlock = s.toBlock := rfl
@[simp] theorem drew_cfg (s : State) : s.drew.cfg = s.cfg := rfl
@[simp] theorem drew_draws (s : State) : s.drew.draws = s.draws + 1 := rfl
@[simp] theorem drew_script (s : State) : s.drew.script = s.script := rfl
@[simp] theorem drew_turns (s : State) : s.drew.turns = s.turns := rfl
@[simp] theorem drew_log (s : State) : s.drew.log = s.log := rfl

@[simp] theorem respond_toBlock (r : Response) (s : State) : (s.respond r).toBlock = s.toBlock := rfl
@[simp] theorem respond_cfg (r : Response) (s : State) : (s.respond r).cfg = s.cfg := rfl
@[simp] theorem respond_draws (r : Response) (s : State) : (s.respond r).draws = s.draws := rfl
@[simp] theorem respond_script (r : Response) (s : State) : (s.respond r).script = s.script := rfl
@[simp] theorem respond_turns (r : Response) (s : State) : (s.respond r).turns = s.turns := rfl
@[simp] theorem respond_log (r : Response) (s : State) : (s.respond r).log = r :: s.log := rfl

@[simp] theorem scriptTo_toBlock (l : List HostOp) (s : State) : (s.scriptTo l).toBlock = s.toBlock := rfl
@[simp] theorem scriptTo_cfg (l : List HostOp) (s : State) : (s.scriptTo l).cfg = s.cfg := rfl
@[simp] theorem scriptTo_draws (l : List HostOp) (s : State) : (s.scriptTo l).draws = s.draws := rfl
@[simp] theorem scriptTo_script (l : List HostOp) (s : State) : (s.scriptTo l).script = l := rfl
@[simp] theorem scriptTo_turns (l : List HostOp) (s : State) : (s.scriptTo l).turns = s.turns := rfl
@[simp] theorem scriptTo_log (l : List HostOp) (s : State) : (s.scriptTo l).log = s.log := rfl

@[simp] theorem turnsTo_toBlock (l : List Turn) (s : State) : (s.turnsTo l).toBlock = s.toBlock := rfl
@[simp] theorem turnsTo_cfg (l : List Turn) (s : State) : (s.turnsTo l).cfg = s.cfg := rfl
@[simp] theorem turnsTo_draws (l : List Turn) (s : State) : (s.turnsTo l).draws = s.draws := rfl
@[simp] theorem turnsTo_script (l : List Turn) (s : State) : (s.turnsTo l).script = s.script := rfl
@[simp] theorem turnsTo_turns (l : List Turn) (s : State) : (s.turnsTo l).turns = l := rfl
@[simp] theorem turnsTo_log (l : List Turn) (s : State) : (s.turnsTo l).log = s.log := rfl

end State

end Sys2Proof.Machine
end

