-- ==== Sys2Proof/Laws/Memory.lean ====
section
/-! SUPPORT. The laws of the buffers' memory: read after write, everything else unchanged, and the canonical
form kept by every operation. -/

namespace Sys2Proof.Machine

namespace Memory

theorem get?_set_self (m : List Host.Cell) (a : Nat) (b : Byte) : get? (set m a b) a = some b := by
  induction m with
  | nil => simp [set, get?]
  | cons x m ih =>
    obtain ⟨k, c⟩ := x
    by_cases h1 : a < k
    · simp [set, get?, h1]
    · by_cases h2 : a = k <;> simp [set, get?, h1, h2]
      simpa [h2] using ih

theorem get?_set_other (m : List Host.Cell) {a a' : Nat} (b : Byte) (h : a' ≠ a) :
    get? (set m a b) a' = get? m a' := by
  induction m with
  | nil => simp [set, get?, h]
  | cons x m ih =>
    obtain ⟨k, c⟩ := x
    by_cases h1 : a < k
    · simp [set, get?, h1, h]
    · by_cases h2 : a = k
      · subst h2; simp [set, get?, h]
      · simp [set, get?, h1, h2, ih]

theorem get?_set (m : List Host.Cell) (a a' : Nat) (b : Byte) :
    get? (set m a b) a' = if a' = a then some b else get? m a' := by
  by_cases h : a' = a
  · subst h; simp [get?_set_self]
  · simp [h, get?_set_other]

/-- The addresses listed after a write are those listed before it and the one written. -/
theorem mem_keys_set (m : List Host.Cell) (a : Nat) (b : Byte) (x : Nat) :
    x ∈ (set m a b).map Prod.fst ↔ x = a ∨ x ∈ m.map Prod.fst := by
  induction m with
  | nil => simp [set]
  | cons y m ih =>
    obtain ⟨k, c⟩ := y
    by_cases h1 : a < k
    · simp [set, h1]
    · by_cases h2 : a = k
      · subst h2; simp [set]
      · simp only [set, h1, h2, if_false, List.map_cons, List.mem_cons, ih]
        tauto

/-- A write of one byte keeps the canonical form. -/
theorem wf_set {m : List Host.Cell} (a : Nat) (b : Byte) (h : wf m) : wf (set m a b) := by
  induction m with
  | nil => simp [set, wf]
  | cons y m ih =>
    obtain ⟨k, c⟩ := y
    simp only [wf, List.map_cons, List.pairwise_cons] at h ih ⊢
    by_cases h1 : a < k
    · simp only [set, h1, if_true, List.map_cons, List.pairwise_cons]
      exact ⟨fun x hx => by
        rcases List.mem_cons.1 hx with rfl | hx
        · exact h1
        · exact h1.trans (h.1 x hx), h⟩
    · by_cases h2 : a = k
      · subst h2; simpa [set] using h
      · simp only [set, h1, h2, if_false, List.map_cons, List.pairwise_cons]
        refine ⟨fun x hx => ?_, ih h.2⟩
        rcases (mem_keys_set m a b x).1 hx with rfl | hx
        · omega
        · exact h.1 x hx

theorem mem_keys_setWord (m : List Host.Cell) (a : Nat) (v : Word) (x : Nat) :
    x ∈ (setWord m a v).map Prod.fst ↔ (a ≤ x ∧ x < a + 4) ∨ x ∈ m.map Prod.fst := by
  simp only [setWord, mem_keys_set]
  constructor
  · rintro (rfl | rfl | rfl | rfl | h)
    all_goals first | exact .inl (by omega) | exact .inr h
  · rintro (⟨h1, h2⟩ | h)
    · have : x = a + 3 ∨ x = a + 2 ∨ x = a + 1 ∨ x = a := by omega
      tauto
    · tauto

/-- A write of one word keeps the canonical form. -/
theorem wf_setWord {m : List Host.Cell} (a : Nat) (v : Word) (h : wf m) : wf (setWord m a v) :=
  wf_set _ _ (wf_set _ _ (wf_set _ _ (wf_set _ _ h)))

/-- What a byte reads as after a word was written. -/
theorem get?_setWord (m : List Host.Cell) (a : Nat) (v : Word) (x : Nat) :
    get? (setWord m a v) x =
      if a ≤ x ∧ x < a + 4 then some (byteOf v (x - a)) else get? m x := by
  simp only [setWord, get?_set]
  by_cases h : a ≤ x ∧ x < a + 4
  · have : x = a + 3 ∨ x = a + 2 ∨ x = a + 1 ∨ x = a := by omega
    rcases this with rfl | rfl | rfl | rfl <;> simp
  · have h3 : x ≠ a + 3 := by omega
    have h2 : x ≠ a + 2 := by omega
    have h1 : x ≠ a + 1 := by omega
    have h0 : x ≠ a := by omega
    simp [h, h0, h1, h2, h3]

theorem mem_keys_setWords (m : List Host.Cell) (a : Nat) (vs : List Word) (x : Nat) :
    x ∈ (setWords m a vs).map Prod.fst ↔ (a ≤ x ∧ x < a + 4 * vs.length) ∨ x ∈ m.map Prod.fst := by
  induction vs generalizing m a with
  | nil => simp [setWords]
  | cons v vs ih =>
    simp only [setWords, ih, mem_keys_setWord, List.length_cons]
    constructor
    · rintro (h | h | h)
      · exact .inl (by omega)
      · exact .inl (by omega)
      · exact .inr h
    · rintro (h | h)
      · by_cases x < a + 4
        · exact .inr (.inl (by omega))
        · exact .inl (by omega)
      · exact .inr (.inr h)

/-- A write of consecutive words keeps the canonical form. -/
theorem wf_setWords {m : List Host.Cell} (a : Nat) (vs : List Word) (h : wf m) : wf (setWords m a vs) := by
  induction vs generalizing m a with
  | nil => exact h
  | cons v vs ih => exact ih _ (wf_setWord a v h)

/-- A byte outside the words written reads as before. -/
theorem get?_setWords_other (m : List Host.Cell) (a : Nat) (vs : List Word) (x : Nat)
    (h : ¬ (a ≤ x ∧ x < a + 4 * vs.length)) : get? (setWords m a vs) x = get? m x := by
  induction vs generalizing m a with
  | nil => rfl
  | cons v vs ih =>
    simp only [List.length_cons] at h
    rw [setWords, ih _ _ (by omega), get?_setWord, if_neg (by omega)]

/-- A byte of the i-th word written reads as that word's byte. -/
theorem get?_setWords_at (m : List Host.Cell) (a : Nat) (vs : List Word) (i j : Nat)
    (hi : i < vs.length) (hj : j < 4) :
    get? (setWords m a vs) (a + 4 * i + j) = some (byteOf vs[i] j) := by
  induction vs generalizing m a i with
  | nil => simp at hi
  | cons v vs ih =>
    cases i with
    | zero =>
      rw [setWords, get?_setWords_other _ _ _ _ (by omega), get?_setWord, if_pos (by omega)]
      simp
    | succ i =>
      have := ih (setWord m a v) (a + 4) i (by simpa using hi)
      rw [setWords, show a + 4 * (i + 1) + j = a + 4 + 4 * i + j by omega, this]
      simp

/-- Reset memory lists nothing, so it is in canonical form. -/
theorem wf_reset : wf State.reset.mem := by decide

/-- An address with a value is a listed address. -/
theorem mem_keys_of_get? {m : List Host.Cell} {a : Nat} {b : Byte} (h : get? m a = some b) :
    a ∈ m.map Prod.fst := by
  induction m with
  | nil => simp [get?] at h
  | cons x m ih =>
    obtain ⟨k, c⟩ := x
    by_cases h1 : a = k
    · simp [h1]
    · simp only [get?, h1, if_false] at h
      exact List.mem_cons_of_mem _ (ih h)

end Memory

/-- A word is its four bytes. -/
theorem bytes_of_word (v : Word) :
    (Memory.byteOf v 3 ++ Memory.byteOf v 2 ++ Memory.byteOf v 1 ++ Memory.byteOf v 0 : Word) = v := by
  apply BitVec.eq_of_getLsbD_eq
  intro i hi
  simp only [Memory.byteOf, BitVec.getLsbD_append, BitVec.getLsbD_extractLsb']
  by_cases h0 : i < 8
  · simp [h0]
  · by_cases h1 : i < 16
    · simp [h0, show i - 8 < 8 by omega, show 8 + (i - 8) = i by omega]
    · by_cases h2 : i < 24
      · simp [h0, show ¬ i - 8 < 8 by omega, show i - 8 - 8 < 8 by omega, show 16 + (i - 8 - 8) = i by omega]
      · simp [h0, show ¬ i - 8 < 8 by omega, show ¬ i - 8 - 8 < 8 by omega,
          show i - 8 - 8 - 8 < 8 by omega, show 24 + (i - 8 - 8 - 8) = i by omega]

namespace Block

@[simp] theorem readByte_of_mem (s t : Block) (a : Nat) (hm : t.mem = s.mem) (he : t.epoch = s.epoch) :
    t.readByte a = s.readByte a := by simp [readByte, hm, he]

/-- Bytes outside the words written read as before. -/
theorem readByte_writeWords_other (s : Block) (a : Nat) (vs : List Word) (x : Nat)
    (h : ¬ (a ≤ x ∧ x < a + 4 * vs.length)) : (s.writeWords a vs).readByte x = s.readByte x := by
  simp [readByte, Memory.get?_setWords_other _ _ _ _ h]

theorem readByte_writeWord_other (s : Block) (a : Nat) (v : Word) (x : Nat)
    (h : ¬ (a ≤ x ∧ x < a + 4)) : (s.writeWord a v).readByte x = s.readByte x := by
  simp [readByte, Memory.get?_setWord, h]

/-- A word whose bytes did not change did not change. -/
theorem readWord_congr {s t : Block} {a : Nat} (h : ∀ j < 4, t.readByte (a + j) = s.readByte (a + j)) :
    t.readWord a = s.readWord a := by
  have h0 := h 0 (by omega)
  have h1 := h 1 (by omega)
  have h2 := h 2 (by omega)
  have h3 := h 3 (by omega)
  simp only [Nat.add_zero] at h0
  simp [readWord, h0, h1, h2, h3]

theorem readWord_writeWords_other (s : Block) (a : Nat) (vs : List Word) (x : Nat)
    (h : x + 4 ≤ a ∨ a + 4 * vs.length ≤ x) : (s.writeWords a vs).readWord x = s.readWord x :=
  readWord_congr fun _ _ => readByte_writeWords_other _ _ _ _ (by omega)

/-- Read after write: the i-th word written is read back. -/
theorem readWord_writeWords_at (s : Block) (a : Nat) (vs : List Word) (i : Nat) (hi : i < vs.length) :
    (s.writeWords a vs).readWord (a + 4 * i) = vs[i] := by
  have key : ∀ j < 4, (s.writeWords a vs).readByte (a + 4 * i + j) = Memory.byteOf vs[i] j := fun j hj => by
    simp [readByte, Memory.get?_setWords_at _ _ _ _ _ hi hj]
  have h0 := key 0 (by omega)
  simp only [Nat.add_zero] at h0
  rw [readWord, key 3 (by omega), key 2 (by omega), key 1 (by omega), h0]
  exact bytes_of_word _

theorem writeWord_eq_writeWords (s : Block) (a : Nat) (v : Word) : s.writeWord a v = s.writeWords a [v] := rfl

theorem readWord_writeWord_self (s : Block) (a : Nat) (v : Word) : (s.writeWord a v).readWord a = v := by
  simpa [writeWord_eq_writeWords] using readWord_writeWords_at s a [v] 0 (by simp)

theorem readWord_writeWord_other (s : Block) (a : Nat) (v : Word) (x : Nat) (h : x + 4 ≤ a ∨ a + 4 ≤ x) :
    (s.writeWord a v).readWord x = s.readWord x := by
  rw [writeWord_eq_writeWords]
  exact readWord_writeWords_other _ _ _ _ (by simpa using h)

end Block

end Sys2Proof.Machine
end

