-- ==== Sys2Proof/Laws/Tables.lean ====
section
/-! SUPPORT. The laws of the symbol tables, the packing of bits into words, and symbols in words. -/

namespace Sys2Proof.Machine

namespace Table

variable {β : Type}

theorem get?_set (l : List (Sym × β)) (s t : Sym) (b : β) :
    get? (set l s b) t = if t = s then some b else get? l t := by
  induction l with
  | nil => simp [set, get?]
  | cons x l ih =>
    obtain ⟨u, c⟩ := x
    by_cases h1 : s < u
    · simp [set, get?, h1]
    · by_cases h2 : s = u
      · subst h2
        by_cases h3 : t = s <;> simp [set, get?, h3]
      · simp only [set, h1, h2, if_false, get?, ih]
        by_cases h3 : t = u
        · subst h3; simp [Ne.symm h2]
        · simp [h3]

theorem mem_keys_set (l : List (Sym × β)) (s t : Sym) (b : β) :
    t ∈ (set l s b).map Prod.fst ↔ t = s ∨ t ∈ l.map Prod.fst := by
  induction l with
  | nil => simp [set]
  | cons x l ih =>
    obtain ⟨u, c⟩ := x
    by_cases h1 : s < u
    · simp [set, h1]
    · by_cases h2 : s = u
      · subst h2; simp [set]
      · simp only [set, h1, h2, if_false, List.map_cons, List.mem_cons, ih]
        tauto

/-- Setting an entry keeps the canonical form. -/
theorem wf_set {l : List (Sym × β)} (s : Sym) (b : β) (h : wf l) : wf (set l s b) := by
  induction l with
  | nil => simp [set, wf]
  | cons x l ih =>
    obtain ⟨u, c⟩ := x
    simp only [wf, List.map_cons, List.pairwise_cons] at h ih ⊢
    by_cases h1 : s < u
    · simp only [set, h1, if_true, List.map_cons, List.pairwise_cons]
      exact ⟨fun x hx => by
        rcases List.mem_cons.1 hx with rfl | hx
        · exact h1
        · exact BitVec.lt_trans h1 (h.1 x hx), h⟩
    · by_cases h2 : s = u
      · subst h2; simpa [set] using h
      · simp only [set, h1, h2, if_false, List.map_cons, List.pairwise_cons]
        refine ⟨fun x hx => ?_, ih h.2⟩
        rcases (mem_keys_set l s x b).1 hx with rfl | hx
        · exact BitVec.lt_of_le_ne (BitVec.not_lt.1 h1) (Ne.symm h2)
        · exact h.1 x hx

theorem get?_eq_none_iff (l : List (Sym × β)) (s : Sym) : get? l s = none ↔ s ∉ l.map Prod.fst := by
  induction l with
  | nil => simp [get?]
  | cons x l ih =>
    obtain ⟨u, c⟩ := x
    by_cases h : s = u <;> simp [get?, h, ih]

theorem get?_isSome_iff (l : List (Sym × β)) (s : Sym) : (get? l s).isSome ↔ s ∈ l.map Prod.fst := by
  rw [← not_iff_not, ← get?_eq_none_iff]
  cases get? l s <;> simp

theorem mem_of_get? {l : List (Sym × β)} {s : Sym} {b : β} (h : get? l s = some b) : (s, b) ∈ l := by
  induction l with
  | nil => simp [get?] at h
  | cons x l ih =>
    obtain ⟨u, c⟩ := x
    by_cases h1 : s = u
    · subst h1; simp_all [get?]
    · simp only [get?, h1, if_false] at h
      exact List.mem_cons_of_mem _ (ih h)

/-- In a canonical table the entries are exactly what `get?` finds. -/
theorem get?_of_mem {l : List (Sym × β)} (hw : wf l) {s : Sym} {b : β} (h : (s, b) ∈ l) :
    get? l s = some b := by
  induction l with
  | nil => simp at h
  | cons x l ih =>
    obtain ⟨u, c⟩ := x
    simp only [wf, List.map_cons, List.pairwise_cons] at hw ih
    rcases List.mem_cons.1 h with h | h
    · cases h; simp [get?]
    · have hlt := hw.1 s (List.mem_map_of_mem (f := Prod.fst) h)
      simp [get?, (BitVec.ne_of_lt hlt).symm, ih hw.2 h]

/-- Two canonical tables that agree everywhere are equal. -/
theorem ext {l l' : List (Sym × β)} (h : wf l) (h' : wf l') (he : ∀ s, get? l s = get? l' s) : l = l' := by
  have hnd : ∀ {k : List (Sym × β)}, wf k → k.Nodup := fun {k} hk =>
    List.Nodup.of_map Prod.fst (hk.imp fun {a b} hab => BitVec.ne_of_lt hab)
  have hs : ∀ {k : List (Sym × β)}, wf k → k.Pairwise (fun a b => a.1 < b.1) := fun {k} hk =>
    (List.pairwise_map.1 hk)
  have hp : l.Perm l' := (List.perm_ext_iff_of_nodup (hnd h) (hnd h')).2 fun x => by
    obtain ⟨s, b⟩ := x
    exact ⟨fun hx => mem_of_get? (by rw [← he, get?_of_mem h hx]),
      fun hx => mem_of_get? (by rw [he, get?_of_mem h' hx])⟩
  refine hp.eq_of_pairwise (le := fun a b => a.1 < b.1) (fun a b _ _ h1 h2 => ?_) (hs h) (hs h')
  exact absurd (BitVec.lt_trans h1 h2) (BitVec.lt_irrefl _)

end Table

/-! ### Packing -/

theorem bitsToNat_lt (bs : Bits) : bitsToNat bs < 2 ^ bs.length := by
  induction bs with
  | nil => simp [bitsToNat]
  | cons b bs ih =>
    simp only [bitsToNat, List.length_cons, Nat.pow_succ]
    split <;> omega

/-- Bit i of the number of a bitstring is its element i, and 0 past the end. -/
theorem testBit_bitsToNat (bs : Bits) (i : Nat) : (bitsToNat bs).testBit i = bs.getD i false := by
  induction bs generalizing i with
  | nil => simp [bitsToNat]
  | cons b bs ih =>
    cases i with
    | zero => cases b <;> simp [bitsToNat, Nat.testBit_zero]
    | succ i =>
      have : ((if b then 1 else 0) + 2 * bitsToNat bs) / 2 = bitsToNat bs := by split <;> omega
      simp [bitsToNat, Nat.testBit_succ, this, ih]

/-- Bit b of word w is element 32w + b of the stream, and 0 past its end (R108, R125). -/
theorem getLsbD_packWord (bs : Bits) (w b : Nat) (hb : b < 32) :
    (packWord bs w).getLsbD b = bs.getD (32 * w + b) false := by
  simp only [packWord, BitVec.getLsbD_ofNat, hb, decide_true, Bool.true_and, testBit_bitsToNat]
  simp [List.getD_eq_getElem?_getD, hb]

@[simp] theorem length_packWords (bs : Bits) : (packWords bs).length = wordsOf bs.length := by
  simp [packWords]

theorem getElem_packWords (bs : Bits) (w : Nat) (h : w < (packWords bs).length) :
    (packWords bs)[w] = packWord bs w := by
  simp [packWords]

/-! ### Symbols in words -/

theorem toNat_symOfWord (c : Config) (v : Word) : (symOfWord c v).toNat = v.toNat % 2 ^ c.symW := by
  have h : 2 ^ c.symW ≤ 2 ^ 16 := Nat.pow_le_pow_right (by omega) c.symW_range.2
  have h2 : v.toNat % 2 ^ c.symW < 2 ^ c.symW := Nat.mod_lt _ (Nat.two_pow_pos _)
  simp only [symOfWord, BitVec.toNat_ofNat]
  exact Nat.mod_eq_of_lt (by omega)

/-- Every symbol read from a buffer is a legal symbol (R10). -/
theorem symOfWord_lt (c : Config) (v : Word) : (symOfWord c v).toNat < c.nsymMax := by
  rw [toNat_symOfWord]; exact Nat.mod_lt _ (Nat.two_pow_pos _)

theorem toNat_wordOfSym (y : Sym) : (wordOfSym y).toNat = y.toNat := by
  simp only [wordOfSym, BitVec.toNat_setWidth]
  exact Nat.mod_eq_of_lt (by have := y.isLt; omega)

/-- A legal symbol put in a word is read back. -/
theorem symOfWord_wordOfSym (c : Config) (y : Sym) (h : y.toNat < c.nsymMax) :
    symOfWord c (wordOfSym y) = y := by
  apply BitVec.eq_of_toNat_eq
  rw [toNat_symOfWord, toNat_wordOfSym]
  exact Nat.mod_eq_of_lt h

theorem ch0_lt (c : Config) : Config.ch0.toNat < c.nsymMax :=
  Nat.lt_of_lt_of_le (by decide : Config.ch0.toNat < 2 ^ 7) (Nat.pow_le_pow_right (by omega) c.symW_range.1)

theorem ch1_lt (c : Config) : Config.ch1.toNat < c.nsymMax :=
  Nat.lt_of_lt_of_le (by decide : Config.ch1.toNat < 2 ^ 7) (Nat.pow_le_pow_right (by omega) c.symW_range.1)

end Sys2Proof.Machine
end

