-- ==== Sys2Proof/Laws/Commands.lean ====
section
/-! SUPPORT. What each command can do, said once: the ways it ends, what the encoder's and the decoder's loops
do with a run of codes, and what the output operations write. -/

namespace Sys2Proof.Machine

/-! ### Writing output -/

namespace Block

@[simp] theorem writePacked_eq (out : Bits) (s : Block) : s.writePacked out = s.writeWords bitBase (packWords out) :=
  rfl

@[simp] theorem writeChars_eq (out : Bits) (s : Block) :
    s.writeChars out
      = s.writeWords txtOutBase (out.map fun b => wordOfSym (if b then Config.ch1 else Config.ch0)) := rfl

@[simp] theorem writeText_eq (out : List Sym) (s : Block) :
    s.writeText out = s.writeWords txtOutBase (out.map wordOfSym) := rfl

theorem length_text (c : Config) (s : Block) (n : Nat) : (s.text c n).length = n := by simp [text]

theorem text_lt (c : Config) (s : Block) {i n : Nat} (h : i < n) : (s.text c n)[i]? = some (s.txtIn c i) := by
  simp [text, h]

/-- Every symbol of the input text is a legal symbol. -/
theorem text_nsym (c : Config) (s : Block) (n : Nat) {y : Sym} (h : y ∈ s.text c n) : y.toNat < c.nsymMax := by
  simp only [text, List.mem_map] at h
  obtain ⟨i, -, rfl⟩ := h
  exact symOfWord_lt _ _

theorem text_add (c : Config) (s : Block) (n i : Nat) (h : i ≤ n) :
    s.text c n = s.text c i ++ (List.range (n - i)).map fun j => s.txtIn c (i + j) := by
  obtain ⟨k, rfl⟩ := Nat.exists_eq_add_of_le h
  simp [text, List.range_add, List.map_map, Function.comp_def]

/-- The text splits at an index into what is before it, the symbol at it, and the rest. -/
theorem text_split (c : Config) (s : Block) {i n : Nat} (h : i < n) :
    ∃ rest, s.text c n = s.text c i ++ s.txtIn c i :: rest := by
  rw [text_add c s n i h.le]
  obtain ⟨k, hk⟩ := Nat.exists_eq_add_of_lt (Nat.sub_pos_of_lt h)
  rw [hk, show 0 + k + 1 = k + 1 by omega, List.range_succ_eq_map]
  exact ⟨(List.range k).map fun j => s.txtIn c (i + (j + 1)), by simp [List.map_map, Function.comp_def]⟩

/-- TXT_OUT[j] after the text `ys` was written there. -/
theorem txtOut_writeText (c : Config) (s : Block) (ys : List Sym) (hy : ∀ y ∈ ys, y.toNat < c.nsymMax) :
    (s.writeText ys).HoldsText c ys := by
  intro j hj
  have hj' : j < (ys.map wordOfSym).length := by simpa using hj
  rw [writeText_eq, txtOut, readWord_writeWords_at _ _ _ _ hj']
  simp only [List.getElem_map]
  rw [symOfWord_wordOfSym _ _ (hy _ (List.getElem_mem hj))]
  simp [hj]

/-- BIT after a stream was written there (R108). -/
theorem holds_writePacked (s : Block) (bs : Bits) : (s.writePacked bs).HoldsStream bs := by
  intro i hi
  have hw : i / 32 < (packWords bs).length := by rw [length_packWords]; omega
  rw [writePacked_eq, bit, bitWord, readWord_writeWords_at _ _ _ _ hw, getElem_packWords,
    getLsbD_packWord _ _ _ (Nat.mod_lt _ (by omega)), Nat.div_add_mod]

/-- TXT_OUT after a stream was written there as characters (R109). -/
theorem holds_writeChars (c : Config) (s : Block) (bs : Bits) : (s.writeChars bs).HoldsChars c bs := by
  intro j hj
  have hj' : j < (bs.map fun b => wordOfSym (if b then Config.ch1 else Config.ch0)).length := by simpa using hj
  rw [writeChars_eq, txtOut, readWord_writeWords_at _ _ _ _ hj']
  simp only [List.getElem_map]
  rw [symOfWord_wordOfSym]
  · simp [hj, Config.ch0, Config.ch1]
  · split
    · exact ch1_lt _
    · exact ch0_lt _

theorem holds_writeBits (c : Config) (s : Block) (fmt : Fmt) (bs : Bits) : (s.writeBits fmt bs).HoldsOutput c fmt bs := by
  cases fmt
  · exact holds_writePacked s bs
  · exact holds_writeChars c s bs

theorem sameOutside_writeWords (s : Block) (a : Nat) (vs : List Word) :
    SameOutside a (4 * vs.length) s (s.writeWords a vs) := fun _ h => readByte_writeWords_other _ _ _ _ h

theorem sameOutside_writeBits (s : Block) (fmt : Fmt) (bs : Bits) :
    SameOutside fmt.outBase (fmt.outBytes bs.length) s (s.writeBits fmt bs) := by
  cases fmt
  · have := sameOutside_writeWords s bitBase (packWords bs)
    rwa [length_packWords] at this
  · have := sameOutside_writeWords s txtOutBase (bs.map fun b => wordOfSym (if b then Config.ch1 else Config.ch0))
    rwa [List.length_map] at this

/-- The output operation changes memory and nothing else. -/
theorem writeBits_eq (s : Block) (fmt : Fmt) (bs : Bits) :
    s.writeBits fmt bs = { s with mem := (s.writeBits fmt bs).mem } := by
  cases fmt <;> rfl

/-- What of a state a read of the buffers depends on. -/
theorem readByte_congr {s t : Block} (hm : t.mem = s.mem) (he : t.epoch = s.epoch) : t.readByte = s.readByte :=
  funext fun a => readByte_of_mem s t a hm he

theorem txtIn_congr (c : Config) {s t : Block} (hm : t.mem = s.mem) (he : t.epoch = s.epoch) :
    t.txtIn c = s.txtIn c := by
  funext i; simp [txtIn, readWord, readByte_congr hm he]

theorem bit_congr {s t : Block} (hm : t.mem = s.mem) (he : t.epoch = s.epoch) : t.bit = s.bit := by
  funext i; simp [bit, bitWord, readWord, readByte_congr hm he]

theorem txtOut_congr (c : Config) {s t : Block} (hm : t.mem = s.mem) (he : t.epoch = s.epoch) :
    t.txtOut c = s.txtOut c := by
  funext i; simp [txtOut, readWord, readByte_congr hm he]

theorem text_congr (c : Config) {s t : Block} (hm : t.mem = s.mem) (he : t.epoch = s.epoch) (n : Nat) :
    t.text c n = s.text c n := by simp [text, txtIn_congr c hm he]

theorem inputBits_congr (c : Config) {s t : Block} (hm : t.mem = s.mem) (he : t.epoch = s.epoch)
    (fmt : Fmt) (n : Nat) : t.inputBits c fmt n = s.inputBits c fmt n := by
  simp only [inputBits]
  congr 1
  funext i
  cases fmt
  · simp [readBit, bit_congr hm he]
  · simp [readBit, txtIn_congr c hm he]

end Block

/-! ### The ways a command ends -/

/-- BUILD: one of two errors, or a commit (R87). -/
theorem doBuild_cases (c : Config) (s : Block) :
    (c.maxLen < s.inputLen ∧ doBuild c s = s.raiseEarly .lenRange)
    ∨ (s.inputLen = 0 ∧ doBuild c s = s.raiseEarly .emptyInput)
    ∨ (1 ≤ s.inputLen ∧ s.inputLen ≤ c.maxLen
        ∧ doBuild c s = (s.commit (buildEng (s.text c s.inputLen))).succeed
            (2 * (buildEng (s.text c s.inputLen)).k - 1)) := by
  unfold doBuild
  by_cases h1 : c.maxLen < s.inputLen
  · exact .inl ⟨h1, by simp [h1]⟩
  · by_cases h2 : s.inputLen = 0
    · exact .inr (.inl ⟨h2, by simp [h2]⟩)
    · exact .inr (.inr ⟨by omega, by omega, by simp [h1, h2]⟩)

/-- ENCODE: one of two errors, or the output of `encodeBits` (R102). -/
theorem doEncode_cases (fmt : Fmt) (c : Config) (s : Block) :
    (s.eng.built = false ∧ doEncode fmt c s = s.raiseEarly .uninitializedTree)
    ∨ (s.eng.built = true ∧ c.maxLen < s.inputLen ∧ doEncode fmt c s = s.raiseEarly .lenRange)
    ∨ (s.eng.built = true ∧ s.inputLen ≤ c.maxLen
        ∧ doEncode fmt c s = (s.writeBits fmt (encodeBits c (fmt.outCap c) s).1).finish
            (encodeBits c (fmt.outCap c) s).1.length (encodeBits c (fmt.outCap c) s).2) := by
  unfold doEncode
  cases hb : s.eng.built
  · exact .inl ⟨rfl, by simp⟩
  · by_cases h : c.maxLen < s.inputLen
    · exact .inr (.inl ⟨rfl, h, by simp [h]⟩)
    · exact .inr (.inr ⟨rfl, by omega, by simp [h]⟩)

/-- DECODE: one of two errors, or the output of `decodeBits` (R111). -/
theorem doDecode_cases (fmt : Fmt) (c : Config) (s : Block) :
    (s.eng.built = false ∧ doDecode fmt c s = s.raiseEarly .uninitializedTree)
    ∨ (s.eng.built = true ∧ fmt.inCap c < s.inputLen ∧ doDecode fmt c s = s.raiseEarly .lenRange)
    ∨ (s.eng.built = true ∧ s.inputLen ≤ fmt.inCap c
        ∧ doDecode fmt c s = (s.writeText (decodeBits c fmt s.inputLen s).1).finish
            (decodeBits c fmt s.inputLen s).1.length (decodeBits c fmt s.inputLen s).2) := by
  unfold doDecode
  cases hb : s.eng.built
  · exact .inl ⟨rfl, by simp⟩
  · by_cases h : fmt.inCap c < s.inputLen
    · exact .inr (.inl ⟨rfl, h, by simp [h]⟩)
    · exact .inr (.inr ⟨rfl, by omega, by simp [h]⟩)

/-- What the end of a command with output does to each field. -/
theorem Block.finish_eq (n : Nat) (err : Option (ErrCode × Nat)) (s : Block) :
    s.finish n err = { s with
      err := (err.map Prod.fst).getD .none
      errpos := BitVec.ofNat 32 ((err.map Prod.snd).getD 0)
      outlen := BitVec.ofNat 32 n } := by
  cases err <;> rfl

/-- The `do` function of a command (R81). -/
def doOf : Instr → Config → Block → Block
  | .build => doBuild
  | .encodeP => doEncode .packed
  | .encodeC => doEncode .char
  | .decodeP => doDecode .packed
  | .decodeC => doDecode .char

/-- Every command answers a next state: the block's state that its `do` function gives, completed, in the same
surroundings. -/
theorem exec_eq (i : Instr) (s : State) : exec i s = .next (s.completeWith (doOf i)) := by cases i <;> rfl

@[simp] theorem doOf_encoder (fmt : Fmt) : doOf fmt.encoder = doEncode fmt := by cases fmt <;> rfl

@[simp] theorem doOf_decoder (fmt : Fmt) : doOf fmt.decoder = doDecode fmt := by cases fmt <;> rfl

@[simp] theorem exec_encoder (fmt : Fmt) (s : State) : exec fmt.encoder s = .next (s.completeWith (doEncode fmt)) := by
  rw [exec_eq, doOf_encoder]

@[simp] theorem exec_decoder (fmt : Fmt) (s : State) : exec fmt.decoder s = .next (s.completeWith (doDecode fmt)) := by
  rw [exec_eq, doOf_decoder]

/-- A command is BUILD, an ENCODE or a DECODE. -/
theorem instr_cases (i : Instr) : i = .build ∨ (∃ fmt, i = Fmt.encoder fmt) ∨ ∃ fmt, i = Fmt.decoder fmt := by
  cases i
  · exact .inl rfl
  · exact .inr (.inl ⟨.packed, rfl⟩)
  · exact .inr (.inl ⟨.char, rfl⟩)
  · exact .inr (.inr ⟨.packed, rfl⟩)
  · exact .inr (.inr ⟨.char, rfl⟩)

/-- A completion whose `do` function gives `b` puts `b`, completed, in the same surroundings. -/
theorem State.completeWith_eq {f : Config → Block → Block} {s : State} {b : Block} (h : f s.cfg s.toBlock = b) :
    s.completeWith f = { s with toBlock := b.complete } := by subst h; rfl

/-- An ENCODE that gets as far as `encodeBits` ends with the output of it (R102): the record, the output, and every other
byte as before. -/
theorem exec_encoder_of_bits {s : State} {fmt : Fmt} {out : Bits} {err : Option (ErrCode × Nat)}
    (hb : s.eng.built = true) (hl : s.len.toNat ≤ s.cfg.maxLen)
    (he : encodeBits s.cfg (fmt.outCap s.cfg) s.toBlock = (out, err)) :
    ∃ t : State, exec fmt.encoder s = .next t
      ∧ t = { s.completedWith ((err.map Prod.fst).getD .none) ((err.map Prod.snd).getD 0) out.length with mem := t.mem }
      ∧ t.mem = (s.writeBits fmt out).mem
      ∧ t.HoldsOutput s.cfg fmt out
      ∧ Block.SameOutside fmt.outBase (fmt.outBytes out.length) s.toBlock t.toBlock := by
  have hd : doEncode fmt s.cfg s.toBlock = (s.writeBits fmt out).finish out.length err := by
    obtain ⟨h, -⟩ | ⟨-, h, -⟩ | ⟨-, -, h⟩ := doEncode_cases fmt s.cfg s.toBlock
    · rw [hb] at h; cases h
    · unfold Block.inputLen at h; omega
    · rw [h, he]
  rw [Block.finish_eq] at hd
  refine ⟨_, (exec_encoder fmt s).trans (congrArg _ (State.completeWith_eq hd)), ?_⟩
  refine ⟨by rw [Block.writeBits_eq]; rfl, rfl, ?_, Block.sameOutside_writeBits s.toBlock fmt out⟩
  have := Block.holds_writeBits s.cfg s.toBlock fmt out
  cases fmt <;> exact this

/-- A DECODE that gets as far as `decodeBits` ends with the output of it (R111): the record, the text, and every other byte
as before. -/
theorem exec_decoder_of_bits {s : State} {fmt : Fmt} {out : List Sym} {err : Option (ErrCode × Nat)}
    (hb : s.eng.built = true) (hl : s.len.toNat ≤ fmt.inCap s.cfg)
    (he : decodeBits s.cfg fmt s.len.toNat s.toBlock = (out, err)) :
    ∃ t : State, exec fmt.decoder s = .next t
      ∧ t = { s.completedWith ((err.map Prod.fst).getD .none) ((err.map Prod.snd).getD 0) out.length with mem := t.mem }
      ∧ t.mem = (s.writeText out).mem
      ∧ ((∀ y ∈ out, y.toNat < s.cfg.nsymMax) → t.HoldsText s.cfg out)
      ∧ Block.SameOutside txtOutBase (4 * out.length) s.toBlock t.toBlock := by
  have hd : doDecode fmt s.cfg s.toBlock = (s.writeText out).finish out.length err := by
    obtain ⟨h, -⟩ | ⟨-, h, -⟩ | ⟨-, -, h⟩ := doDecode_cases fmt s.cfg s.toBlock
    · rw [hb] at h; cases h
    · unfold Block.inputLen at h; omega
    · rw [h]; unfold Block.inputLen; rw [he]
  rw [Block.finish_eq] at hd
  refine ⟨_, (exec_decoder fmt s).trans (congrArg _ (State.completeWith_eq hd)), ?_⟩
  refine ⟨rfl, rfl, fun h => Block.txtOut_writeText s.cfg s.toBlock out h, ?_⟩
  have := Block.sameOutside_writeWords s.toBlock txtOutBase (out.map wordOfSym)
  rwa [List.length_map] at this

/-! ### The encoder's loop -/

/-- A run of symbols with codes that fit is appended, and the loop goes on with the rest. -/
theorem encodeLoop_run (code : Sym → Option Bits) (cap : Nat) (t : List Sym) (cs : List Bits) (rest : List Sym)
    (i : Nat) (out : Bits) (h : t.map code = cs.map some) (hcap : out.length + cs.flatten.length ≤ cap) :
    encodeLoop code cap (t ++ rest) i out = encodeLoop code cap rest (i + t.length) (out ++ cs.flatten) := by
  induction t generalizing cs i out with
  | nil =>
    have : cs = [] := by simpa using h.symm
    simp [this]
  | cons y t ih =>
    cases cs with
    | nil => simp at h
    | cons c cs =>
      simp only [List.map_cons, List.cons.injEq] at h
      simp only [List.flatten_cons, List.length_append] at hcap
      have := ih cs (i + 1) (out ++ c) h.2 (by simp only [List.length_append]; omega)
      simp only [List.cons_append, encodeLoop, h.1]
      rw [if_neg (by omega), this]
      simp [Nat.add_assoc, Nat.add_comm 1]

/-- The output never passes the capacity. -/
theorem encodeLoop_length_le (code : Sym → Option Bits) (cap : Nat) (t : List Sym) (i : Nat) (out : Bits)
    (h : out.length ≤ cap) : (encodeLoop code cap t i out).1.length ≤ cap := by
  induction t generalizing i out with
  | nil => simpa [encodeLoop] using h
  | cons y t ih =>
    simp only [encodeLoop]
    split
    · exact h
    · split
      · exact h
      · exact ih _ _ (by simp only [List.length_append]; omega)

theorem encodeLoop_congr {code code' : Sym → Option Bits} (cap : Nat) (t : List Sym) (i : Nat) (out : Bits)
    (h : ∀ y, code y = code' y) : encodeLoop code cap t i out = encodeLoop code' cap t i out := by
  rw [funext h]

/-- The errors the encoder's loop can raise. -/
theorem encodeLoop_err (code : Sym → Option Bits) (cap : Nat) (t : List Sym) (i : Nat) (out : Bits) :
    ((encodeLoop code cap t i out).2.map Prod.fst).getD .none
      ∈ ([.none, .unknownSymbol, .outOverflow] : List ErrCode) := by
  induction t generalizing i out with
  | nil => simp [encodeLoop]
  | cons y t ih =>
    simp only [encodeLoop]
    split
    · simp
    · split
      · simp
      · exact ih _ _

/-! ### The decoder's loop -/

namespace Eng

theorem descend_append (e : Eng) (n : Nat) (p q : Bits) :
    e.descend n (p ++ q) = (e.descend n p).bind fun m => e.descend m q := by
  induction p generalizing n with
  | nil => rfl
  | cons b p ih =>
    simp only [List.cons_append, descend]
    cases e.nodes[n]?.bind (·.branch? b) with
    | none => rfl
    | some m => exact ih m

/-- A node with a branch is no Leaf. -/
theorem leafAt_eq_none_of_branch (e : Eng) {n m : Nat} {b : Bool}
    (h : e.nodes[n]?.bind (·.branch? b) = some m) : e.leafAt n = none := by
  unfold leafAt
  cases hn : e.nodes[n]? with
  | none => rfl
  | some x =>
    cases x with
    | leaf y w => simp [hn, Node.branch?] at h
    | internal w z o => rfl

theorem moveOn_eq (e : Eng) {n m : Nat} {b : Bool} (h : e.nodes[n]?.bind (·.branch? b) = some m) :
    e.moveOn n b = m := by simp [moveOn, h]

end Eng

/-- The automaton reads a whole path to a Leaf: it emits the symbol and is back at the root (R111). -/
theorem decodeLoop_path (e : Eng) (maxLen : Nat) (p : Bits) (rest : List (Option Bool)) (i : Nat)
    (out : List Sym) (cur start m : Nat) (y : Sym) (hroot : e.leafAt e.root = none) (hp : p ≠ [])
    (hd : e.descend cur p = some m) (hy : e.leafAt m = some y) (hlen : out.length ≠ maxLen) :
    decodeLoop e maxLen (p.map some ++ rest) i out cur start
      = decodeLoop e maxLen rest (i + p.length) (out ++ [y]) e.root (i + p.length) := by
  induction p generalizing i cur with
  | nil => exact absurd rfl hp
  | cons b p ih =>
    simp only [Eng.descend] at hd
    cases hb : e.nodes[cur]?.bind (·.branch? b) with
    | none => rw [hb] at hd; cases hd
    | some n =>
      rw [hb] at hd
      simp only [List.map_cons, List.cons_append, decodeLoop, hroot, e.moveOn_eq hb]
      cases p with
      | nil =>
        obtain rfl : n = m := by simpa [Eng.descend] using hd
        simp [hy, hlen]
      | cons c p =>
        have hn : e.leafAt n = none := by
          simp only [Eng.descend] at hd
          cases hc : e.nodes[n]?.bind (·.branch? c) with
          | none => rw [hc] at hd; cases hd
          | some k => exact e.leafAt_eq_none_of_branch hc
        rw [hn]
        have := ih (i + 1) n (by simp) hd
        simp only [List.map_cons, List.length_cons] at this ⊢
        rw [this, show i + 1 + (p.length + 1) = i + (p.length + 1 + 1) by omega]

/-- The automaton reads a path that ends at no Leaf: it stands there, in the middle of a code. -/
theorem decodeLoop_inside (e : Eng) (maxLen : Nat) (p : Bits) (rest : List (Option Bool)) (i : Nat)
    (out : List Sym) (cur start m : Nat) (hroot : e.leafAt e.root = none)
    (hd : e.descend cur p = some m) (hm : e.leafAt m = none) :
    decodeLoop e maxLen (p.map some ++ rest) i out cur start
      = decodeLoop e maxLen rest (i + p.length) out m start := by
  induction p generalizing i cur with
  | nil =>
    obtain rfl : cur = m := by simpa [Eng.descend] using hd
    rfl
  | cons b p ih =>
    simp only [Eng.descend] at hd
    cases hb : e.nodes[cur]?.bind (·.branch? b) with
    | none => rw [hb] at hd; cases hd
    | some n =>
      rw [hb] at hd
      have hn : e.leafAt n = none := by
        cases p with
        | nil =>
          obtain rfl : n = m := by simpa [Eng.descend] using hd
          exact hm
        | cons c p =>
          simp only [Eng.descend] at hd
          cases hc : e.nodes[n]?.bind (·.branch? c) with
          | none => rw [hc] at hd; cases hd
          | some k => exact e.leafAt_eq_none_of_branch hc
      simp only [List.map_cons, List.cons_append, decodeLoop, hroot, e.moveOn_eq hb, hn]
      rw [ih (i + 1) n hd]
      simp [Nat.add_comm, Nat.add_left_comm]

/-- With a Leaf at the root every bit emits its symbol (R116). -/
theorem decodeLoop_leafRoot (e : Eng) (maxLen : Nat) (bs : Bits) (rest : List (Option Bool)) (i : Nat)
    (out : List Sym) (cur start : Nat) (y : Sym) (hroot : e.leafAt e.root = some y)
    (hlen : out.length + bs.length ≤ maxLen) :
    decodeLoop e maxLen (bs.map some ++ rest) i out cur start
      = decodeLoop e maxLen rest (i + bs.length) (out ++ List.replicate bs.length y) cur
          (if bs = [] then start else i + bs.length) := by
  induction bs generalizing i out start with
  | nil => simp
  | cons b bs ih =>
    simp only [List.length_cons] at hlen
    simp only [List.map_cons, List.cons_append, decodeLoop, hroot]
    rw [if_neg (by omega), ih (i + 1) (out ++ [y]) (i + 1) (by simp; omega)]
    have : i + 1 + bs.length = i + (bs.length + 1) := by omega
    cases bs <;> simp_all [List.replicate_succ]

/-- The output never passes the capacity. -/
theorem decodeLoop_length_le (e : Eng) (maxLen : Nat) (bs : List (Option Bool)) (i : Nat) (out : List Sym)
    (cur start : Nat) (h : out.length ≤ maxLen) : (decodeLoop e maxLen bs i out cur start).1.length ≤ maxLen := by
  induction bs generalizing i out cur start with
  | nil => simp only [decodeLoop]; split <;> exact h
  | cons b bs ih =>
    cases b with
    | none => exact h
    | some b =>
      simp only [decodeLoop]
      split
      · split
        · exact h
        · exact ih _ _ _ _ (by simp only [List.length_append, List.length_singleton]; omega)
      · split
        · split
          · exact h
          · exact ih _ _ _ _ (by simp only [List.length_append, List.length_singleton]; omega)
        · exact ih _ _ _ _ h

/-- Every symbol the decoder emits is the symbol of a Leaf. -/
theorem decodeLoop_mem (e : Eng) (maxLen : Nat) (bs : List (Option Bool)) (i : Nat) (out : List Sym)
    (cur start : Nat) {y : Sym} (h : y ∈ (decodeLoop e maxLen bs i out cur start).1) :
    y ∈ out ∨ ∃ n, e.leafAt n = some y := by
  induction bs generalizing i out cur start with
  | nil => simp only [decodeLoop] at h; split at h <;> exact .inl h
  | cons b bs ih =>
    cases b with
    | none => exact .inl h
    | some b =>
      simp only [decodeLoop] at h
      split at h
      · next s hs =>
        split at h
        · exact .inl h
        · rcases ih _ _ _ _ h with h | h
          · rcases List.mem_append.1 h with h | h
            · exact .inl h
            · exact .inr ⟨_, by rw [List.mem_singleton.1 h]; exact hs⟩
          · exact .inr h
      · split at h
        · next s hs =>
          split at h
          · exact .inl h
          · rcases ih _ _ _ _ h with h | h
            · rcases List.mem_append.1 h with h | h
              · exact .inl h
              · exact .inr ⟨_, by rw [List.mem_singleton.1 h]; exact hs⟩
            · exact .inr h
        · exact ih _ _ _ _ h

/-- The decoder's loop depends on the nodes and the root of ENG only. -/
theorem decodeLoop_congr {e e' : Eng} (hn : e.nodes = e'.nodes) (hr : e.root = e'.root) (maxLen : Nat)
    (bs : List (Option Bool)) (i : Nat) (out : List Sym) (cur start : Nat) :
    decodeLoop e maxLen bs i out cur start = decodeLoop e' maxLen bs i out cur start := by
  induction bs generalizing i out cur start with
  | nil => simp [decodeLoop, hr]
  | cons b bs ih =>
    cases b with
    | none => rfl
    | some b => simp only [decodeLoop, Eng.leafAt, Eng.moveOn, hn, hr, ih]

end Sys2Proof.Machine
end

