-- ==== Sys2Proof/Laws/Build.lean ====
section
/-! SUPPORT. What BUILD commits: the count phase, the merge phase (an invariant of the merge loop), the code phase,
and from them the invariants of 10_state.md R22 for every text. -/

namespace Sys2Proof.Machine

/-! ### Count phase -/

theorem bump_get? (f : List (Sym × Nat)) (s y : Sym) :
    (Table.get? (bump f s) y).getD 0 = (Table.get? f y).getD 0 + (if y = s then 1 else 0) := by
  simp only [bump, Table.get?_set]
  split
  · next h => simp [h]
  · simp

theorem bump_sum {f : List (Sym × Nat)} (h : Table.wf f) (s : Sym) :
    ((bump f s).map Prod.snd).sum = (f.map Prod.snd).sum + 1 := by
  suffices ∀ n, ((Table.set f s n).map Prod.snd).sum + (Table.get? f s).getD 0 = (f.map Prod.snd).sum + n by
    have := this ((Table.get? f s).getD 0 + 1)
    simp only [bump]
    omega
  intro n
  induction f with
  | nil => simp [Table.set, Table.get?]
  | cons x f ih =>
    obtain ⟨u, c⟩ := x
    simp only [Table.wf, List.map_cons, List.pairwise_cons] at h ih
    by_cases h1 : s < u
    · have hn : Table.get? f s = none := (Table.get?_eq_none_iff _ _).2 fun hm =>
        BitVec.lt_irrefl _ (BitVec.lt_trans h1 (h.1 _ hm))
      simp only [Table.set, h1, if_true, Table.get?, (BitVec.ne_of_lt h1), if_false, hn, List.map_cons,
        List.sum_cons, Option.getD_none]
      omega
    · by_cases h2 : s = u
      · subst h2
        simp only [Table.set, h1, if_false, if_true, Table.get?, List.map_cons, List.sum_cons, Option.getD_some]
        omega
      · have := ih h.2
        simp only [Table.set, h1, h2, if_false, Table.get?, List.map_cons, List.sum_cons]
        omega

/-- What counting a text on top of a table does. -/
theorem foldl_bump (t : List Sym) (f : List (Sym × Nat)) (hw : Table.wf f) (hp : ∀ x ∈ f, 1 ≤ x.2) :
    Table.wf (t.foldl bump f)
    ∧ (∀ x ∈ t.foldl bump f, 1 ≤ x.2)
    ∧ (∀ y, (Table.get? (t.foldl bump f) y).getD 0 = (Table.get? f y).getD 0 + t.count y)
    ∧ (∀ y, y ∈ (t.foldl bump f).map Prod.fst ↔ y ∈ f.map Prod.fst ∨ y ∈ t)
    ∧ ((t.foldl bump f).map Prod.snd).sum = (f.map Prod.snd).sum + t.length := by
  induction t generalizing f with
  | nil => exact ⟨hw, hp, by simp, by simp, by simp⟩
  | cons s t ih =>
    have hw' : Table.wf (bump f s) := Table.wf_set _ _ hw
    have hp' : ∀ x ∈ bump f s, 1 ≤ x.2 := by
      rintro ⟨y, n⟩ hx
      have hg := Table.get?_of_mem hw' hx
      simp only [bump, Table.get?_set] at hg
      split at hg
      · simp only [Option.some.injEq] at hg; simp only; omega
      · exact hp _ (Table.mem_of_get? hg)
    obtain ⟨i1, i2, i3, i4, i5⟩ := ih (bump f s) hw' hp'
    refine ⟨i1, i2, fun y => ?_, fun y => ?_, ?_⟩
    · rw [List.foldl_cons, i3, bump_get?, List.count_cons]
      by_cases h : y = s
      · subst h; simp; omega
      · simp [h, Ne.symm h]
    · rw [List.foldl_cons, i4, bump, Table.mem_keys_set, List.mem_cons]
      tauto
    · rw [List.foldl_cons, i5, bump_sum hw, List.length_cons]
      omega

theorem countFreq_wf (t : List Sym) : Table.wf (countFreq t) :=
  (foldl_bump t [] (by simp [Table.wf]) (by simp)).1

theorem countFreq_pos (t : List Sym) : ∀ x ∈ countFreq t, 1 ≤ x.2 :=
  (foldl_bump t [] (by simp [Table.wf]) (by simp)).2.1

/-- freq(y) is the number of occurrences of y (R88). -/
theorem countFreq_get? (t : List Sym) (y : Sym) : (Table.get? (countFreq t) y).getD 0 = t.count y := by
  simpa [countFreq, Table.get?] using (foldl_bump t [] (by simp [Table.wf]) (by simp)).2.2.1 y

/-- The table has an entry exactly for the symbols of the text (R88). -/
theorem mem_countFreq (t : List Sym) (y : Sym) : y ∈ (countFreq t).map Prod.fst ↔ y ∈ t := by
  simpa [countFreq] using (foldl_bump t [] (by simp [Table.wf]) (by simp)).2.2.2.1 y

/-- The counts sum to the length of the text (R88). -/
theorem countFreq_sum (t : List Sym) : ((countFreq t).map Prod.snd).sum = t.length := by
  simpa [countFreq] using (foldl_bump t [] (by simp [Table.wf]) (by simp)).2.2.2.2

theorem nodup_keys {β : Type} {l : List (Sym × β)} (h : Table.wf l) : (l.map Prod.fst).Nodup :=
  h.imp fun hab => BitVec.ne_of_lt hab

/-- The number of entries is the number of distinct symbols. -/
theorem length_countFreq (t : List Sym) : (countFreq t).length = t.dedup.length := by
  have hp : ((countFreq t).map Prod.fst).Perm t.dedup :=
    (List.perm_ext_iff_of_nodup (nodup_keys (countFreq_wf t)) t.nodup_dedup).2 fun y => by
      rw [mem_countFreq, List.mem_dedup]
  simpa using hp.length_eq

/-- Two texts in which every symbol occurs equally often have one frequency table (R100). -/
theorem countFreq_congr {t t' : List Sym} (h : ∀ y, t.count y = t'.count y) : countFreq t = countFreq t' := by
  refine Table.ext (countFreq_wf t) (countFreq_wf t') fun y => ?_
  have hc := h y
  rw [← countFreq_get?, ← countFreq_get?] at hc
  have hpos : ∀ (u : List Sym) (n : Nat), Table.get? (countFreq u) y = some n → 1 ≤ n := fun u n hn =>
    countFreq_pos u _ (Table.mem_of_get? hn)
  cases h1 : Table.get? (countFreq t) y with
  | none =>
    cases h2 : Table.get? (countFreq t') y with
    | none => rfl
    | some m => have := hpos _ _ h2; simp [h1, h2] at hc; omega
  | some n =>
    cases h2 : Table.get? (countFreq t') y with
    | none => have := hpos _ _ h1; simp [h1, h2] at hc; omega
    | some m => simpa [h1, h2] using hc

/-! ### The least key -/

theorem Key.le_refl (a : Key) : Key.le a a = true := by simp [Key.le]

theorem Key.le_trans {a b c : Key} (h1 : Key.le a b = true) (h2 : Key.le b c = true) : Key.le a c = true := by
  simp only [Key.le, Bool.or_eq_true, decide_eq_true_eq, Bool.and_eq_true, beq_iff_eq] at *
  omega

theorem Key.le_total {a b : Key} (h : ¬ Key.le a b = true) : Key.le b a = true := by
  simp only [Key.le, Bool.or_eq_true, decide_eq_true_eq, Bool.and_eq_true, beq_iff_eq] at *
  omega

theorem minLex_mem (x : Key) (q : List Key) : minLex x q ∈ x :: q := by
  induction q generalizing x with
  | nil => simp [minLex]
  | cons y q ih =>
    simp only [minLex]
    split
    · rcases List.mem_cons.1 (ih x) with h | h
      · rw [h]; simp
      · exact List.mem_cons_of_mem _ (List.mem_cons_of_mem _ h)
    · exact List.mem_cons_of_mem _ (ih y)

/-- `minLex` is the least key under (weight, seq) (R90). -/
theorem minLex_le (x : Key) (q : List Key) : ∀ y ∈ x :: q, Key.le (minLex x q) y = true := by
  induction q generalizing x with
  | nil => simp [minLex, Key.le_refl]
  | cons y q ih =>
    intro z hz
    simp only [minLex]
    split
    · next h =>
      rcases List.mem_cons.1 hz with rfl | hz
      · exact ih _ _ (by simp)
      · rcases List.mem_cons.1 hz with rfl | hz
        · exact Key.le_trans (ih x x (by simp)) h
        · exact ih _ _ (List.mem_cons_of_mem _ hz)
    · next h =>
      rcases List.mem_cons.1 hz with rfl | hz
      · exact Key.le_trans (ih y y (by simp)) (Key.le_total h)
      · exact ih _ _ hz

/-- One round of the merge loop (R91): the two least keys `a` and `b`, in removal order, leave the structure, and
their parent enters it with the next seq. -/
theorem mergeLoop_step (fuel : Nat) (nodes : List Node) (x y : Key) (q : List Key) :
    ∃ a b r, (x :: y :: q).Perm (a :: b :: r) ∧ (∀ z ∈ b :: r, Key.le a z = true) ∧ (∀ z ∈ r, Key.le b z = true)
      ∧ mergeLoop (fuel + 1) nodes (x :: y :: q)
          = mergeLoop fuel (nodes ++ [.internal (a.1 + b.1) a.2 b.2]) (r ++ [(a.1 + b.1, nodes.length)]) := by
  set a := minLex x (y :: q) with ha
  have hmem : a ∈ x :: y :: q := minLex_mem x (y :: q)
  have hp : (x :: y :: q).Perm (a :: (x :: y :: q).erase a) := List.perm_cons_erase hmem
  cases he : (x :: y :: q).erase a with
  | nil =>
    have := hp.length_eq
    simp [he] at this
  | cons z r =>
    have hmem2 : minLex z r ∈ z :: r := minLex_mem z r
    have hp2 : (z :: r).Perm (minLex z r :: (z :: r).erase (minLex z r)) := List.perm_cons_erase hmem2
    refine ⟨a, minLex z r, (z :: r).erase (minLex z r), ?_, fun u hu => ?_, fun u hu => ?_, ?_⟩
    · exact hp.trans (by rw [he]; exact hp2.cons a)
    · exact minLex_le x (y :: q) u (hp.mem_iff.2 (List.mem_cons_of_mem _ (by rw [he]; exact hp2.mem_iff.2 hu)))
    · exact minLex_le z r u (List.mem_of_mem_erase hu)
    · simp only [mergeLoop, ← ha, he]

/-! ### The merge loop's invariant -/

/-- The weight of node `i` in a node table. -/
def wAt (nodes : List Node) (i : Nat) : Nat := (nodes[i]?.map Node.weight).getD 0

@[simp] theorem Eng.weightAt_eq (e : Eng) (i : Nat) : e.weightAt i = wAt e.nodes i := rfl

/-- Strict order of nodes by (weight, index) (R90). -/
def keyLt (nodes : List Node) (i j : Nat) : Prop :=
  wAt nodes i < wAt nodes j ∨ (wAt nodes i = wAt nodes j ∧ i < j)

/-- Node `i` is Internal with branches below it, different, whose weights add up to its own. -/
def innerOk (nodes : List Node) (i : Nat) : Prop :=
  ∃ z o, nodes[i]? = some (.internal (wAt nodes z + wAt nodes o) z o) ∧ z < i ∧ o < i ∧ z ≠ o

/-- Every child index of a node table. -/
def childList (nodes : List Node) : List Nat := nodes.flatMap Eng.childrenOf

theorem Eng.children_eq (e : Eng) : e.children = childList e.nodes := rfl

theorem Eng.internalOk_iff (e : Eng) (i : Nat) : e.internalOk i = true ↔ innerOk e.nodes i := by
  unfold Eng.internalOk innerOk
  cases h : e.nodes[i]? with
  | none => simp
  | some n =>
    cases n with
    | leaf s w => simp
    | internal w z o =>
      simp only [Eng.weightAt_eq, Bool.and_eq_true, decide_eq_true_eq, bne_iff_ne, ne_eq, beq_iff_eq,
        Option.some.injEq, Node.internal.injEq]
      constructor
      · rintro ⟨⟨⟨h1, h2⟩, h3⟩, h4⟩
        exact ⟨z, o, ⟨h4, rfl, rfl⟩, h1, h2, h3⟩
      · rintro ⟨z', o', ⟨h4, rfl, rfl⟩, h1, h2, h3⟩
        exact ⟨⟨⟨h1, h2⟩, h3⟩, h4⟩

theorem wAt_append {nodes : List Node} {i : Nat} (n : Node) (h : i < nodes.length) :
    wAt (nodes ++ [n]) i = wAt nodes i := by
  simp [wAt, List.getElem?_append_left h]

theorem wAt_last (nodes : List Node) (n : Node) : wAt (nodes ++ [n]) nodes.length = n.weight := by
  simp [wAt]

/-- What holds of the node table and the structure before every round of the merge loop: `leaves` are the seeded
leaves and `total` the sum of their weights. -/
structure LoopInv (leaves : List Node) (total : Nat) (nodes : List Node) (q : List Key) : Prop where
  keys : ∀ x ∈ q, wAt nodes x.2 = x.1
  indices : (childList nodes ++ q.map Prod.snd).Perm (List.range nodes.length)
  size : nodes.length + q.length = 2 * leaves.length
  sum : (q.map Prod.fst).sum = total
  seeded : nodes.take leaves.length = leaves
  inner : ∀ i, i < nodes.length → leaves.length ≤ i → innerOk nodes i
  pos : ∀ i, i < nodes.length → 0 < wAt nodes i
  sorted : (childList nodes).Pairwise (keyLt nodes)
  below : ∀ c ∈ childList nodes, ∀ x ∈ q, keyLt nodes c x.2

namespace LoopInv

variable {leaves : List Node} {total : Nat} {nodes : List Node} {q : List Key}

theorem child_lt (h : LoopInv leaves total nodes q) {c : Nat} (hc : c ∈ childList nodes) : c < nodes.length :=
  List.mem_range.1 (h.indices.mem_iff.1 (List.mem_append_left _ hc))

theorem key_lt (h : LoopInv leaves total nodes q) {x : Key} (hx : x ∈ q) : x.2 < nodes.length :=
  List.mem_range.1 (h.indices.mem_iff.1 (List.mem_append_right _ (List.mem_map_of_mem (f := Prod.snd) hx)))

theorem nodup (h : LoopInv leaves total nodes q) : (childList nodes ++ q.map Prod.snd).Nodup :=
  h.indices.nodup_iff.2 List.nodup_range

theorem perm (h : LoopInv leaves total nodes q) {r : List Key} (hp : q.Perm r) : LoopInv leaves total nodes r where
  keys x hx := h.keys x (hp.mem_iff.2 hx)
  indices := (List.Perm.append_left _ (hp.map Prod.snd)).symm.trans h.indices
  size := by rw [← hp.length_eq]; exact h.size
  sum := by rw [← h.sum]; exact (hp.map Prod.fst).sum_eq.symm
  seeded := h.seeded
  inner := h.inner
  pos := h.pos
  sorted := h.sorted
  below c hc x hx := h.below c hc x (hp.mem_iff.2 hx)

/-- A key that is least is strictly below the others. -/
theorem keyLt_of_le (h : LoopInv leaves total nodes q) {x y : Key} (hx : x ∈ q) (hy : y ∈ q) (hne : x.2 ≠ y.2)
    (hle : Key.le x y = true) : keyLt nodes x.2 y.2 := by
  have h1 := h.keys x hx
  have h2 := h.keys y hy
  simp only [Key.le, Bool.or_eq_true, decide_eq_true_eq, Bool.and_eq_true, beq_iff_eq] at hle
  unfold keyLt
  omega

/-- One round of the merge keeps the invariant. -/
theorem round {a b : Key} {r : List Key} (h : LoopInv leaves total nodes (a :: b :: r))
    (hn : leaves.length ≤ nodes.length)
    (ha : ∀ z ∈ b :: r, Key.le a z = true) (hb : ∀ z ∈ r, Key.le b z = true) :
    LoopInv leaves total (nodes ++ [.internal (a.1 + b.1) a.2 b.2]) (r ++ [(a.1 + b.1, nodes.length)]) := by
  set n : Node := .internal (a.1 + b.1) a.2 b.2 with hnode
  have hal : a.2 < nodes.length := h.key_lt (by simp)
  have hbl : b.2 < nodes.length := h.key_lt (by simp)
  have hrl : ∀ x ∈ r, x.2 < nodes.length := fun x hx => h.key_lt (by simp [hx])
  have hak : wAt nodes a.2 = a.1 := h.keys a (by simp)
  have hbk : wAt nodes b.2 = b.1 := h.keys b (by simp)
  have hnd := h.nodup
  have hnd2 : (a.2 :: b.2 :: r.map Prod.snd).Nodup := by
    have := (List.nodup_append.1 hnd).2.1
    simpa using this
  have hab : a.2 ≠ b.2 := fun he => by simp [he] at hnd2
  have har : ∀ x ∈ r, a.2 ≠ x.2 := fun x hx he => by
    have := (List.nodup_cons.1 hnd2).1
    exact this (List.mem_cons_of_mem _ (he ▸ List.mem_map_of_mem (f := Prod.snd) hx))
  have hbr : ∀ x ∈ r, b.2 ≠ x.2 := fun x hx he => by
    have := (List.nodup_cons.1 (List.nodup_cons.1 hnd2).2).1
    exact this (he ▸ List.mem_map_of_mem (f := Prod.snd) hx)
  have hch : childList (nodes ++ [n]) = childList nodes ++ [a.2, b.2] := by
    simp [childList, hnode, Eng.childrenOf]
  have hlast : wAt (nodes ++ [n]) nodes.length = a.1 + b.1 := by rw [wAt_last, hnode]; rfl
  have hw : ∀ {i}, i < nodes.length → wAt (nodes ++ [n]) i = wAt nodes i := fun hi => wAt_append n hi
  have hk : ∀ {i j}, i < nodes.length → j < nodes.length → keyLt nodes i j → keyLt (nodes ++ [n]) i j :=
    fun hi hj hlt => by unfold keyLt at *; rw [hw hi, hw hj]; exact hlt
  have hapos : 0 < a.1 := hak ▸ h.pos _ hal
  have hbpos : 0 < b.1 := hbk ▸ h.pos _ hbl
  have hkab : keyLt nodes a.2 b.2 := h.keyLt_of_le (by simp) (by simp) hab (ha b (by simp))
  have hle : a.1 ≤ b.1 := by unfold keyLt at hkab; omega
  have hnew : ∀ i, i < nodes.length → wAt nodes i ≤ b.1 → keyLt (nodes ++ [n]) i nodes.length := fun i hi hwi => by
    unfold keyLt; rw [hw hi, hlast]; omega
  refine ⟨?_, ?_, ?_, ?_, ?_, ?_, ?_, ?_, ?_⟩
  · intro x hx
    rcases List.mem_append.1 hx with hx | hx
    · rw [hw (hrl x hx)]; exact h.keys x (by simp [hx])
    · rw [List.mem_singleton.1 hx]; exact hlast
  · rw [hch, List.length_append, List.length_singleton, List.range_succ]
    have hidx := h.indices
    simp only [List.map_cons] at hidx
    simp only [List.map_append, List.map_cons, List.map_nil]
    calc childList nodes ++ [a.2, b.2] ++ (r.map Prod.snd ++ [nodes.length])
        = (childList nodes ++ a.2 :: b.2 :: r.map Prod.snd) ++ [nodes.length] := by simp
      _ |>.Perm (List.range nodes.length ++ [nodes.length]) := List.Perm.append_right _ hidx
  · have := h.size
    simp only [List.length_cons, List.length_append, List.length_nil] at *
    omega
  · have := h.sum
    simp only [List.map_cons, List.sum_cons, List.map_append, List.sum_append, List.map_nil, List.sum_nil] at *
    omega
  · rw [List.take_append_of_le_length hn]; exact h.seeded
  · intro i hi hik
    simp only [List.length_append, List.length_singleton] at hi
    by_cases hil : i < nodes.length
    · obtain ⟨z, o, h1, h2, h3, h4⟩ := h.inner i hil hik
      refine ⟨z, o, ?_, h2, h3, h4⟩
      rw [List.getElem?_append_left hil, h1, hw (by omega), hw (by omega)]
    · obtain rfl : i = nodes.length := by omega
      exact ⟨a.2, b.2, by rw [hw hal, hw hbl, hak, hbk]; simp [hnode], hal, hbl, hab⟩
  · intro i hi
    simp only [List.length_append, List.length_singleton] at hi
    by_cases hil : i < nodes.length
    · rw [hw hil]; exact h.pos i hil
    · obtain rfl : i = nodes.length := by omega
      rw [hlast]; omega
  · rw [hch, List.pairwise_append]
    refine ⟨h.sorted.imp_of_mem fun hc hd hlt => hk (h.child_lt hc) (h.child_lt hd) hlt, ?_, ?_⟩
    · simpa using hk hal hbl hkab
    · intro c hc d hd
      simp only [List.mem_cons, List.not_mem_nil, or_false] at hd
      rcases hd with rfl | rfl
      · exact hk (h.child_lt hc) hal (h.below c hc a (by simp))
      · exact hk (h.child_lt hc) hbl (h.below c hc b (by simp))
  · intro c hc x hx
    rw [hch] at hc
    rcases List.mem_append.1 hx with hx | hx
    · rcases List.mem_append.1 hc with hc | hc
      · exact hk (h.child_lt hc) (hrl x hx) (h.below c hc x (by simp [hx]))
      · simp only [List.mem_cons, List.not_mem_nil, or_false] at hc
        rcases hc with rfl | rfl
        · exact hk hal (hrl x hx) (h.keyLt_of_le (by simp) (by simp [hx]) (har x hx) (ha x (by simp [hx])))
        · exact hk hbl (hrl x hx) (h.keyLt_of_le (by simp) (by simp [hx]) (hbr x hx) (hb x hx))
    · rw [List.mem_singleton.1 hx]
      rcases List.mem_append.1 hc with hc | hc
      · refine hnew c (h.child_lt hc) ?_
        have := h.below c hc b (by simp)
        unfold keyLt at this
        omega
      · simp only [List.mem_cons, List.not_mem_nil, or_false] at hc
        rcases hc with rfl | rfl
        · exact hnew _ hal (by omega)
        · exact hnew _ hbl (by omega)

/-- The merge loop ends with the root alone in the structure (R92). -/
theorem loop (fuel : Nat) : ∀ {nodes : List Node} {q : List Key}, LoopInv leaves total nodes q →
    leaves.length ≤ nodes.length → q ≠ [] → q.length ≤ fuel →
    ∃ x : Key, LoopInv leaves total (mergeLoop fuel nodes q).1 [x] ∧ (mergeLoop fuel nodes q).2 = x.2
      ∧ leaves.length ≤ (mergeLoop fuel nodes q).1.length := by
  induction fuel with
  | zero =>
    intro nodes q _ _ hne hf
    exact absurd (List.length_eq_zero_iff.1 (Nat.le_zero.1 hf)) hne
  | succ fuel ih =>
    intro nodes q h hn hne hf
    match q, h, hne, hf with
    | [], _, hne, _ => exact absurd rfl hne
    | [x], h, _, _ => exact ⟨x, h, rfl, hn⟩
    | x :: y :: q, h, _, hf =>
      obtain ⟨a, b, r, hp, ha, hb, heq⟩ := mergeLoop_step fuel nodes x y q
      have hlen := hp.length_eq
      simp only [List.length_cons] at hlen hf
      rw [heq]
      exact ih ((h.perm hp).round hn ha hb) (by rw [List.length_append]; omega) (by simp) (by simp; omega)

end LoopInv

/-- The seeded leaves and their keys meet the invariant (R89). -/
theorem seed_inv (freq : List (Sym × Nat)) (hp : ∀ x ∈ freq, 1 ≤ x.2) :
    LoopInv (seedLeaves freq) (freq.map Prod.snd).sum (seedLeaves freq) (seedKeys freq) := by
  have hch : childList (seedLeaves freq) = [] := by
    simp only [childList, seedLeaves, List.flatMap_eq_nil_iff, List.mem_map]
    rintro _ ⟨x, -, rfl⟩
    rfl
  have hget : ∀ i : Nat, (seedLeaves freq)[i]? = freq[i]?.map fun e => Node.leaf e.1 e.2 := fun i => by
    simp [seedLeaves]
  have hwt : ∀ i, wAt (seedLeaves freq) i = (freq[i]?.map Prod.snd).getD 0 := fun i => by
    rw [wAt, hget]; cases freq[i]? <;> rfl
  refine ⟨?_, ?_, ?_, ?_, ?_, ?_, ?_, ?_, ?_⟩
  · intro x hx
    simp only [seedKeys, List.mem_map] at hx
    obtain ⟨⟨e, i⟩, hmem, rfl⟩ := hx
    have := List.mem_zipIdx_iff_getElem?.1 hmem
    simp only at this
    rw [hwt, this]; rfl
  · rw [hch]
    have hsnd : (seedKeys freq).map Prod.snd = List.range (seedLeaves freq).length := by
      simp only [seedKeys, List.map_map, seedLeaves, List.length_map]
      rw [show ((Prod.snd : Key → Nat) ∘ fun e : (Sym × Nat) × Nat => (e.1.2, e.2)) = Prod.snd from rfl]
      rw [List.zipIdx_map_snd, List.range_eq_range']
    rw [List.nil_append, hsnd]
  · simp [seedLeaves, seedKeys]; omega
  · simp only [seedKeys, List.map_map]
    congr 1
    rw [show ((Prod.fst : Key → Nat) ∘ fun e : (Sym × Nat) × Nat => (e.1.2, e.2)) = Prod.snd ∘ Prod.fst from rfl,
      ← List.map_map, List.zipIdx_map_fst]
  · simp
  · intro i h1 h2; omega
  · intro i hi
    simp only [seedLeaves, List.length_map] at hi
    rw [hwt, List.getElem?_eq_getElem hi]
    exact hp _ (List.getElem_mem hi)
  · rw [hch]; exact List.Pairwise.nil
  · intro c hc; rw [hch] at hc; simp at hc

end Sys2Proof.Machine
end

