-- ==== Sys2Proof/Laws/Tree.lean ====
section
/-! SUPPORT. Paths in a committed tree: they fall, they are unique, they reach every node; and from these the code
table, and the invariants of 10_state.md R22 for the ENG that BUILD commits. -/

namespace Sys2Proof.Machine

/-- The shape of a committed node table (R22): `k` leaves, then Internal nodes whose branches lie below them, and
every index below the last exactly once a child. -/
structure Shape (nodes : List Node) (k : Nat) : Prop where
  one_le : 1 ≤ k
  length : nodes.length = 2 * k - 1
  leaf : ∀ i, i < k → ∃ y w, nodes[i]? = some (.leaf y w)
  inner : ∀ i, i < nodes.length → k ≤ i → innerOk nodes i
  once : ∀ j, j < 2 * k - 2 → (childList nodes).count j = 1

namespace Shape

variable {e : Eng} {k : Nat}

/-- A branch leads to a lower index, from an Internal node. -/
theorem branch (h : Shape e.nodes k) {n m : Nat} {b : Bool} (hb : e.nodes[n]?.bind (·.branch? b) = some m) :
    k ≤ n ∧ n < e.nodes.length ∧ m < n := by
  by_cases hn : n < e.nodes.length
  · by_cases hk : k ≤ n
    · obtain ⟨z, o, h1, h2, h3, -⟩ := h.inner n hn hk
      rw [h1] at hb
      refine ⟨hk, hn, ?_⟩
      cases b <;> simp [Node.branch?] at hb <;> omega
    · obtain ⟨y, w, h1⟩ := h.leaf n (by omega)
      rw [h1] at hb
      simp [Node.branch?] at hb
  · rw [List.getElem?_eq_none (by omega)] at hb
    cases hb

/-- A path that is not empty falls; a path of L bits to a Leaf leaves from a node with at least L Internal nodes at
or below it. -/
theorem descend_le (h : Shape e.nodes k) {n m : Nat} {p : Bits} (hd : e.descend n p = some m) :
    m + p.length ≤ n ∧ (p ≠ [] → k + p.length ≤ n + 1) := by
  induction p generalizing n with
  | nil =>
    obtain rfl : n = m := by simpa [Eng.descend] using hd
    simp
  | cons b p ih =>
    simp only [Eng.descend] at hd
    cases hb : e.nodes[n]?.bind (·.branch? b) with
    | none => rw [hb] at hd; cases hd
    | some j =>
      rw [hb] at hd
      obtain ⟨h1, h2, h3⟩ := h.branch hb
      obtain ⟨i1, i2⟩ := ih hd
      refine ⟨by simp only [List.length_cons]; omega, fun _ => ?_⟩
      cases p with
      | nil => simp only [List.length_cons, List.length_nil]; omega
      | cons c p => have := i2 (by simp); simp only [List.length_cons] at *; omega

/-- A node that is a child has one parent and one branch. -/
theorem parent_unique (h : Shape e.nodes k) {i j m : Nat} {b c : Bool}
    (hi : e.nodes[i]?.bind (·.branch? b) = some m) (hj : e.nodes[j]?.bind (·.branch? c) = some m) :
    i = j ∧ b = c := by
  obtain ⟨hki, hli, hmi⟩ := h.branch hi
  obtain ⟨hkj, hlj, hmj⟩ := h.branch hj
  obtain ⟨zi, oi, hi1, hi2, hi3, hi4⟩ := h.inner i hli hki
  obtain ⟨zj, oj, hj1, hj2, hj3, hj4⟩ := h.inner j hlj hkj
  have hmem : ∀ {n z o w : Nat} {d : Bool}, e.nodes[n]? = some (.internal w z o) →
      e.nodes[n]?.bind (·.branch? d) = some m → m ∈ [z, o] := fun {n z o w d} hn hd => by
    rw [hn] at hd; cases d <;> simp_all [Node.branch?]
  have hcount : (childList e.nodes).count m = 1 := h.once m (by have := h.length; omega)
  have hij : i = j := by
    by_contra hne
    -- two different parents list m twice
    have key : ∀ {a b : Nat}, a < b → b < e.nodes.length → (∃ w z o, e.nodes[a]? = some (.internal w z o) ∧ m ∈ [z, o]) →
        (∃ w z o, e.nodes[b]? = some (.internal w z o) ∧ m ∈ [z, o]) → 2 ≤ (childList e.nodes).count m := by
      rintro a b hab hb ⟨w, z, o, ha1, ha2⟩ ⟨w', z', o', hb1, hb2⟩
      have hca : m ∈ childList (e.nodes.take b) := by
        refine List.mem_flatMap.2 ⟨.internal w z o, ?_, by simpa [Eng.childrenOf] using ha2⟩
        exact List.mem_iff_getElem?.2 ⟨a, by rw [List.getElem?_take_of_lt hab]; exact ha1⟩
      have hcb : m ∈ childList (e.nodes.drop b) := by
        refine List.mem_flatMap.2 ⟨.internal w' z' o', ?_, by simpa [Eng.childrenOf] using hb2⟩
        exact List.mem_iff_getElem?.2 ⟨0, by rw [List.getElem?_drop]; exact hb1⟩
      have hc : (childList e.nodes).count m
          = (childList (e.nodes.take b)).count m + (childList (e.nodes.drop b)).count m := by
        have hsplit : childList e.nodes = childList (e.nodes.take b) ++ childList (e.nodes.drop b) := by
          rw [childList, childList, childList, ← List.flatMap_append, List.take_append_drop]
        rw [hsplit, List.count_append]
      have h1 := List.count_pos_iff.2 hca
      have h2 := List.count_pos_iff.2 hcb
      omega
    rcases Nat.lt_or_gt_of_ne hne with hlt | hlt
    · have := key hlt hlj ⟨_, _, _, hi1, hmem hi1 hi⟩ ⟨_, _, _, hj1, hmem hj1 hj⟩; omega
    · have := key hlt hli ⟨_, _, _, hj1, hmem hj1 hj⟩ ⟨_, _, _, hi1, hmem hi1 hi⟩; omega
  subst hij
  refine ⟨rfl, ?_⟩
  rw [hi1] at hi hj
  cases b <;> cases c <;> simp_all [Node.branch?]

/-- A path from the root is determined by where it ends. -/
theorem path_unique (h : Shape e.nodes k) {r m : Nat} {p q : Bits} (hp : e.descend r p = some m)
    (hq : e.descend r q = some m) : p = q := by
  induction p using List.reverseRecOn generalizing q m with
  | nil =>
    have h1 : r = m := by simpa [Eng.descend] using hp
    have := (h.descend_le hq).1
    exact (List.length_eq_zero_iff.1 (by omega)).symm
  | append_singleton p b ih =>
    rcases List.eq_nil_or_concat q with rfl | ⟨q, c, rfl⟩
    · have h1 : r = m := by simpa [Eng.descend] using hq
      have := (h.descend_le hp).1
      simp at this
      omega
    · rw [List.concat_eq_append] at hq ⊢
      rw [Eng.descend_append] at hp hq
      cases hi : e.descend r p with
      | none => rw [hi] at hp; cases hp
      | some i =>
        cases hj : e.descend r q with
        | none => rw [hj] at hq; cases hq
        | some j =>
          rw [hi] at hp
          rw [hj] at hq
          simp only [Option.bind_some, Eng.descend] at hp hq
          cases hb : e.nodes[i]?.bind (·.branch? b) with
          | none => rw [hb] at hp; cases hp
          | some m1 =>
            cases hc : e.nodes[j]?.bind (·.branch? c) with
            | none => rw [hc] at hq; cases hq
            | some m2 =>
              rw [hb] at hp
              rw [hc] at hq
              simp only [Option.some.injEq] at hp hq
              subst hp
              subst hq
              obtain ⟨rfl, rfl⟩ := h.parent_unique hb hc
              rw [ih hi hj]

/-- Every node is reached from the root. -/
theorem reach (h : Shape e.nodes k) (d : Nat) : ∀ j, j + d = 2 * k - 2 → ∃ p, e.descend (2 * k - 2) p = some j := by
  induction d using Nat.strong_induction_on with
  | _ d ih =>
    intro j hj
    by_cases hd : d = 0
    · exact ⟨[], by simp [Eng.descend]; omega⟩
    · have hc := h.once j (by omega)
      have hm : j ∈ childList e.nodes := List.count_pos_iff.1 (by omega)
      obtain ⟨n, hn, hjn⟩ := List.mem_flatMap.1 hm
      obtain ⟨i, hi⟩ := List.mem_iff_getElem?.1 hn
      cases n with
      | leaf y w => simp [Eng.childrenOf] at hjn
      | internal w z o =>
        obtain ⟨b, hb⟩ : ∃ b, e.nodes[i]?.bind (·.branch? b) = some j := by
          simp only [Eng.childrenOf, List.mem_cons, List.not_mem_nil, or_false] at hjn
          rcases hjn with rfl | rfl
          · exact ⟨false, by rw [hi]; rfl⟩
          · exact ⟨true, by rw [hi]; rfl⟩
        obtain ⟨h1, h2, h3⟩ := h.branch hb
        have hlen := h.length
        obtain ⟨p, hp⟩ := ih (2 * k - 2 - i) (by omega) i (by omega)
        refine ⟨p ++ [b], ?_⟩
        rw [Eng.descend_append, hp]
        simp [Eng.descend, hb]

/-- The walk of R94 finds exactly the leaves below a node, with their paths. -/
theorem mem_walk (h : Shape e.nodes k) (fuel : Nat) : ∀ (n : Nat) (p : Bits), n < fuel → n < e.nodes.length →
    ∀ (y : Sym) (q : Bits), (y, q) ∈ walk fuel e.nodes n p ↔
      ∃ r, q = p ++ r ∧ (e.descend n r).bind e.leafAt = some y := by
  induction fuel with
  | zero => intro n _ hf; omega
  | succ fuel ih =>
    intro n p hf hn y q
    by_cases hk : k ≤ n
    · obtain ⟨z, o, h1, h2, h3, -⟩ := h.inner n hn hk
      simp only [walk, h1, List.mem_append, ih z _ (by omega) (by omega), ih o _ (by omega) (by omega)]
      constructor
      · rintro (⟨r, rfl, hr⟩ | ⟨r, rfl, hr⟩)
        · exact ⟨false :: r, by simp, by simpa [Eng.descend, h1, Node.branch?] using hr⟩
        · exact ⟨true :: r, by simp, by simpa [Eng.descend, h1, Node.branch?] using hr⟩
      · rintro ⟨r, rfl, hr⟩
        cases r with
        | nil => simp [Eng.descend, Eng.leafAt, h1, Node.symbol?] at hr
        | cons b r =>
          simp only [Eng.descend, h1, Option.bind_some, Node.branch?] at hr
          cases b
          · exact .inl ⟨r, by simp, by simpa using hr⟩
          · exact .inr ⟨r, by simp, by simpa using hr⟩
    · obtain ⟨y', w, h1⟩ := h.leaf n (by omega)
      simp only [walk, h1, List.mem_singleton, Prod.mk.injEq]
      constructor
      · rintro ⟨rfl, rfl⟩
        exact ⟨[], by simp, by simp [Eng.descend, Eng.leafAt, h1, Node.symbol?]⟩
      · rintro ⟨r, rfl, hr⟩
        cases r with
        | nil =>
          simp only [Eng.descend, Option.bind_some, Eng.leafAt, h1, Node.symbol?, Option.some.injEq] at hr
          simp [hr]
        | cons b r => simp [Eng.descend, h1, Node.branch?] at hr

end Shape

/-! ### The code table -/

/-- What recording a list of entries does, when every symbol comes with one value only. -/
theorem foldl_set {β : Type} (l acc : List (Sym × β)) (hw : Table.wf acc) :
    Table.wf (l.foldl (fun t x => Table.set t x.1 x.2) acc)
    ∧ (∀ y, y ∈ (l.foldl (fun t x => Table.set t x.1 x.2) acc).map Prod.fst ↔
        y ∈ acc.map Prod.fst ∨ y ∈ l.map Prod.fst)
    ∧ ∀ x, x ∈ l.foldl (fun t x => Table.set t x.1 x.2) acc → x ∈ acc ∨ x ∈ l := by
  induction l generalizing acc with
  | nil => exact ⟨hw, by simp, by simp⟩
  | cons a l ih =>
    obtain ⟨h1, h2, h3⟩ := ih (Table.set acc a.1 a.2) (Table.wf_set _ _ hw)
    refine ⟨h1, fun y => ?_, fun x hx => ?_⟩
    · rw [List.foldl_cons, h2, Table.mem_keys_set, List.map_cons, List.mem_cons]
      tauto
    · rcases h3 x hx with h | h
      · have hg := Table.get?_of_mem (Table.wf_set _ _ hw) (b := x.2) (s := x.1) h
        rw [Table.get?_set] at hg
        split at hg
        · next he =>
          refine .inr (List.mem_cons.2 (.inl ?_))
          simp only [Option.some.injEq] at hg
          exact Prod.ext he hg.symm
        · exact .inl (Table.mem_of_get? hg)
      · exact .inr (List.mem_cons_of_mem _ h)

/-- Two ascending lists with the same members are equal. -/
theorem eq_of_ascending {l l' : List Sym} (h : l.Pairwise (· < ·)) (h' : l'.Pairwise (· < ·))
    (hm : ∀ y, y ∈ l ↔ y ∈ l') : l = l' := by
  have hn : ∀ {k : List Sym}, k.Pairwise (· < ·) → k.Nodup := fun hk => hk.imp fun hab => BitVec.ne_of_lt hab
  refine ((List.perm_ext_iff_of_nodup (hn h) (hn h')).2 hm).eq_of_pairwise (le := (· < ·))
    (fun a b _ _ h1 h2 => absurd (BitVec.lt_trans h1 h2) (BitVec.lt_irrefl _)) h h'

/-- At most 2^SYM_W symbols are legal. -/
theorem length_le_nsymMax (c : Config) {l : List Sym} (h : l.Nodup) (hs : ∀ y ∈ l, y.toNat < c.nsymMax) :
    l.length ≤ c.nsymMax := by
  have hnd : (l.map BitVec.toNat).Nodup := h.map fun a b hab => BitVec.eq_of_toNat_eq hab
  have hsub : (l.map BitVec.toNat) ⊆ List.range c.nsymMax := fun n hn => by
    obtain ⟨y, hy, rfl⟩ := List.mem_map.1 hn
    exact List.mem_range.2 (hs y hy)
  simpa using (hnd.subperm hsub).length_le

/-- Every symbol has one Leaf. -/
theorem leafAt_freq {e : Eng} {k : Nat} (h : Shape e.nodes k) {freq : List (Sym × Nat)} (hf : freq.length = k)
    (hs : e.nodes.take k = seedLeaves freq) (i : Nat) (y : Sym) :
    e.leafAt i = some y ↔ i < k ∧ (freq.map Prod.fst)[i]? = some y := by
  by_cases hk : i < k
  · have h1 : e.nodes[i]? = (seedLeaves freq)[i]? := by rw [← hs, List.getElem?_take_of_lt hk]
    have h2 : i < freq.length := by omega
    simp [Eng.leafAt, h1, seedLeaves, hk, h2, Node.symbol?]
  · simp only [hk, false_and, iff_false]
    intro hl
    by_cases hi : i < e.nodes.length
    · obtain ⟨z, o, h1, -⟩ := h.inner i hi (by omega)
      simp [Eng.leafAt, h1, Node.symbol?] at hl
    · simp [Eng.leafAt, List.getElem?_eq_none (show e.nodes.length ≤ i by omega)] at hl

/-! ### The ENG that BUILD commits -/

/-- What the merge phase leaves (R92), for a table with at least one entry. -/
theorem mergeAll_spec {freq : List (Sym × Nat)} (hp : ∀ x ∈ freq, 1 ≤ x.2) (hne : freq ≠ []) :
    Shape (mergeAll freq).1 freq.length
    ∧ (mergeAll freq).2 = 2 * freq.length - 2
    ∧ (mergeAll freq).1.take freq.length = seedLeaves freq
    ∧ wAt (mergeAll freq).1 (2 * freq.length - 2) = (freq.map Prod.snd).sum
    ∧ (childList (mergeAll freq).1).Pairwise (keyLt (mergeAll freq).1) := by
  have hk : 1 ≤ freq.length := by
    cases freq with
    | nil => exact absurd rfl hne
    | cons x l => simp
  have hlen : (seedLeaves freq).length = freq.length := by simp [seedLeaves]
  have hkeys : (seedKeys freq).length = freq.length := by simp [seedKeys]
  obtain ⟨x, hinv, hroot, -⟩ := LoopInv.loop freq.length (seed_inv freq hp) (by omega)
    (fun h => by rw [h] at hkeys; simp at hkeys; omega) (by omega)
  have hm : mergeLoop freq.length (seedLeaves freq) (seedKeys freq) = mergeAll freq := rfl
  rw [hm] at hinv hroot
  have hsize := hinv.size
  simp only [List.length_singleton, hlen] at hsize
  have hidx := hinv.indices
  simp only [List.map_cons, List.map_nil] at hidx
  have hnd := hinv.nodup
  -- the last node is no child, so it is the one left in the structure
  have hlast : (mergeAll freq).1.length - 1 ∉ childList (mergeAll freq).1 := by
    intro hc
    obtain ⟨n, hn, hcn⟩ := List.mem_flatMap.1 hc
    obtain ⟨i, hi⟩ := List.mem_iff_getElem?.1 hn
    have hil : i < (mergeAll freq).1.length := (List.getElem?_eq_some_iff.1 hi).1
    cases n with
    | leaf y w => simp [Eng.childrenOf] at hcn
    | internal w z o =>
      have hki : freq.length ≤ i := by
        by_contra hlt
        have h1 : ((mergeAll freq).1.take freq.length)[i]? = some (.internal w z o) := by
          rw [List.getElem?_take_of_lt (by omega)]; exact hi
        have := hinv.seeded
        rw [hlen] at this
        rw [this] at h1
        simp [seedLeaves] at h1
      obtain ⟨z', o', h1, h2, h3, -⟩ := hinv.inner i hil (by omega)
      rw [hi] at h1
      simp only [Option.some.injEq, Node.internal.injEq] at h1
      simp only [Eng.childrenOf, List.mem_cons, List.not_mem_nil, or_false] at hcn
      omega
  have hx : x.2 = 2 * freq.length - 2 := by
    have : (mergeAll freq).1.length - 1 ∈ childList (mergeAll freq).1 ++ [x.2] :=
      hidx.mem_iff.2 (List.mem_range.2 (by omega))
    rcases List.mem_append.1 this with h | h
    · exact absurd h hlast
    · have := List.mem_singleton.1 h; omega
  refine ⟨⟨hk, by omega, fun i hi => ?_, fun i hi hki => hinv.inner i hi (by omega), fun j hj => ?_⟩, by omega, ?_,
    ?_, hinv.sorted⟩
  · have h1 : (mergeAll freq).1[i]? = (seedLeaves freq)[i]? := by
      rw [← hinv.seeded, List.getElem?_take_of_lt (by omega)]
    rw [h1]
    exact ⟨(freq[i]).1, (freq[i]).2, by simp [seedLeaves, hi]⟩
  · have hmem : j ∈ childList (mergeAll freq).1 ++ [x.2] := hidx.mem_iff.2 (List.mem_range.2 (by omega))
    have hjc : j ∈ childList (mergeAll freq).1 := by
      rcases List.mem_append.1 hmem with h | h
      · exact h
      · have := List.mem_singleton.1 h; omega
    exact List.count_eq_one_of_mem (List.nodup_append.1 hnd).1 hjc
  · have := hinv.seeded; rwa [hlen] at this
  · have h1 := hinv.keys x (by simp)
    have h2 := hinv.sum
    simp only [List.map_cons, List.map_nil, List.sum_cons, List.sum_nil, Nat.add_zero] at h2
    rw [← hx, h1, h2]

/-- The parts of the ENG that BUILD commits. -/
theorem buildEng_eq (t : List Sym) : buildEng t =
    { built := true, k := (countFreq t).length, total := t.length, root := (mergeAll (countFreq t)).2,
      freq := countFreq t, code := genCodes (mergeAll (countFreq t)).1 (mergeAll (countFreq t)).2,
      nodes := (mergeAll (countFreq t)).1 } := rfl

/-- The codes of a tree with an Internal root are the paths to its leaves, one per symbol (R94). -/
theorem genCodes_spec {e : Eng} {freq : List (Sym × Nat)} (h : Shape e.nodes freq.length) (hw : Table.wf freq)
    (hs : e.nodes.take freq.length = seedLeaves freq) (h2 : 2 ≤ freq.length) :
    Table.wf (genCodes e.nodes (2 * freq.length - 2))
    ∧ (genCodes e.nodes (2 * freq.length - 2)).map Prod.fst = freq.map Prod.fst
    ∧ ∀ x ∈ genCodes e.nodes (2 * freq.length - 2),
        (e.descend (2 * freq.length - 2) x.2).bind e.leafAt = some x.1 := by
  have hlen := h.length
  obtain ⟨z, o, hr, -⟩ := h.inner (2 * freq.length - 2) (by omega) (by omega)
  have hg : genCodes e.nodes (2 * freq.length - 2)
      = (walk (2 * freq.length - 2 + 1) e.nodes (2 * freq.length - 2) []).foldl
          (fun t x => Table.set t x.1 x.2) [] := by
    simp only [genCodes, hr]
  obtain ⟨f1, f2, f3⟩ := foldl_set (walk (2 * freq.length - 2 + 1) e.nodes (2 * freq.length - 2) []) []
    (by simp [Table.wf])
  rw [hg]
  have hwalk := h.mem_walk (2 * freq.length - 2 + 1) (2 * freq.length - 2) [] (by omega) (by omega)
  refine ⟨f1, eq_of_ascending f1 hw fun y => ?_, fun x hx => ?_⟩
  · rw [f2]
    simp only [List.map_nil, List.not_mem_nil, false_or, List.mem_map, Prod.exists, exists_and_right, exists_eq_right]
    constructor
    · rintro ⟨q, hq⟩
      obtain ⟨r, -, hd⟩ := (hwalk y q).1 hq
      cases hm : e.descend (2 * freq.length - 2) r with
      | none => rw [hm] at hd; cases hd
      | some m =>
        rw [hm] at hd
        have := ((leafAt_freq h rfl hs m y).1 hd).2
        have := List.mem_of_getElem? this
        simpa using this
    · rintro ⟨n, hn⟩
      obtain ⟨i, hi⟩ := List.mem_iff_getElem?.1 hn
      have hil : i < freq.length := (List.getElem?_eq_some_iff.1 hi).1
      obtain ⟨p, hp⟩ := h.reach (2 * freq.length - 2 - i) i (by omega)
      refine ⟨p, (hwalk y p).2 ⟨p, by simp, ?_⟩⟩
      rw [hp]
      exact (leafAt_freq h rfl hs i y).2 ⟨hil, by simp [hi]⟩
  · rcases f3 x hx with h' | h'
    · simp at h'
    · obtain ⟨r, h1, h2⟩ := (hwalk x.1 x.2).1 h'
      rw [h1]
      simpa using h2

/-- R22 for the ENG that a BUILD of a text commits. -/
theorem buildEng_treeOk (c : Config) (t : List Sym) (hne : t ≠ []) (hs : ∀ y ∈ t, y.toNat < c.nsymMax) :
    (buildEng t).TreeOk c := by
  have hfne : countFreq t ≠ [] := by
    obtain ⟨y, hy⟩ := List.exists_mem_of_ne_nil t hne
    have := (mem_countFreq t y).2 hy
    intro h
    simp [h] at this
  obtain ⟨hsh, hroot, hseed, hwt, hsort⟩ := mergeAll_spec (countFreq_pos t) hfne
  have hw := countFreq_wf t
  have hsym : ∀ y ∈ (countFreq t).map Prod.fst, y.toNat < c.nsymMax := fun y hy => hs y ((mem_countFreq t y).1 hy)
  have hkmax : (countFreq t).length ≤ c.nsymMax := by
    simpa using length_le_nsymMax c (nodup_keys hw) hsym
  have hsh' : Shape (buildEng t).nodes (countFreq t).length := hsh
  have hroot' : (buildEng t).root = 2 * (countFreq t).length - 2 := hroot
  refine ⟨hsh.one_le, rfl, hw, fun x hx => ⟨countFreq_pos t x hx, hsym _ (List.mem_map_of_mem (f := Prod.fst) hx)⟩,
    hsh.length, hroot, hseed, fun i hi hki => ((buildEng t).internalOk_iff i).2 (hsh'.inner i hi hki),
    fun j hj => ?_, ?_, countFreq_sum t, ?_, ?_⟩
  · rw [Eng.children_eq]
    exact hsh'.once j (by omega)
  · rw [Eng.weightAt_eq, hroot']
    exact hwt.trans (countFreq_sum t)
  · by_cases h2 : 2 ≤ (countFreq t).length
    · have := (genCodes_spec hsh' hw hseed h2).2.1
      rw [← hroot'] at this
      exact this
    · have h1 : (countFreq t).length = 1 := by have := hsh.one_le; omega
      obtain ⟨x, hx⟩ := List.length_eq_one_iff.1 h1
      have hn : (mergeAll (countFreq t)).1[(mergeAll (countFreq t)).2]? = some (.leaf x.1 x.2) := by
        rw [hroot, hx]
        have : (mergeAll [x]).1 = seedLeaves [x] := by
          have := hseed
          rw [hx] at this
          have hl := hsh.length
          rw [hx] at hl
          rw [List.take_of_length_le (by rw [hl]; simp)] at this
          exact this
        rw [this]
        rfl
      change (genCodes (mergeAll (countFreq t)).1 (mergeAll (countFreq t)).2).map Prod.fst
        = (countFreq t).map Prod.fst
      simp only [genCodes, hn, List.map_cons, List.map_nil]
      rw [hx]
      rfl
  · by_cases h2 : 2 ≤ (countFreq t).length
    · intro x hx
      have hpath := (genCodes_spec hsh' hw hseed h2).2.2 x (by rw [← hroot']; exact hx)
      cases hm : (buildEng t).descend (2 * (countFreq t).length - 2) x.2 with
      | none => rw [hm] at hpath; cases hpath
      | some m =>
        have hle := hsh'.descend_le hm
        have hp0 : x.2 ≠ [] := by
          intro h0
          rw [h0] at hm hpath
          obtain rfl : 2 * (countFreq t).length - 2 = m := by simpa [Eng.descend] using hm
          rw [hm] at hpath
          have := ((leafAt_freq hsh' rfl hseed _ _).1 hpath).1
          omega
        have h3 := hle.2 hp0
        have hpos : 1 ≤ x.2.length := List.length_pos_iff.2 hp0
        refine ⟨hpos, ?_, ?_⟩
        · simp only [Config.codeMax]
          omega
        · have hk1 : (buildEng t).k ≠ 1 := by change (countFreq t).length ≠ 1; omega
          simp only [Eng.codeOk, hk1, if_false, hroot', hpath, beq_self_eq_true]
    · have h1 : (countFreq t).length = 1 := by have := hsh.one_le; omega
      intro x hx
      have hk1 : (buildEng t).k = 1 := h1
      have hcode : x.2 = [false] := by
        change x ∈ genCodes (mergeAll (countFreq t)).1 (mergeAll (countFreq t)).2 at hx
        have hr0 : (mergeAll (countFreq t)).2 = 0 := by rw [hroot, h1]
        obtain ⟨y, w, hy⟩ := hsh.leaf 0 (by omega)
        rw [hr0] at hx
        simp only [genCodes, hy, List.mem_singleton] at hx
        rw [hx]
      have hcm : 1 ≤ c.codeMax := by
        have : 2 ^ 7 ≤ c.nsymMax := Nat.pow_le_pow_right (by omega) c.symW_range.1
        simp only [Config.codeMax]
        omega
      refine ⟨by rw [hcode]; simp, by rw [hcode]; simpa using hcm, ?_⟩
      simp [Eng.codeOk, hk1, hcode]

/-! ### What R22 says of a committed tree, in the terms of `Shape` -/

namespace Eng.TreeOk

variable {c : Config} {e : Eng}

theorem shape (h : e.TreeOk c) : Shape e.nodes e.k := by
  obtain ⟨h1, -, -, -, h5, h6, h7, h8, h9, -⟩ := h
  refine ⟨h1, h5, fun i hi => ?_, fun i hi hk => (e.internalOk_iff i).1 (h8 i hi hk), fun j hj => ?_⟩
  · have hlen : i < (e.nodes.take e.k).length := by rw [List.length_take]; omega
    have hi' : e.nodes[i]? = (e.nodes.take e.k)[i]? := by rw [List.getElem?_take_of_lt hi]
    rw [h7] at hi' hlen
    rw [List.length_map] at hlen
    rw [hi', List.getElem?_map, List.getElem?_eq_getElem hlen]
    exact ⟨_, _, rfl⟩
  · rw [← Eng.children_eq]
    exact h9 j (by omega)

theorem one_le (h : e.TreeOk c) : 1 ≤ e.k := h.1

theorem freq_length (h : e.TreeOk c) : e.freq.length = e.k := h.2.1

theorem freq_wf (h : e.TreeOk c) : Table.wf e.freq := h.2.2.1

theorem freq_sym (h : e.TreeOk c) : ∀ x ∈ e.freq, 1 ≤ x.2 ∧ x.1.toNat < c.nsymMax := h.2.2.2.1

theorem nodes_length (h : e.TreeOk c) : e.nodes.length = 2 * e.k - 1 := h.2.2.2.2.1

theorem root_eq (h : e.TreeOk c) : e.root = 2 * e.k - 2 := h.2.2.2.2.2.1

theorem seeded (h : e.TreeOk c) : e.nodes.take e.k = seedLeaves e.freq := h.2.2.2.2.2.2.1

theorem root_weight (h : e.TreeOk c) : e.weightAt e.root = e.total := h.2.2.2.2.2.2.2.2.2.1

theorem freq_sum (h : e.TreeOk c) : (e.freq.map Prod.snd).sum = e.total := h.2.2.2.2.2.2.2.2.2.2.1

theorem code_keys (h : e.TreeOk c) : e.code.map Prod.fst = e.freq.map Prod.fst := h.2.2.2.2.2.2.2.2.2.2.2.1

theorem code_entry (h : e.TreeOk c) :
    ∀ x ∈ e.code, 1 ≤ x.2.length ∧ x.2.length ≤ c.codeMax ∧ e.codeOk x.1 x.2 = true :=
  h.2.2.2.2.2.2.2.2.2.2.2.2

theorem code_wf (h : e.TreeOk c) : Table.wf e.code := by
  have := h.freq_wf
  simpa [Table.wf, h.code_keys] using this

/-- Node i is the leaf of symbol y exactly when y is the i-th symbol of the frequency table. -/
theorem leafAt_iff (h : e.TreeOk c) (i : Nat) (y : Sym) :
    e.leafAt i = some y ↔ i < e.k ∧ (e.freq.map Prod.fst)[i]? = some y :=
  leafAt_freq h.shape h.freq_length h.seeded i y

/-- A symbol at a leaf is a legal symbol. -/
theorem leafAt_nsym (h : e.TreeOk c) {i : Nat} {y : Sym} (hl : e.leafAt i = some y) : y.toNat < c.nsymMax := by
  have := List.mem_of_getElem? ((h.leafAt_iff i y).1 hl).2
  obtain ⟨x, hx, rfl⟩ := List.mem_map.1 this
  exact (h.freq_sym x hx).2

/-- With k = 1 the root is a leaf. -/
theorem leafAt_root (h : e.TreeOk c) (h1 : e.k = 1) : ∃ y, e.leafAt e.root = some y := by
  have hr : e.root = 0 := by rw [h.root_eq, h1]
  obtain ⟨y, w, hy⟩ := h.shape.leaf 0 (by omega)
  exact ⟨y, by simp [Eng.leafAt, hr, hy, Node.symbol?]⟩

/-- With k of 2 or more the root is no leaf. -/
theorem leafAt_root_none (h : e.TreeOk c) (h2 : 2 ≤ e.k) : e.leafAt e.root = none := by
  rw [h.root_eq]
  cases hl : e.leafAt (2 * e.k - 2) with
  | none => rfl
  | some y => have := ((h.leafAt_iff _ y).1 hl).1; omega

/-- R94: with k of 2 or more, the codes are exactly the root-to-leaf paths. -/
theorem codeOf_iff (h : e.TreeOk c) (h2 : 2 ≤ e.k) (y : Sym) (p : Bits) :
    e.codeOf y = some p ↔ (e.descend e.root p).bind e.leafAt = some y := by
  have hk : ¬ e.k = 1 := by omega
  have key : ∀ q, e.codeOf y = some q → (e.descend e.root q).bind e.leafAt = some y := fun q hq => by
    have := (h.code_entry _ (Table.mem_of_get? hq)).2.2
    simpa [Eng.codeOk, hk] using this
  refine ⟨key p, fun hp => ?_⟩
  cases hd : e.descend e.root p with
  | none => rw [hd] at hp; cases hp
  | some m =>
    rw [hd, Option.bind_some] at hp
    have hm := (h.leafAt_iff m y).1 hp
    -- y has a code, and its path ends at the same leaf
    have hmem : y ∈ e.code.map Prod.fst := by rw [h.code_keys]; exact List.mem_of_getElem? hm.2
    obtain ⟨q, hq⟩ := Option.isSome_iff_exists.1 ((Table.get?_isSome_iff _ _).2 hmem)
    have hpath := key q hq
    cases hd' : e.descend e.root q with
    | none => rw [hd'] at hpath; cases hpath
    | some m' =>
      rw [hd', Option.bind_some] at hpath
      have hm' := (h.leafAt_iff m' y).1 hpath
      have hnd := nodup_keys h.freq_wf
      obtain ⟨l1, e1⟩ := List.getElem?_eq_some_iff.1 hm.2
      obtain ⟨l2, e2⟩ := List.getElem?_eq_some_iff.1 hm'.2
      obtain rfl : m = m' := (hnd.getElem_inj_iff (hi := l1) (hj := l2)).1 (e1.trans e2.symm)
      rw [h.shape.path_unique hd hd']
      exact hq

end Eng.TreeOk

end Sys2Proof.Machine
end

