-- ==== Sys2Proof/Laws/Decode.lean ====
section
/-! SUPPORT. The decoder over the codes of a committed tree: it undoes the encoder. -/

namespace Sys2Proof.Machine

namespace Eng.TreeOk

variable {c : Config} {e : Eng}

/-- With k = 1 the only code is [0] (R95). -/
theorem codeOf_single (h : e.TreeOk c) (h1 : e.k = 1) {y : Sym} {p : Bits} (hp : e.codeOf y = some p) :
    p = [false] ∧ e.leafAt e.root = some y := by
  have hm := Table.mem_of_get? hp
  have hc := (h.code_entry _ hm).2.2
  refine ⟨by simpa [Eng.codeOk, h1] using hc, ?_⟩
  have hr : e.root = 0 := by rw [h.root_eq, h1]
  rw [hr, h.leafAt_iff]
  have hy : y ∈ e.freq.map Prod.fst := by rw [← h.code_keys]; exact List.mem_map_of_mem (f := Prod.fst) hm
  have hl : (e.freq.map Prod.fst).length = 1 := by rw [List.length_map, h.freq_length, h1]
  obtain ⟨z, hz⟩ := List.length_eq_one_iff.1 hl
  rw [hz, List.mem_singleton] at hy
  exact ⟨by omega, by rw [hz, hy]; rfl⟩

/-- A code is not empty. -/
theorem code_ne_nil (h : e.TreeOk c) {y : Sym} {p : Bits} (hp : e.codeOf y = some p) : p ≠ [] := by
  intro h0
  have := (h.code_entry _ (Table.mem_of_get? hp)).1
  rw [h0] at this
  exact absurd this (by simp)

/-- One code read from the root emits its symbol, and the automaton is back at the root. -/
theorem decodeLoop_code (h : e.TreeOk c) (maxLen : Nat) {y : Sym} {p : Bits} (hp : e.codeOf y = some p)
    (rest : List (Option Bool)) (i : Nat) (out : List Sym) (hlen : out.length < maxLen) :
    decodeLoop e maxLen (p.map some ++ rest) i out e.root i
      = decodeLoop e maxLen rest (i + p.length) (out ++ [y]) e.root (i + p.length) := by
  by_cases h2 : 2 ≤ e.k
  · have hpath := (h.codeOf_iff h2 y p).1 hp
    cases hd : e.descend e.root p with
    | none => rw [hd] at hpath; cases hpath
    | some m =>
      rw [hd, Option.bind_some] at hpath
      exact decodeLoop_path e maxLen p rest i out e.root i m y (h.leafAt_root_none h2) (h.code_ne_nil hp) hd hpath
        (by omega)
  · obtain ⟨rfl, hroot⟩ := h.codeOf_single (by have := h.one_le; omega) hp
    have := decodeLoop_leafRoot e maxLen [false] rest i out e.root i y hroot (by simp; omega)
    simpa using this

/-- A run of codes read from the root emits their symbols. -/
theorem decodeLoop_run (h : e.TreeOk c) (maxLen : Nat) (ys : List Sym) (cs : List Bits)
    (hc : ys.map e.codeOf = cs.map some) (rest : List (Option Bool)) (i : Nat) (out : List Sym)
    (hlen : out.length + ys.length ≤ maxLen) :
    decodeLoop e maxLen (cs.flatten.map some ++ rest) i out e.root i
      = decodeLoop e maxLen rest (i + cs.flatten.length) (out ++ ys) e.root (i + cs.flatten.length) := by
  induction ys generalizing cs i out with
  | nil =>
    have : cs = [] := by simpa using hc.symm
    simp [this]
  | cons y ys ih =>
    cases cs with
    | nil => simp at hc
    | cons p cs =>
      simp only [List.map_cons, List.cons.injEq] at hc
      simp only [List.length_cons] at hlen
      rw [List.flatten_cons, List.map_append, List.append_assoc, h.decodeLoop_code maxLen hc.1 _ _ _ (by omega),
        ih cs hc.2 _ _ (by simp only [List.length_append, List.length_singleton]; omega)]
      simp [Nat.add_assoc]

/-- A symbol with a code is a legal symbol. -/
theorem codeOf_nsym (h : e.TreeOk c) {y : Sym} {p : Bits} (hp : e.codeOf y = some p) : y.toNat < c.nsymMax := by
  have hy : y ∈ e.freq.map Prod.fst := by
    rw [← h.code_keys]; exact List.mem_map_of_mem (f := Prod.fst) (Table.mem_of_get? hp)
  obtain ⟨x, hx, rfl⟩ := List.mem_map.1 hy
  exact (h.freq_sym x hx).2

/-- Part of a code leads from the root to a node that is neither the root nor a leaf. -/
theorem descend_part (h : e.TreeOk c) {z : Sym} {p q : Bits} (hz : e.codeOf z = some (p ++ q)) (hp : p ≠ [])
    (hq : q ≠ []) : ∃ m, e.descend e.root p = some m ∧ e.leafAt m = none ∧ m ≠ e.root ∧ 2 ≤ e.k := by
  have h2 : 2 ≤ e.k := by
    by_contra hk
    have := (h.codeOf_single (by have := h.one_le; omega) hz).1
    cases p with
    | nil => exact hp rfl
    | cons b p => cases p <;> cases q <;> simp_all
  have hpath := (h.codeOf_iff h2 z _).1 hz
  rw [Eng.descend_append] at hpath
  cases hd : e.descend e.root p with
  | none => rw [hd] at hpath; cases hpath
  | some m =>
    rw [hd, Option.bind_some] at hpath
    refine ⟨m, rfl, ?_, fun hm => ?_, h2⟩
    · cases q with
      | nil => exact absurd rfl hq
      | cons b q =>
        simp only [Eng.descend] at hpath
        cases hb : e.nodes[m]?.bind (·.branch? b) with
        | none => rw [hb] at hpath; cases hpath
        | some j => exact e.leafAt_eq_none_of_branch hb
    · have h1 := (h.shape.descend_le hd).1
      rw [hm] at h1
      exact hp (List.length_eq_zero_iff.1 (by omega))

/-- A committed tree has at most one leaf per legal symbol. -/
theorem k_le (h : e.TreeOk c) : e.k ≤ c.nsymMax := by
  rw [← h.freq_length]
  have := length_le_nsymMax c (l := e.freq.map Prod.fst) (nodup_keys h.freq_wf) (fun y hy => by
    obtain ⟨x, hx, rfl⟩ := List.mem_map.1 hy
    exact (h.freq_sym x hx).2)
  simpa using this

/-- A code read when the output is full ends the loop at the first bit of that code (R118). -/
theorem decodeLoop_overflow (h : e.TreeOk c) {y : Sym} {p : Bits} (hp : e.codeOf y = some p)
    (rest : List (Option Bool)) (i : Nat) (out : List Sym) :
    decodeLoop e out.length (p.map some ++ rest) i out e.root i = (out, some (.outOverflow, i)) := by
  by_cases h2 : 2 ≤ e.k
  · have hpath := (h.codeOf_iff h2 y p).1 hp
    rcases List.eq_nil_or_concat p with rfl | ⟨q, b, rfl⟩
    · exact absurd rfl (h.code_ne_nil hp)
    · rw [List.concat_eq_append] at *
      rw [Eng.descend_append] at hpath
      cases hd : e.descend e.root q with
      | none => rw [hd] at hpath; cases hpath
      | some m =>
        rw [hd] at hpath
        simp only [Option.bind_some, Eng.descend] at hpath
        cases hb : e.nodes[m]?.bind (·.branch? b) with
        | none => rw [hb] at hpath; cases hpath
        | some j =>
          rw [hb] at hpath
          simp only [Option.bind_some] at hpath
          rw [List.map_append, List.append_assoc,
            decodeLoop_inside e _ q _ i out e.root i m (h.leafAt_root_none h2) hd (e.leafAt_eq_none_of_branch hb)]
          simp [decodeLoop, h.leafAt_root_none h2, e.moveOn_eq hb, hpath]
  · obtain ⟨rfl, hroot⟩ := h.codeOf_single (by have := h.one_le; omega) hp
    simp [decodeLoop, hroot]

end Eng.TreeOk

/-- An invalid element stops the loop, with what the elements before it gave (R115). -/
theorem decodeLoop_invalid (e : Eng) (maxLen : Nat) (bs : Bits) (rest : List (Option Bool)) (i : Nat)
    (out : List Sym) (cur start : Nat) (h : out.length + bs.length ≤ maxLen) :
    decodeLoop e maxLen (bs.map some ++ none :: rest) i out cur start
      = ((decodeLoop e maxLen (bs.map some) i out cur start).1, some (.invalidBit, i + bs.length)) := by
  induction bs generalizing i out cur start with
  | nil => simp only [List.map_nil, List.nil_append, decodeLoop]; split <;> simp
  | cons b bs ih =>
    simp only [List.length_cons] at h
    simp only [List.map_cons, List.cons_append, decodeLoop, List.length_cons]
    rw [show i + (bs.length + 1) = i + 1 + bs.length by omega]
    split
    · simp only [if_neg (show ¬ out.length = maxLen by omega)]
      exact ih _ _ _ _ (by simp only [List.length_append, List.length_singleton]; omega)
    · split
      · simp only [if_neg (show ¬ out.length = maxLen by omega)]
        exact ih _ _ _ _ (by simp only [List.length_append, List.length_singleton]; omega)
      · exact ih _ _ _ _ (by omega)

/-- The elements of the input of a DECODE, when the input is the bitstring `bs`. -/
theorem Block.inputBits_of_inputIs {c : Config} {s : Block} {fmt : Fmt} {bs : Bits} (h : s.InputIs c fmt bs) {n : Nat}
    (hn : n ≤ bs.length) : s.inputBits c fmt n = (bs.take n).map some := by
  apply List.ext_getElem
  · simp only [Block.inputBits, List.length_map, List.length_range, List.length_take]; omega
  · intro i h1 h2
    simp only [Block.inputBits, List.length_map, List.length_range] at h1
    simp only [Block.inputBits, List.getElem_map, List.getElem_range, List.getElem_take]
    rw [h i (by omega)]
    simp [show i < bs.length by omega]

end Sys2Proof.Machine
end

