-- ==== Sys2Proof/Laws/PerInstr.lean ====
section
/-! SUPPORT. Statements made of every instruction, one lemma per constructor. -/

namespace Sys2Proof.Laws.EncodedFields

/-- The word of an instruction has well-formed fields: a defined OP, an FMT that OP allows, and RSVD = 0 (30_encoding.md
R75, R76), and its OP and FMT are not those of another instruction. -/
def Statement (i : Instr) : Prop :=
  (CmdFields.ofWord (encode i)).wf = true
  ∧ ∀ j : Instr, (CmdFields.ofWord (encode j)).op = (CmdFields.ofWord (encode i)).op →
      (CmdFields.ofWord (encode j)).fmt = (CmdFields.ofWord (encode i)).fmt → j = i

theorem build : Statement .build := ⟨by decide, fun j => by cases j <;> decide⟩

theorem encodeP : Statement .encodeP := ⟨by decide, fun j => by cases j <;> decide⟩

theorem encodeC : Statement .encodeC := ⟨by decide, fun j => by cases j <;> decide⟩

theorem decodeP : Statement .decodeP := ⟨by decide, fun j => by cases j <;> decide⟩

theorem decodeC : Statement .decodeC := ⟨by decide, fun j => by cases j <;> decide⟩

end Sys2Proof.Laws.EncodedFields
end

