-- ==== Sys2Proof/Laws/Port.lean ====
section
/-! SUPPORT. The host port, said once: where an address leads, what a read can change, what a write can do, and
what a host step can do. -/

namespace Sys2Proof.Machine

/-! ### Addresses -/

/-- An aligned address of the REG region below 0x054 leads to its register. -/
theorem locate_reg (c : Config) (r : Reg) : locate c (BitVec.ofNat 22 r.offset) = some (.reg r) := by
  cases r <;> rfl

/-- An aligned address at or above 0x010000 leads to the word of its region, when the region has it. -/
theorem locate_codeWin (c : Config) {w : Nat} (h : w < c.codeWords) :
    locate c (BitVec.ofNat 22 (0x010000 + 4 * w)) = some (.codeWin w) := by
  have h1 : 2 ^ c.symW ≤ 2 ^ 16 := Nat.pow_le_pow_right (by omega) c.symW_range.2
  have h2 : w < 2048 := by simp only [Config.codeWords, Config.codeMax, Config.nsymMax] at h; omega
  have hn : (BitVec.ofNat 22 (0x010000 + 4 * w)).toNat = 0x010000 + 4 * w := by
    rw [BitVec.toNat_ofNat]; exact Nat.mod_eq_of_lt (by omega)
  simp only [locate, hn, codeWinBase, txtInBase]
  rw [if_neg (by omega), if_neg (by omega), if_pos (by omega), show (0x010000 + 4 * w - 0x010000) / 4 = w by omega,
    if_pos h]

theorem locate_txtIn (c : Config) {w : Nat} (h : w < c.maxLen) :
    locate c (BitVec.ofNat 22 (0x100000 + 4 * w)) = some (.txtIn w) := by
  have h1 := c.maxLen_range.2
  have hn : (BitVec.ofNat 22 (0x100000 + 4 * w)).toNat = 0x100000 + 4 * w := by
    rw [BitVec.toNat_ofNat]; exact Nat.mod_eq_of_lt (by omega)
  simp only [locate, hn, codeWinBase, txtInBase, txtOutBase]
  rw [if_neg (by omega), if_neg (by omega), if_neg (by omega), if_pos (by omega),
    show (0x100000 + 4 * w - 0x100000) / 4 = w by omega, if_pos h]

theorem locate_txtOut (c : Config) {w : Nat} (h : w < c.maxLen) :
    locate c (BitVec.ofNat 22 (0x200000 + 4 * w)) = some (.txtOut w) := by
  have h1 := c.maxLen_range.2
  have hn : (BitVec.ofNat 22 (0x200000 + 4 * w)).toNat = 0x200000 + 4 * w := by
    rw [BitVec.toNat_ofNat]; exact Nat.mod_eq_of_lt (by omega)
  simp only [locate, hn, codeWinBase, txtInBase, txtOutBase, bitBase]
  rw [if_neg (by omega), if_neg (by omega), if_neg (by omega), if_neg (by omega), if_pos (by omega),
    show (0x200000 + 4 * w - 0x200000) / 4 = w by omega, if_pos h]

theorem locate_bit (c : Config) {w : Nat} (h : w < c.bitWords) :
    locate c (BitVec.ofNat 22 (0x300000 + 4 * w)) = some (.bit w) := by
  have h1 := c.maxBits_range
  simp only [Config.bitWords] at h
  have hn : (BitVec.ofNat 22 (0x300000 + 4 * w)).toNat = 0x300000 + 4 * w := by
    rw [BitVec.toNat_ofNat]; exact Nat.mod_eq_of_lt (by omega)
  simp only [locate, hn, codeWinBase, txtInBase, txtOutBase, bitBase]
  rw [if_neg (by omega), if_neg (by omega), if_neg (by omega), if_neg (by omega), if_neg (by omega),
    show (0x300000 + 4 * w - 0x300000) / 4 = w by omega, if_pos (by simpa [Config.bitWords] using h)]

/-- What an implemented address says of itself: the one reading of R54. -/
theorem locate_cases {c : Config} {a : Addr} {l : PortLoc} (h : locate c a = some l) :
    (∃ r, l = .reg r ∧ a = BitVec.ofNat 22 r.offset)
    ∨ (∃ w, l = .codeWin w ∧ w < c.codeWords ∧ a.toNat = 0x010000 + 4 * w)
    ∨ (∃ w, l = .txtIn w ∧ w < c.maxLen ∧ a.toNat = 0x100000 + 4 * w)
    ∨ (∃ w, l = .txtOut w ∧ w < c.maxLen ∧ a.toNat = 0x200000 + 4 * w)
    ∨ (∃ w, l = .bit w ∧ w < c.bitWords ∧ a.toNat = 0x300000 + 4 * w) := by
  have haddr : a = BitVec.ofNat 22 a.toNat := by simp
  unfold locate codeWinBase txtInBase txtOutBase bitBase at h
  dsimp only at h
  split at h
  · cases h
  next h4 =>
  split at h
  next h0 =>
    left
    obtain ⟨r, hr, rfl⟩ := Option.map_eq_some_iff.1 h
    have := List.find?_some hr
    simp only [beq_iff_eq] at this
    exact ⟨r, rfl, by rw [this]; exact haddr⟩
  split at h
  next h1 =>
    simp only [Option.ite_none_right_eq_some, Option.some.injEq] at h
    exact .inr (.inl ⟨_, h.2.symm, h.1, by omega⟩)
  split at h
  next h1 =>
    simp only [Option.ite_none_right_eq_some, Option.some.injEq] at h
    exact .inr (.inr (.inl ⟨_, h.2.symm, h.1, by omega⟩))
  split at h
  next h1 =>
    simp only [Option.ite_none_right_eq_some, Option.some.injEq] at h
    exact .inr (.inr (.inr (.inl ⟨_, h.2.symm, h.1, by omega⟩)))
  next h1 =>
    simp only [Option.ite_none_right_eq_some, Option.some.injEq] at h
    exact .inr (.inr (.inr (.inr ⟨_, h.2.symm, h.1, by omega⟩)))

/-- Everything a write can do (R58): nothing, one of the four registers that are written as ever, one of the four
inputs while IDLE, or OVR while BUSY (R67). -/
theorem Block.memWrite_cases (c : Config) (s : Block) (a : Addr) (v : Word) :
    (s.memWrite c a v).2 = s
    ∨ (a = 0x010 ∧ (s.memWrite c a v).2 = s.setCtrl v)
    ∨ (a = 0x014 ∧ (s.memWrite c a v).2 = s.clearStatus v)
    ∨ (a = 0x034 ∧ (s.memWrite c a v).2 = s.setSel c v)
    ∨ (a = 0x040 ∧ (s.memWrite c a v).2 = s.setNodesel c v)
    ∨ (s.fsm = .busy ∧ (s.memWrite c a v).2 = s.overrun)
    ∨ (s.fsm = .idle ∧ a = 0x018 ∧ (s.memWrite c a v).2 = s.accept v)
    ∨ (s.fsm = .idle ∧ a = 0x01C ∧ (s.memWrite c a v).2 = s.setLen v)
    ∨ (s.fsm = .idle ∧ ∃ w, w < c.maxLen ∧ a.toNat = 0x100000 + 4 * w ∧ (s.memWrite c a v).2 = s.setTxtIn c w v)
    ∨ (s.fsm = .idle ∧ ∃ w, w < c.bitWords ∧ a.toNat = 0x300000 + 4 * w
        ∧ (s.memWrite c a v).2 = s.setBitWord w v) := by
  unfold Block.memWrite
  cases h : locate c a with
  | none => exact .inl rfl
  | some l =>
    obtain ⟨r, rfl, rfl⟩ | ⟨w, rfl, -⟩ | ⟨w, rfl, hw, ha⟩ | ⟨w, rfl, hw, ha⟩ | ⟨w, rfl, hw, ha⟩ := locate_cases h
    · cases hf : s.fsm <;> cases r <;> simp [Block.regWrite, Block.unlessBusy, hf, Reg.offset]
    · exact .inl rfl
    · cases hf : s.fsm <;> simp only [Block.unlessBusy, hf]
      · exact .inr (.inr (.inr (.inr (.inr (.inr (.inr (.inr (.inl ⟨trivial, w, hw, ha, rfl⟩))))))))
      · simp
    · exact .inl rfl
    · cases hf : s.fsm <;> simp only [Block.unlessBusy, hf]
      · exact .inr (.inr (.inr (.inr (.inr (.inr (.inr (.inr (.inr ⟨trivial, w, hw, ha, rfl⟩))))))))
      · simp

namespace State

/-! ### Reads and writes -/

/-- A read of a register; at a literal address the premise is true by rfl. -/
theorem memRead_reg {s : State} {a : Addr} {r : Reg} (h : locate s.cfg a = some (.reg r)) :
    s.memRead a = ((s.regRead s.cfg r, .okay), s) := by simp [memRead, Block.memRead, Block.drawsAt, h]

/-- A write to a register; at a literal address the premise is true by rfl. -/
theorem memWrite_reg {s : State} {a : Addr} {r : Reg} (v : Word) (h : locate s.cfg a = some (.reg r)) :
    s.memWrite a v = (.okay, s.onBlock fun b => b.regWrite s.cfg r v) := by
  simp [memWrite, Block.memWrite, onBlock, h]

/-- A read of a word of the code window, IDLE or BUSY (R65). -/
theorem memRead_codeWin (s : State) {w : Nat} (h : w < s.cfg.codeWords) :
    s.memRead (BitVec.ofNat 22 (0x010000 + 4 * w)) = ((s.codeWinWord w, .okay), s) := by
  simp [memRead, Block.memRead, Block.drawsAt, locate_codeWin _ h]

/-- A read changes nothing but the count of draws, and that only for an output buffer word while BUSY (R57, R68). -/
theorem memRead_cases (s : State) (a : Addr) :
    (s.memRead a).2 = s ∨ (s.fsm = .busy ∧ 0x200000 ≤ a.toNat ∧ (s.memRead a).2 = s.drew) := by
  unfold memRead Block.drawsAt
  cases h : locate s.cfg a with
  | none => exact .inl rfl
  | some l =>
    have hb : s.busy = true → s.fsm = .busy := by cases hf : s.fsm <;> simp [Block.busy, hf]
    obtain ⟨r, rfl, -⟩ | ⟨w, rfl, -⟩ | ⟨w, rfl, -⟩ | ⟨w, rfl, hw, ha⟩ | ⟨w, rfl, hw, ha⟩ := locate_cases h
    · exact .inl rfl
    · exact .inl rfl
    · exact .inl rfl
    · cases hf : s.busy
      · exact .inl (by simp)
      · exact .inr ⟨hb hf, by omega, by simp⟩
    · cases hf : s.busy
      · exact .inl (by simp)
      · exact .inr ⟨hb hf, by omega, by simp⟩

/-- One access: a read or a write, and the response to the host. -/
theorem perform_cases (s : State) (acc : Access) (e : Option Word) :
    ∃ r, (∃ a, acc = .read a ∧ s.perform acc e = ((s.memRead a).2).respond r)
      ∨ ∃ a v, acc = .write a v ∧ s.perform acc e = ((s.memWrite a v).2).respond r := by
  cases acc with
  | read a => exact ⟨_, .inl ⟨a, rfl, rfl⟩⟩
  | write a v => exact ⟨_, .inr ⟨a, v, rfl, rfl⟩⟩

/-- Everything a host step can do (R168): stand still, a read, a write, or a refused bus access, with the script moved on
and at most one response logged. -/
theorem hostStep_cases (s : State) :
    ∃ (u : State) (rest : List HostOp) (log : List Response), s.hostStep = { u with script := rest, log := log } ∧
      (u = s ∨ (∃ a, u = (s.memRead a).2)
        ∨ ∃ a v, u = (s.memWrite a v).2
          ∧ (s.script = .issue (.write a v) :: rest
            ∨ ∃ b : BusAccess, s.script = .bus b :: rest ∧ b.port? s.cfg = some (.write a v) ∧ b.bytes = 4)) := by
  unfold hostStep
  cases hs : s.script with
  | nil => exact ⟨s, [], s.log, show s = { s with script := [], log := s.log } by rw [← hs], .inl rfl⟩
  | cons op rest =>
    cases op with
    | issue acc =>
      cases acc with
      | read a => exact ⟨(s.memRead a).2, rest, _, rfl, .inr (.inl ⟨a, rfl⟩)⟩
      | write a v => exact ⟨(s.memWrite a v).2, rest, _, rfl, .inr (.inr ⟨a, v, rfl, .inl rfl⟩)⟩
    | check a v => exact ⟨(s.memRead a).2, rest, _, rfl, .inr (.inl ⟨a, rfl⟩)⟩
    | wait =>
      simp only
      split
      · exact ⟨(s.memRead statusAddr).2, _, _, rfl, .inr (.inl ⟨_, rfl⟩)⟩
      · exact ⟨(s.memRead statusAddr).2, rest, _, rfl, .inr (.inl ⟨_, rfl⟩)⟩
    | bus b =>
      simp only [performBus]
      cases hb : b.port? s.cfg with
      | none => exact ⟨s, rest, s.log, rfl, .inl rfl⟩
      | some acc =>
        simp only
        by_cases h4 : b.bytes = 4
        · rw [if_pos h4]
          cases acc with
          | read a => exact ⟨(s.memRead a).2, rest, _, rfl, .inr (.inl ⟨a, rfl⟩)⟩
          | write a v => exact ⟨(s.memWrite a v).2, rest, _, rfl, .inr (.inr ⟨a, v, rfl, .inr ⟨b, rfl, hb, h4⟩⟩)⟩
        · rw [if_neg h4]
          exact ⟨s, rest, _, rfl, .inl rfl⟩

/-- While BUSY a host step can change CTRL.IE, DONE (to 0), OVR, SEL, NODESEL, the count of draws, and the host's own data
(R67, R161). -/
theorem hostStep_busy (s : State) (h : s.fsm = .busy) :
    ∃ ie done ovr sel nodesel draws script log, s.hostStep = { s with
      ie := ie, done := done, ovr := ovr, sel := sel, nodesel := nodesel, draws := draws, script := script, log := log }
      ∧ (s.done = false → done = false) := by
  obtain ⟨u, rest, log, he, rfl | ⟨a, rfl⟩ | ⟨a, v, rfl, -⟩⟩ := hostStep_cases s
  · exact ⟨_, _, _, _, _, _, _, _, he, id⟩
  · obtain hr | ⟨-, -, hr⟩ := memRead_cases s a <;> rw [hr] at he <;> exact ⟨_, _, _, _, _, _, _, _, he, id⟩
  · have hm : (s.memWrite a v).2 = { s with toBlock := (s.toBlock.memWrite s.cfg a v).2 } := rfl
    rw [hm] at he
    obtain hw | ⟨-, hw⟩ | ⟨-, hw⟩ | ⟨-, hw⟩ | ⟨-, hw⟩ | ⟨-, hw⟩ | ⟨hf, -⟩ | ⟨hf, -⟩ | ⟨hf, -⟩ | ⟨hf, -⟩ :=
      Block.memWrite_cases s.cfg s.toBlock a v
    · rw [hw] at he; exact ⟨_, _, _, _, _, _, _, _, he, id⟩
    · rw [hw] at he; exact ⟨_, _, _, _, _, _, _, _, he, id⟩
    · rw [hw] at he; exact ⟨_, _, _, _, _, _, _, _, he, fun hd => by simp [hd]⟩
    · rw [hw] at he; exact ⟨_, _, _, _, _, _, _, _, he, id⟩
    · rw [hw] at he; exact ⟨_, _, _, _, _, _, _, _, he, id⟩
    · rw [hw] at he; exact ⟨_, _, _, _, _, _, _, _, he, id⟩
    all_goals rw [h] at hf; cases hf

end State

end Sys2Proof.Machine
end

