-- ==== Sys2Proof/Laws/Step.lean ====
section
/-! SUPPORT. What a step can do, said once; what a completion can do, said once; and that an invariant kept by both
holds along a run. -/

namespace Sys2Proof.Machine

/-! ### Completion -/

/-- Everything a completion can do, whatever the command: it ends IDLE with DONE, sets the record, and can replace ENG by the
ENG of the text (BUILD) or the output buffer's words (ENCODE, DECODE); nothing else. -/
theorem exec_next {i : Instr} {s t : State} (h : exec i s = .next t) :
    t = { s with fsm := .idle, done := true, err := t.err, errpos := t.errpos, outlen := t.outlen, mem := t.mem,
                 eng := t.eng }
    ∧ ((t.mem = s.mem ∧ (t.eng = s.eng ∨ (i = .build ∧ 1 ≤ s.inputLen ∧ s.inputLen ≤ s.cfg.maxLen
          ∧ t.err = .none ∧ t.eng = buildEng (s.text s.cfg s.inputLen))))
      ∨ (t.eng = s.eng ∧ ((∃ fmt bs, i = Fmt.encoder fmt ∧ bs.length ≤ fmt.outCap s.cfg ∧ t.mem = (s.writeBits fmt bs).mem)
          ∨ ∃ fmt ys, i = Fmt.decoder fmt ∧ ys.length ≤ s.cfg.maxLen ∧ t.mem = (s.writeText ys).mem))) := by
  rw [exec_eq] at h
  injection h with h
  subst h
  obtain rfl | ⟨fmt, rfl⟩ | ⟨fmt, rfl⟩ := instr_cases i
  · obtain ⟨-, hd⟩ | ⟨-, hd⟩ | ⟨h1, h2, hd⟩ := doBuild_cases s.cfg s.toBlock
    all_goals rw [State.completeWith_eq (f := doOf .build) hd]
    · exact ⟨rfl, .inl ⟨rfl, .inl rfl⟩⟩
    · exact ⟨rfl, .inl ⟨rfl, .inl rfl⟩⟩
    · exact ⟨rfl, .inl ⟨rfl, .inr ⟨rfl, h1, h2, rfl, rfl⟩⟩⟩
  · rw [doOf_encoder]
    obtain ⟨-, hd⟩ | ⟨-, -, hd⟩ | ⟨-, -, hd⟩ := doEncode_cases fmt s.cfg s.toBlock
    all_goals rw [State.completeWith_eq hd]
    · exact ⟨rfl, .inl ⟨rfl, .inl rfl⟩⟩
    · exact ⟨rfl, .inl ⟨rfl, .inl rfl⟩⟩
    · rw [Block.finish_eq, Block.writeBits_eq]
      exact ⟨rfl, .inr ⟨rfl, .inl ⟨fmt, _, rfl, encodeLoop_length_le _ _ _ _ _ (by simp), rfl⟩⟩⟩
  · rw [doOf_decoder]
    obtain ⟨-, hd⟩ | ⟨-, -, hd⟩ | ⟨-, -, hd⟩ := doDecode_cases fmt s.cfg s.toBlock
    all_goals rw [State.completeWith_eq hd]
    · exact ⟨rfl, .inl ⟨rfl, .inl rfl⟩⟩
    · exact ⟨rfl, .inl ⟨rfl, .inl rfl⟩⟩
    · rw [Block.finish_eq]
      exact ⟨rfl, .inr ⟨rfl, .inr ⟨fmt, _, rfl, decodeLoop_length_le _ _ _ _ _ _ _ (by simp), rfl⟩⟩⟩

/-- The engine's step is a command's completion, or that of a BAD word. -/
theorem engineStep_cases {s t : State} (h : engineStep s = .next t) :
    (∃ i, decodeCmd s.pend = .valid i ∧ exec i s = .next t)
    ∨ ((∃ why, decodeCmd s.pend = .bad why) ∧ t = s.completeWith doBad) := by
  unfold engineStep at h
  cases hd : decodeCmd s.pend with
  | valid i => rw [hd] at h; exact .inl ⟨i, rfl, h⟩
  | bad why =>
    rw [hd] at h
    exact .inr ⟨⟨why, rfl⟩, by injection h with h; exact h.symm⟩

/-- A word that decodes to a command is that command's word. -/
theorem decodeCmd_eq_valid {v : Word} {i : Instr} (h : decodeCmd v = .valid i) : v = encode i := by
  unfold decodeCmd at h
  split at h
  · next hv => cases h; exact hv
  split at h
  · next hv => cases h; exact hv
  split at h
  · next hv => cases h; exact hv
  split at h
  · next hv => cases h; exact hv
  split at h
  · next hv => cases h; exact hv
  · cases h

/-! ### Who moves -/

/-- The engine moves only while BUSY, the host only with something to issue; and the turns only get fewer. -/
theorem State.nextTurn_enabled {s : State} {a : Turn} {ts : List Turn} (h : s.nextTurn = some (a, ts)) :
    s.enabled a = true ∧ ts.length ≤ s.turns.length := by
  unfold State.nextTurn at h
  cases hd : s.turns.dropWhile fun t => !s.enabled t with
  | cons t ts' =>
    rw [hd] at h
    simp only [Option.some.injEq, Prod.mk.injEq] at h
    obtain ⟨rfl, rfl⟩ := h
    constructor
    · have := List.head_dropWhile_not (fun t => !s.enabled t) (l := s.turns) (by simp [hd])
      simpa [hd] using this
    · have := (List.dropWhile_suffix (fun t => !s.enabled t) (l := s.turns)).length_le
      rw [hd] at this
      simp only [List.length_cons] at this
      omega
  | nil =>
    rw [hd] at h
    simp only at h
    split at h
    · next hb =>
      simp only [Option.some.injEq, Prod.mk.injEq] at h
      obtain ⟨rfl, rfl⟩ := h
      exact ⟨hb, by simp⟩
    · split at h
      · cases h
      · next he =>
        simp only [Option.some.injEq, Prod.mk.injEq] at h
        obtain ⟨rfl, rfl⟩ := h
        exact ⟨by simpa [State.enabled] using he, by simp⟩

theorem Block.busy_iff (s : Block) : s.busy = true ↔ s.fsm = .busy := by
  cases h : s.fsm <;> simp [Block.busy, h]

/-- Everything a step can do (R168). -/
theorem step_cases {s t : State} (h : step s = .next t) :
    (s.nextTurn = none ∧ t = s)
    ∨ (∃ ts, s.nextTurn = some (.host, ts) ∧ t = (s.turnsTo ts).hostStep)
    ∨ (∃ ts i, s.nextTurn = some (.engine, ts) ∧ s.fsm = .busy ∧ s.pend = encode i
        ∧ exec i (s.turnsTo ts) = .next t)
    ∨ (∃ ts why, s.nextTurn = some (.engine, ts) ∧ s.fsm = .busy ∧ decodeCmd s.pend = .bad why
        ∧ t = (s.turnsTo ts).completeWith doBad)
    ∨ ∃ ts, s.nextTurn = some (.reset, ts) ∧ t = (s.turnsTo ts).resetEvent := by
  unfold step at h
  cases hn : s.nextTurn with
  | none => rw [hn] at h; exact .inl ⟨rfl, by injection h with h; exact h.symm⟩
  | some x =>
    obtain ⟨a, ts⟩ := x
    rw [hn] at h
    cases a with
    | host => exact .inr (.inl ⟨ts, rfl, by injection h with h; exact h.symm⟩)
    | engine =>
      have hb := (Block.busy_iff s.toBlock).1 (State.nextTurn_enabled hn).1
      rcases engineStep_cases h with ⟨i, hd, he⟩ | ⟨⟨why, hd⟩, he⟩
      · exact .inr (.inr (.inl ⟨ts, i, rfl, hb, decodeCmd_eq_valid hd, he⟩))
      · exact .inr (.inr (.inr (.inl ⟨ts, why, rfl, hb, hd, he⟩)))
    | reset => exact .inr (.inr (.inr (.inr ⟨ts, rfl, by injection h with h; exact h.symm⟩)))

/-- Every step answers a next state: no step faults and none is refused. -/
theorem step_next (s : State) : ∃ t, step s = .next t := by
  unfold step
  cases hn : s.nextTurn with
  | none => exact ⟨s, rfl⟩
  | some x =>
    obtain ⟨a, ts⟩ := x
    cases a with
    | host => exact ⟨_, rfl⟩
    | engine =>
      simp only [engineStep]
      cases decodeCmd (s.turnsTo ts).pend with
      | valid i => exact ⟨_, exec_eq i _⟩
      | bad why => exact ⟨_, rfl⟩
    | reset => exact ⟨_, rfl⟩

/-! ### Runs -/

/-- What every step keeps holds of every state reached. -/
theorem State.Reaches.keeps {P : State → Prop} (hk : ∀ s t, P s → step s = .next t → P t) {s t : State}
    (h : State.Reaches s t) (hs : P s) : P t := by
  induction h with
  | refl => exact hs
  | tail _ h ih => exact hk _ _ ih h

end Sys2Proof.Machine
end

