-- ==== Sys2Proof/Tests/Slice0.lean ====
section
/-! SUPPORT. Tests: the check of ill-formed fields, words decoded from the fields of 30_encoding.md R75, one step at a time
against 95_test_vectors.md (the source of every expected value), and a witness for the hypotheses of every statement. -/

namespace Sys2Proof.Tests

open Sys2Proof Sys2Proof.Machine

/-! ### Ill-formed fields are refused (R75) -/

/-- OP = 0x0 is reserved. -/
theorem test_wf_reserved_op_zero : ({ op := 0, fmt := false, rsvd := 0 } : CmdFields).wf = false := by decide

/-- OP = 0x4, the first reserved value above the defined ones. -/
theorem test_wf_reserved_op_four : ({ op := 4, fmt := false, rsvd := 0 } : CmdFields).wf = false := by decide

/-- FMT = 1 with OP = BUILD. -/
theorem test_wf_format_of_build : ({ op := 1, fmt := true, rsvd := 0 } : CmdFields).wf = false := by decide

/-- RSVD bit 31 set. -/
theorem test_wf_reserved_bit : ({ op := 3, fmt := true, rsvd := 0x4000000 } : CmdFields).wf = false := by decide

/-! ### Words written out from the fields of R75: RSVD [31:5], FMT [4], OP [3:0] -/

theorem test_decode_build : decodeCmd (0b000000000000000000000000000#27 ++ 0b0#1 ++ 0b0001#4) = .valid .build := by decide

theorem test_decode_encodeP : decodeCmd (0b000000000000000000000000000#27 ++ 0b0#1 ++ 0b0010#4) = .valid .encodeP := by
  decide

theorem test_decode_encodeC : decodeCmd (0b000000000000000000000000000#27 ++ 0b1#1 ++ 0b0010#4) = .valid .encodeC := by
  decide

theorem test_decode_decodeP : decodeCmd (0b000000000000000000000000000#27 ++ 0b0#1 ++ 0b0011#4) = .valid .decodeP := by
  decide

theorem test_decode_decodeC : decodeCmd (0b000000000000000000000000000#27 ++ 0b1#1 ++ 0b0011#4) = .valid .decodeC := by
  decide

/-- The examples of R79. -/
theorem test_decode_bad : decodeCmd 0x00000000 = .bad .reservedOp ∧ decodeCmd 0x00000011 = .bad .formatOfBuild
    ∧ decodeCmd 0x00000004 = .bad .reservedOp ∧ decodeCmd 0x80000001 = .bad .reservedBits := by decide

/-! ### Small states -/

/-- The next state of an outcome. -/
def stateOf : Host.Outcome State Fault Refusal → Option State
  | .next s => some s
  | .fault _ => none
  | .refused _ => none

/-- IDLE, with words in TXT_IN and their number in LEN. -/
def textState (c : Config) (ws : List Word) : State :=
  { State.initial c with mem := Memory.setWords [] txtInBase ws, len := BitVec.ofNat 32 ws.length }

/-- IDLE, with words in BIT and `n` in LEN. -/
def bitState (c : Config) (ws : List Word) (n : Nat) : State :=
  { State.initial c with mem := Memory.setWords [] bitBase ws, len := BitVec.ofNat 32 n }

/-- V1: what BUILD of "aaabbc" commits. -/
def engV1 : Eng where
  built := true
  k := 3
  total := 6
  root := 4
  freq := [(0x61, 3), (0x62, 2), (0x63, 1)]
  code := [(0x61, [false]), (0x62, [true, true]), (0x63, [true, false])]
  nodes := [.leaf 0x61 3, .leaf 0x62 2, .leaf 0x63 1, .internal 3 2 1, .internal 6 0 3]

/-- V2: what BUILD of "aaaa" commits. -/
def engV2 : Eng where
  built := true
  k := 1
  total := 4
  root := 0
  freq := [(0x61, 4)]
  code := [(0x61, [false])]
  nodes := [.leaf 0x61 4]

/-- V3: what BUILD of "abc" commits. -/
def engV3 : Eng where
  built := true
  k := 3
  total := 3
  root := 4
  freq := [(0x61, 1), (0x62, 1), (0x63, 1)]
  code := [(0x61, [true, false]), (0x62, [true, true]), (0x63, [false])]
  nodes := [.leaf 0x61 1, .leaf 0x62 1, .leaf 0x63 1, .internal 2 0 1, .internal 3 2 3]

/-- V4: what BUILD of "ab" commits. -/
def engV4 : Eng where
  built := true
  k := 2
  total := 2
  root := 2
  freq := [(0x61, 1), (0x62, 1)]
  code := [(0x61, [false]), (0x62, [true])]
  nodes := [.leaf 0x61 1, .leaf 0x62 1, .internal 2 0 1]

def withEng (e : Eng) (s : State) : State := { s with eng := e }

def aaabbc : List Word := [0x61, 0x61, 0x61, 0x62, 0x62, 0x63]

/-- The completion record and STATUS of V1 to V5. -/
def record (s : State) : Word × Word × Word := (s.statusWord, s.errpos, s.outlen)

/-! ### One step against the spec's vectors -/

/-- V1. -/
theorem test_build_V1 : (stateOf (exec .build (textState Config.rc aaabbc))).map (fun s => (s.eng, record s))
    = some (engV1, 0x00000006, 0, 5) := by decide

/-- V3: the tie-break, where the lighter seeded leaf 'c' is merged with the node of 'a' and 'b'. -/
theorem test_build_V3 : (stateOf (exec .build (textState Config.rc [0x61, 0x62, 0x63]))).map (fun s => (s.eng, record s))
    = some (engV3, 0x00000006, 0, 5) := by decide

/-- V1. -/
theorem test_encodeP_V1 : (stateOf (exec .encodeP (withEng engV1 (textState Config.rc aaabbc)))).map
    (fun s => (record s, s.bitWord 0)) = some ((0x00000006, 0, 9), 0x000000F8) := by decide

/-- V3: "abcd" stops at the unknown symbol. -/
theorem test_encodeP_V3 : (stateOf (exec .encodeP (withEng engV3 (textState Config.rc [0x61, 0x62, 0x63, 0x64])))).map
    (fun s => (record s, s.bitWord 0)) = some ((0x00000206, 3, 5), 0x0000000D) := by decide

/-- V1. -/
theorem test_encodeC_V1 : (stateOf (exec .encodeC (withEng engV1 (textState Config.rc aaabbc)))).map
    (fun s => (record s, (List.range 9).map (s.txtOut s.cfg)))
      = some ((0x00000006, 0, 9), [0x30, 0x30, 0x30, 0x31, 0x31, 0x31, 0x31, 0x31, 0x30]) := by decide

/-- V3: "abcd" stops at the unknown symbol. -/
theorem test_encodeC_V3 : (stateOf (exec .encodeC (withEng engV3 (textState Config.rc [0x61, 0x62, 0x63, 0x64])))).map
    (fun s => (record s, (List.range 5).map (s.txtOut s.cfg)))
      = some ((0x00000206, 3, 5), [0x31, 0x30, 0x31, 0x31, 0x30]) := by decide

/-- V1. -/
theorem test_decodeP_V1 : (stateOf (exec .decodeP (withEng engV1 (bitState Config.rc [0x000000F8] 9)))).map
    (fun s => (record s, (List.range 6).map (s.txtOut s.cfg)))
      = some ((0x00000006, 0, 6), [0x61, 0x61, 0x61, 0x62, 0x62, 0x63]) := by decide

/-- V5: "00011111", one bit short. -/
theorem test_decodeP_V5 : (stateOf (exec .decodeP (withEng engV1 (bitState Config.rc [0x000000F8] 8)))).map
    (fun s => (record s, (List.range 5).map (s.txtOut s.cfg)))
      = some ((0x00000406, 7, 5), [0x61, 0x61, 0x61, 0x62, 0x62]) := by decide

/-- E3 (TC): a fifth bit of a single-Leaf tree finds TXT_OUT full. -/
theorem test_decodeP_E3 : (stateOf (exec .decodeP (withEng engV2 (bitState Config.tc [0x0000000A] 5)))).map record
    = some (0x00000706, 4, 4) := by decide

/-- V4: "0x1" stops at the invalid character. -/
theorem test_decodeC_V4 : (stateOf (exec .decodeC (withEng engV4 (textState Config.rc [0x30, 0x78, 0x31])))).map
    (fun s => (record s, s.txtOut s.cfg 0)) = some ((0x00000306, 1, 1), 0x61) := by decide

/-- V5: "01a" is INVALID_BIT before it is malformed. -/
theorem test_decodeC_V5 : (stateOf (exec .decodeC (withEng engV1 (textState Config.rc [0x30, 0x31, 0x61])))).map
    (fun s => (record s, s.txtOut s.cfg 0)) = some ((0x00000306, 2, 1), 0x61) := by decide

/-- E2: a reserved word completes with BAD_CMD. -/
theorem test_bad_E2 : (stateOf (step (State.reset.withFetchWord 32 0x00000011))).map record
    = some (0x00000802, 0, 0) := by decide

/-- E1: the reset tree is Uninitialized, seen through a host script run to its end. -/
theorem test_step_script : ((stateOf (Host.Core.run core 4 (State.reset.load
    [.cmd .encodeP, .wait, .rdEq (.reg .status) 0x00000502] []))).map fun s => (s.log.map (·.met), s.fsm))
      = some ([true, true, true], .idle) := by decide

/-! ### Witnesses: for each statement with hypotheses, states and operands that meet them, one for each clause -/

/-- BUSY with a word pending. -/
def busy (v : Word) : State := State.reset.accept v

theorem ok_V1 : engV1.Ok Config.rc := by decide

theorem ok_V2 : engV2.Ok Config.rc ∧ engV2.Ok Config.tc := ⟨by decide, by decide⟩

theorem ok_V4 : engV4.Ok Config.rc ∧ engV4.Ok Config.tc := ⟨by decide, by decide⟩

theorem witness_DecodeAndEncodeAgree : Instr.wf .build = true ∧ decodeCmd 0x00000012 = .valid .encodeC := by decide

/-- One word for each of the three reasons, and a word for none of them. -/
theorem witness_BadWordsByTheirFields :
    ((0x00000004 : Word).toNat % 16 ≠ 1 ∧ (0x00000004 : Word).toNat % 16 ≠ 2 ∧ (0x00000004 : Word).toNat % 16 ≠ 3)
    ∧ ((0x00000011 : Word).toNat % 16 = 1 ∧ (0x00000011 : Word).toNat / 16 % 2 = 1)
    ∧ (0x00000022 : Word).toNat / 32 ≠ 0 ∧ (0x80000001 : Word).toNat / 32 ≠ 0
    ∧ decodeCmd 0x00000012 = .valid .encodeC := by decide

theorem witness_EngineStepRunsTheDecodedCommand :
    (busy 0x00000012).nextTurn = some (.engine, []) ∧ decodeCmd (busy 0x00000012).pend = .valid .encodeC
    ∧ decodeTableWord 32 0x00000003 = some .decodeP := by decide

theorem witness_BadWordCompletesWithBadCmd :
    State.reset.fsm = .idle ∧ decodeCmd 0x00000022 = .bad .reservedBits ∧ (busy 0x00000022).nextTurn = some (.engine, []) ∧ decodeCmd (busy 0x00000022).pend = .bad .reservedBits := by decide

/-- BUSY, with two turns of the host before the engine's. -/
theorem witness_AcceptedCommandEnds :
    ({ busy 0x00000001 with turns := [.host, .host, .engine], script := [.wait, .wait] } : State).fsm = .busy := by decide

theorem witness_AcceptanceOfACommandWord : State.reset.fsm = .idle ∧ (busy 0x00000001).fsm = .busy
    ∧ decodeCmd 0x00000011 = .bad .formatOfBuild := by decide

/-- A reset while a command is pending (R156), and one while IDLE. -/
theorem witness_ResetEventClearsEverything :
    ({ busy 0x00000001 with turns := [.reset, .engine] } : State).nextTurn = some (.reset, [.engine])
    ∧ ({ State.reset with turns := [.reset] } : State).nextTurn = some (.reset, []) ∧ Instr.encodeP ≠ .build := by decide

/-- The first and the last word of the code window, with the largest value written to the selectors. -/
theorem witness_RegistersReadTheirResetValues : 0 < Config.rc.codeWords ∧ 7 < Config.rc.codeWords
    ∧ (((State.initial Config.rc).memWrite 0x034 0xFFFFFFFF).2.memRead 0x010000).1 = (0, .okay)
    ∧ (((State.initial Config.rc).memWrite 0x034 0xFFFFFFFF).2.memRead 0x01001C).1 = (0, .okay)
    ∧ (((State.initial Config.rc).memWrite 0x040 0xFFFFFFFF).2.memRead 0x044).1 = (0, .okay) := by decide

/-- The six clauses at their first and last addresses in RC, which answer ERROR, and the addresses beside them, which
answer OKAY (R59, R60). -/
theorem witness_PortRefusesMisalignedAndUnimplemented :
    (([0x000001, 0x3FFFFF, 0x000054, 0x00FFFC, 0x010020, 0x0FFFFC, 0x104000, 0x1FFFFC, 0x204000, 0x2FFFFC, 0x304000,
        0x3FFFFC] : List Addr).all fun a =>
      (State.reset.memRead a).1.2 == .error && (State.reset.memWrite a 1).1 == .error) = true
    ∧ (([0x000000, 0x000050, 0x010000, 0x01001C, 0x100000, 0x103FFC, 0x200000, 0x203FFC, 0x300000, 0x303FFC] :
        List Addr).all fun a =>
      (State.reset.memRead a).1.2 == .okay && (State.reset.memWrite a 1).1 == .okay) = true
    ∧ Config.rc.codeWords = 8 ∧ Config.rc.maxLen = 0x1000 ∧ Config.rc.bitWords = 0x1000 := by decide

/-- Below and at the first output buffer, BUSY: the second uses up a draw. -/
theorem witness_ReadsChangeNothing : State.reset.fsm = .idle ∧ (0x1FFFFC : Addr).toNat < 0x200000
    ∧ ((busy 0x00000001).memRead 0x200000).2.draws = 1 := by decide

/-- The last entry of each region, and what a dropped write leaves. -/
theorem witness_WritesDuringABusyCommand : (busy 0x00000001).fsm = .busy
    ∧ (4095 < (busy 1).cfg.maxLen ∧ (0x103FFC : Addr).toNat = 0x100000 + 4 * 4095)
    ∧ (4095 < (busy 1).cfg.bitWords ∧ (0x303FFC : Addr).toNat = 0x300000 + 4 * 4095)
    ∧ (7 < (busy 1).cfg.codeWords ∧ (0x01001C : Addr).toNat = 0x010000 + 4 * 7)
    ∧ (0x203FFC : Addr).toNat = 0x200000 + 4 * 4095
    ∧ ((busy 1).memWrite 0x018 2).2.pend = 1 ∧ ((busy 1).memWrite 0x018 2).2.ovr = true := by decide

theorem witness_ControlStatusAndLengthRegisters : State.reset.fsm = .idle ∧ (busy 0x00000001).fsm = .busy := by decide

/-- The last valid NODESEL of V1 and the first that selects no node. -/
theorem witness_SelectorsKeepTheirWidths : 2 * engV1.k - 1 ≤ (5 : BitVec 17).toNat
    ∧ (({ withEng engV1 State.reset with nodesel := 5 } : State).memRead 0x044).1.1 = 0
    ∧ (({ withEng engV1 State.reset with nodesel := 4 } : State).memRead 0x044).1.1 = 0x80000000 := by decide

/-- The first and the last entry, IDLE and BUSY; bits above SYM_W are ignored. -/
theorem witness_TextInputWords : 0 < State.reset.cfg.maxLen ∧ 4095 < State.reset.cfg.maxLen ∧ State.reset.fsm = .idle
    ∧ (busy 1).fsm = .busy
    ∧ ((State.reset.memWrite 0x103FFC 0xFFFFFF61).2.memRead 0x103FFC).1 = (0x61, .okay) := by decide

theorem witness_BitBufferWords : 0 < State.reset.cfg.bitWords ∧ 4095 < State.reset.cfg.bitWords ∧ State.reset.fsm = .idle
    ∧ (busy 1).fsm = .busy
    ∧ (State.reset.memWrite 0x303FFC 0x80000001).2.bit 131071 = true
    ∧ (State.reset.memWrite 0x303FFC 0x80000001).2.bit 131070 = false := by decide

theorem witness_OutputReadsWhileBusySayNothing : 4095 < State.reset.cfg.maxLen ∧ State.reset.fsm = .idle
    ∧ (busy 1).fsm = .busy ∧ 0x200000 ≤ (0x200000 : Addr).toNat ∧ 0x200000 ≤ (0x3FFFFF : Addr).toNat := by decide

/-- A Leaf, an Internal node, the last node, and no node: of V1, and of an Uninitialized ENG. -/
theorem witness_NodeRegistersShowTheSelectedNode : engV1.built = true ∧ (4 : BitVec 17).toNat < 2 * engV1.k - 1
    ∧ engV1.nodes[0]? = some (.leaf 0x61 3) ∧ engV1.nodes[4]? = some (.internal 6 0 3)
    ∧ ¬ (engV1.built = true ∧ (5 : BitVec 17).toNat < 2 * engV1.k - 1)
    ∧ ¬ (State.reset.eng.built = true ∧ State.reset.nodesel.toNat < 2 * State.reset.eng.k - 1) := by decide

theorem witness_CodeWindowShowsTheWholeCode : engV1.Ok Config.rc ∧ engV1.codeOf 0x62 = some [true, true]
    ∧ 7 < Config.rc.codeWords
    ∧ (({ withEng engV1 State.reset with sel := 0x63 } : State).memRead 0x010000).1.1 = 1 := by decide

/-- Two states that differ in much else, and an address of each kind. -/
theorem witness_InspectionReadsDependOnEngineAndSelectors :
    let s := withEng engV1 State.reset
    let t := withEng engV1 (busy 0x00000001)
    s.cfg = t.cfg ∧ s.eng = t.eng ∧ s.sel = t.sel ∧ s.nodesel = t.nodesel ∧ s.fsm ≠ t.fsm
    ∧ (0x028 : Addr) ∈ ([0x028, 0x02C, 0x030, 0x038, 0x03C, 0x044, 0x048, 0x04C, 0x050] : List Addr)
    ∧ 0x010000 ≤ (0x010000 : Addr).toNat ∧ (0x0FFFFF : Addr).toNat < 0x100000 := by decide

/-- A committed tree, one of a single symbol, and none. -/
theorem witness_TableEnumerationYieldsTheTables : (withEng engV1 State.reset).eng.Ok Config.rc
    ∧ (withEng engV2 State.reset).eng.Ok Config.rc ∧ State.reset.eng.Ok Config.rc ∧ State.reset.eng.built = false :=
  ⟨ok_V1, ok_V2.1, by decide, rfl⟩

/-- V1, V4 (k = 2), V2 (k = 1), and no tree. -/
theorem witness_TreeRenderingShowsTheCodePaths : (withEng engV1 State.reset).eng.Ok Config.rc ∧ engV1.built = true
    ∧ 2 ≤ engV1.k ∧ (engV2.Ok Config.rc ∧ engV2.built = true ∧ engV2.k = 1) ∧ State.reset.eng.built = false
    ∧ (withEng engV4 State.reset).readTree = some (.internal 2 (.leaf 0x61 1) (.leaf 0x62 1))
    ∧ (withEng engV2 State.reset).readTree = some (.leaf 0x61 4) :=
  ⟨ok_V1, by decide, by decide, ⟨ok_V2.1, by decide⟩, by decide, by decide, by decide⟩

/-- One above the capacity, and 0. -/
theorem witness_BuildRejectsEmptyAndLongText : ({ State.reset with len := 4097 } : State).cfg.maxLen < 4097
    ∧ State.reset.len.toNat = 0 := by decide

/-- The shortest text, and one of exactly MAX_LEN symbols (TC). -/
theorem witness_BuildCommitsTheFrequenciesOfTheText :
    (1 ≤ (textState Config.tc [0x61]).len.toNat ∧ (textState Config.tc [0x61]).len.toNat ≤ Config.tc.maxLen)
    ∧ (textState Config.tc [0x61, 0x62, 0x63, 0x64]).len.toNat = Config.tc.maxLen := by decide

/-- BUILD of V1 and of V2 answer, with k = 3 and k = 1. -/
theorem witness_build_answers :
    (∃ t, exec .build (textState Config.rc aaabbc) = .next t ∧ 2 ≤ t.eng.k)
    ∧ ∃ t, exec .build (textState Config.tc [0x61, 0x61, 0x61, 0x61]) = .next t ∧ t.eng.k = 1 :=
  ⟨⟨_, rfl, by decide⟩, ⟨_, rfl, by decide⟩⟩

/-- V1 (k = 3) and V2 (k = 1). -/
theorem witness_CodesArePrefixFree : 1 ≤ (textState Config.rc aaabbc).len.toNat
    ∧ (textState Config.rc aaabbc).len.toNat ≤ (textState Config.rc aaabbc).cfg.maxLen
    ∧ (∃ t, exec .build (textState Config.rc aaabbc) = .next t ∧ 2 ≤ t.eng.k ∧ t.eng.codeOf 0x62 = some [true, true]
        ∧ t.eng.codeOf 0x63 = some [true, false])
    ∧ ∃ t, exec .build (textState Config.tc [0x61, 0x61, 0x61, 0x61]) = .next t ∧ t.eng.k = 1 :=
  ⟨by decide, by decide, ⟨_, rfl, by decide⟩, witness_build_answers.2⟩

theorem witness_CodesAreRootToLeafPaths : 1 ≤ (textState Config.rc aaabbc).len.toNat
    ∧ (textState Config.rc aaabbc).len.toNat ≤ (textState Config.rc aaabbc).cfg.maxLen
    ∧ ∃ t, exec .build (textState Config.rc aaabbc) = .next t ∧ 2 ≤ t.eng.k :=
  ⟨by decide, by decide, witness_build_answers.1⟩

/-- One occurrence, and MAX_LEN of them (TC). -/
theorem witness_SingleSymbolTextIsOneLeaf :
    ((textState Config.tc [0x61]).len.toNat = 1 ∧ (textState Config.tc [0x61]).text Config.tc 1 = List.replicate 1 0x61)
    ∧ (textState Config.tc [0x61, 0x61, 0x61, 0x61]).len.toNat = Config.tc.maxLen
    ∧ (textState Config.tc [0x61, 0x61, 0x61, 0x61]).text Config.tc 4 = List.replicate 4 0x61 := by decide

theorem witness_MergesRemoveNodesInKeyOrder : 1 ≤ (textState Config.rc aaabbc).len.toNat
    ∧ (textState Config.rc aaabbc).len.toNat ≤ (textState Config.rc aaabbc).cfg.maxLen
    ∧ ∃ t, exec .build (textState Config.rc aaabbc) = .next t ∧ t.eng.children = [2, 1, 0, 3] :=
  ⟨by decide, by decide, _, rfl, by decide⟩

/-- "ab" and "ba" (V4), in configurations of their own. -/
theorem witness_BuildDependsOnFrequenciesOnly :
    let s := textState Config.rc [0x61, 0x62]
    let s' := textState Config.tc [0x62, 0x61]
    1 ≤ s.len.toNat ∧ s.len.toNat ≤ s.cfg.maxLen ∧ 1 ≤ s'.len.toNat ∧ s'.len.toNat ≤ s'.cfg.maxLen
    ∧ (∀ y, (s.text s.cfg s.len.toNat).count y = (s'.text s'.cfg s'.len.toNat).count y)
    ∧ (∃ t, exec .build s = .next t) ∧ ∃ t', exec .build s' = .next t' := by
  refine ⟨by decide, by decide, by decide, by decide, fun y => ?_, ⟨_, rfl⟩, ⟨_, rfl⟩⟩
  have h : (textState Config.rc [0x61, 0x62]).text Config.rc (textState Config.rc [0x61, 0x62]).len.toNat = [0x61, 0x62] := by decide
  have h' : (textState Config.tc [0x62, 0x61]).text Config.tc (textState Config.tc [0x62, 0x61]).len.toNat = [0x62, 0x61] := by decide
  show List.count y (Block.text Config.rc _ _) = List.count y (Block.text Config.tc _ _)
  rw [h, h']
  exact (List.Perm.swap (0x62 : Sym) 0x61 []).count_eq y

/-- For each of the four commands, with LEN = 0 and with LEN above every capacity. -/
theorem witness_UninitializedTreeIsCheckedFirst : State.reset.eng.built = false
    ∧ ({ State.reset with len := 0xFFFFFFFF } : State).eng.built = false := by decide

/-- One above each capacity, for each command. -/
theorem witness_LengthAboveCapacityIsLenRange : Config.rc.maxLen < (4097 : Word).toNat
    ∧ Config.rc.maxBits < (131073 : Word).toNat ∧ (withEng engV1 State.reset).eng.built = true
    ∧ (withEng engV1 State.reset).cfg = Config.rc := by decide

theorem witness_ErrorsOfEachCommand : (∃ t, exec .build State.reset = .next t) ∧ (∃ t, exec .encodeP State.reset = .next t)
    ∧ (∃ t, exec .encodeC State.reset = .next t) ∧ (∃ t, exec .decodeP State.reset = .next t)
    ∧ ∃ t, exec .decodeC State.reset = .next t := ⟨⟨_, rfl⟩, ⟨_, rfl⟩, ⟨_, rfl⟩, ⟨_, rfl⟩, ⟨_, rfl⟩⟩

/-- V1 for both formats; an empty text; and a stream of exactly the capacity (TC, "aaaa" as characters). -/
theorem witness_EncodeWritesTheConcatenatedCodes :
    let s := withEng engV1 (textState Config.rc aaabbc)
    let u := withEng engV2 (textState Config.tc [0x61, 0x61, 0x61, 0x61])
    let cs : List Bits := [[false], [false], [false], [true, true], [true, true], [true, false]]
    (s.eng.built = true ∧ s.len.toNat ≤ s.cfg.maxLen ∧ (s.text s.cfg s.len.toNat).map s.eng.codeOf = cs.map some
      ∧ cs.flatten.length ≤ Fmt.packed.outCap s.cfg ∧ cs.flatten.length ≤ Fmt.char.outCap s.cfg)
    ∧ ((withEng engV1 State.reset).text Config.rc 0).map engV1.codeOf = ([] : List Bits).map some
    ∧ (u.text u.cfg u.len.toNat).map u.eng.codeOf = (List.replicate 4 [false]).map some
    ∧ (List.replicate 4 [false]).flatten.length = Fmt.char.outCap u.cfg := by decide

/-- V3's "abcd" (index 3), and "dabc" (index 0). -/
theorem witness_EncodeStopsAtAnUnknownSymbol :
    let s := withEng engV3 (textState Config.rc [0x61, 0x62, 0x63, 0x64])
    let u := withEng engV3 (textState Config.rc [0x64, 0x61, 0x62, 0x63])
    let cs : List Bits := [[true, false], [true, true], [false]]
    (s.eng.built = true ∧ s.len.toNat ≤ s.cfg.maxLen ∧ 3 < s.len.toNat ∧ (s.text s.cfg 3).map s.eng.codeOf = cs.map some
      ∧ cs.flatten.length ≤ Fmt.packed.outCap s.cfg ∧ cs.flatten.length ≤ Fmt.char.outCap s.cfg
      ∧ s.eng.codeOf (s.txtIn s.cfg 3) = none)
    ∧ (0 < u.len.toNat ∧ (u.text u.cfg 0).map u.eng.codeOf = ([] : List Bits).map some ∧ u.eng.codeOf (u.txtIn u.cfg 0) = none) := by
  decide

/-- TC, V3's tree: "abc" makes 5 bits, and TXT_OUT has 4 entries; BIT has 32 bits (a configuration of 20 symbols). -/
theorem witness_EncodeStopsAtAnOverflow :
    let s := withEng engV3 (textState Config.tc [0x61, 0x62, 0x63])
    let c : Config := { Config.tc with maxLen := 20, maxLen_range := by decide }
    let u := withEng engV3 (textState c (List.replicate 17 0x61))
    (s.eng.built = true ∧ s.len.toNat ≤ s.cfg.maxLen ∧ 2 < s.len.toNat
      ∧ (s.text s.cfg 2).map s.eng.codeOf = ([[true, false], [true, true]] : List Bits).map some
      ∧ 4 ≤ Fmt.char.outCap s.cfg ∧ s.eng.codeOf (s.txtIn s.cfg 2) = some [false] ∧ Fmt.char.outCap s.cfg < 4 + 1)
    ∧ (u.len.toNat ≤ u.cfg.maxLen ∧ 16 < u.len.toNat
      ∧ (u.text u.cfg 16).map u.eng.codeOf = (List.replicate 16 [true, false]).map some
      ∧ u.eng.codeOf (u.txtIn u.cfg 16) = some [true, false]
      ∧ (List.replicate 16 [true, false]).flatten.length = Fmt.packed.outCap u.cfg) := by decide

/-- A stream, and the two errors that come before any symbol. -/
theorem witness_EncodeFrame : (∃ t, exec Fmt.packed.encoder (withEng engV1 (textState Config.rc aaabbc)) = .next t)
    ∧ (∃ t, exec Fmt.char.encoder (withEng engV1 (textState Config.rc aaabbc)) = .next t)
    ∧ (∃ t, exec Fmt.packed.encoder (textState Config.rc aaabbc) = .next t ∧ t.err = .uninitializedTree)
    ∧ ∃ t, exec Fmt.char.encoder { withEng engV1 State.reset with len := 4097 } = .next t ∧ t.err = .lenRange :=
  ⟨⟨_, rfl⟩, ⟨_, rfl⟩, ⟨_, rfl, by decide⟩, ⟨_, rfl, by decide⟩⟩

/-- V1 with its tree and frequency table taken away. -/
theorem witness_EncodeReadsOnlyTheCodeTable :
    let s := withEng engV1 (textState Config.rc aaabbc)
    let s' := withEng { engV1 with nodes := [], freq := [], root := 0, k := 0, total := 0 } (textState Config.rc aaabbc)
    s.cfg = s'.cfg ∧ s.len = s'.len ∧ s.eng.built = s'.eng.built ∧ (∀ y, s.eng.codeOf y = s'.eng.codeOf y)
    ∧ (∀ i, i < s.len.toNat → s.txtIn s.cfg i = s'.txtIn s'.cfg i)
    ∧ (∃ t, exec Fmt.packed.encoder s = .next t) ∧ ∃ t', exec Fmt.packed.encoder s' = .next t' :=
  ⟨rfl, rfl, rfl, fun _ => rfl, fun _ _ => rfl, ⟨_, rfl⟩, ⟨_, rfl⟩⟩

/-- V1 packed, V4's "010" as characters, V2 (k = 1), and a text of exactly MAX_LEN symbols (TC). -/
theorem witness_DecodeReturnsTheEncodedText :
    let s := withEng engV1 (bitState Config.rc [0x000000F8] 9)
    let cs : List Bits := [[false], [false], [false], [true, true], [true, true], [true, false]]
    let u := withEng engV4 (textState Config.rc [0x30, 0x31, 0x30])
    let v := withEng engV2 (bitState Config.tc [0] 4)
    (s.eng.Ok s.cfg ∧ s.eng.built = true
      ∧ ([0x61, 0x61, 0x61, 0x62, 0x62, 0x63] : List Sym).map s.eng.codeOf = cs.map some ∧ 6 ≤ s.cfg.maxLen
      ∧ s.len.toNat = cs.flatten.length ∧ s.len.toNat ≤ Fmt.packed.inCap s.cfg ∧ s.InputIs s.cfg .packed cs.flatten)
    ∧ (u.eng.Ok u.cfg ∧ ([0x61, 0x62, 0x61] : List Sym).map u.eng.codeOf = ([[false], [true], [false]] : List Bits).map some
      ∧ u.len.toNat = 3 ∧ u.InputIs u.cfg .char [false, true, false])
    ∧ (v.eng.Ok v.cfg ∧ (List.replicate 4 0x61).map v.eng.codeOf = (List.replicate 4 [false]).map some
      ∧ 4 = v.cfg.maxLen ∧ v.len.toNat = 4 ∧ v.InputIs v.cfg .packed (List.replicate 4 false)) :=
  ⟨⟨ok_V1, by decide⟩, ⟨ok_V4.1, by decide⟩, ⟨ok_V2.2, by decide⟩⟩

/-- V5: "111" packed, and "1" as a character. -/
theorem witness_DecodeOfAStreamEndingMidCode :
    let s := withEng engV1 (bitState Config.rc [0x00000007] 3)
    let u := withEng engV1 (textState Config.rc [0x31])
    (s.eng.Ok s.cfg ∧ s.eng.built = true ∧ ([0x62] : List Sym).map s.eng.codeOf = ([[true, true]] : List Bits).map some
      ∧ s.eng.codeOf 0x63 = some ([true] ++ [false]) ∧ s.len.toNat = 3 ∧ s.len.toNat ≤ Fmt.packed.inCap s.cfg
      ∧ s.InputIs s.cfg .packed [true, true, true])
    ∧ (u.eng.Ok u.cfg ∧ u.eng.codeOf 0x62 = some ([true] ++ [true]) ∧ u.len.toNat = 1 ∧ u.InputIs u.cfg .char [true]) :=
  ⟨⟨ok_V1, by decide⟩, ⟨ok_V1, by decide⟩⟩

/-- TC: four codes fill TXT_OUT, a fifth follows, and a bit is left over; the ENG is V4's. -/
theorem witness_DecodeStopsAtAFullTextBuffer :
    let s := withEng engV4 (bitState Config.tc [0x00000010] 6)
    s.eng.Ok s.cfg ∧ s.eng.built = true
    ∧ (List.replicate 4 0x61).map s.eng.codeOf = (List.replicate 4 [false]).map some
    ∧ (List.replicate 4 (0x61 : Sym)).length = s.cfg.maxLen ∧ s.eng.codeOf 0x62 = some [true] ∧ s.len.toNat = 6
    ∧ s.len.toNat ≤ s.cfg.maxBits
    ∧ s.InputIs s.cfg .packed ((List.replicate 4 [false]).flatten ++ [true] ++ [false]) :=
  ⟨ok_V4.2, by decide⟩

/-- V5's "01a" (index 2), and " " (index 0); and a DECODE.P that answers. -/
theorem witness_DecodeStopsAtAnInvalidCharacter :
    let s := withEng engV1 (textState Config.rc [0x30, 0x31, 0x61])
    let u := withEng engV1 (textState Config.rc [0x20])
    (s.eng.built = true ∧ s.len.toNat ≤ s.cfg.maxLen ∧ 2 < s.len.toNat
      ∧ (∀ j, j < 2 → s.txtIn s.cfg j = 0x30 ∨ s.txtIn s.cfg j = 0x31) ∧ s.txtIn s.cfg 2 ≠ 0x30 ∧ s.txtIn s.cfg 2 ≠ 0x31)
    ∧ (0 < u.len.toNat ∧ u.txtIn u.cfg 0 ≠ 0x30 ∧ u.txtIn u.cfg 0 ≠ 0x31)
    ∧ ∃ t, exec .decodeP (withEng engV1 (bitState Config.rc [0x000000F8] 8)) = .next t :=
  ⟨by decide, by decide, _, rfl⟩

/-- V2: "0101" packed, "01" as characters; and E3's "01010" (TC), one bit more than TXT_OUT has entries. -/
theorem witness_SingleLeafDecodesEveryBit :
    let s := withEng engV2 (bitState Config.rc [0x0000000A] 4)
    let u := withEng engV2 (textState Config.rc [0x30, 0x31])
    let v := withEng engV2 (bitState Config.tc [0x0000000A] 5)
    (s.eng.built = true ∧ s.eng.nodes[s.eng.root]? = some (.leaf 0x61 4) ∧ (0x61 : Sym).toNat < s.cfg.nsymMax
      ∧ s.len.toNat = 4 ∧ s.len.toNat ≤ Fmt.packed.inCap s.cfg ∧ s.len.toNat ≤ s.cfg.maxLen
      ∧ s.InputIs s.cfg .packed [false, true, false, true])
    ∧ (u.len.toNat = 2 ∧ u.len.toNat ≤ Fmt.char.inCap u.cfg ∧ u.InputIs u.cfg .char [false, true])
    ∧ ((0x61 : Sym).toNat < v.cfg.nsymMax ∧ v.len.toNat ≤ Fmt.packed.inCap v.cfg ∧ v.cfg.maxLen < v.len.toNat
      ∧ v.InputIs v.cfg .packed [false, true, false, true, false]) := by decide

theorem witness_DecodeFrame : (∃ t, exec Fmt.packed.decoder (withEng engV1 (bitState Config.rc [0x000000F8] 9)) = .next t)
    ∧ ∃ t, exec Fmt.char.decoder (withEng engV4 (textState Config.rc [0x30, 0x78, 0x31])) = .next t := ⟨⟨_, rfl⟩, ⟨_, rfl⟩⟩

/-- V4: "0110" packed, "1111" as characters; and TC, where the stream is of exactly MAX_LEN bits. -/
theorem witness_TwoSymbolStreamsAlwaysDecode :
    let s := withEng engV4 (bitState Config.rc [0x00000006] 4)
    let u := withEng engV4 (textState Config.tc [0x31, 0x31, 0x31, 0x31])
    (s.eng.Ok s.cfg ∧ s.eng.built = true ∧ s.eng.k = 2 ∧ s.len.toNat = 4 ∧ s.len.toNat ≤ Fmt.packed.inCap s.cfg
      ∧ s.len.toNat ≤ s.cfg.maxLen ∧ s.InputIs s.cfg .packed [false, true, true, false])
    ∧ (u.eng.Ok u.cfg ∧ u.len.toNat = u.cfg.maxLen ∧ u.InputIs u.cfg .char [true, true, true, true]) :=
  ⟨⟨ok_V4.1, by decide⟩, ⟨ok_V4.2, by decide⟩⟩

/-- V1 with its code table and frequency table taken away. -/
theorem witness_DecodeReadsOnlyTheTree :
    let s := withEng engV1 (bitState Config.rc [0x000000F8] 9)
    let s' := withEng { engV1 with code := [], freq := [], k := 0, total := 0 } (bitState Config.rc [0x000000F8] 9)
    s.cfg = s'.cfg ∧ s.len = s'.len ∧ s.eng.built = s'.eng.built ∧ s.eng.nodes = s'.eng.nodes ∧ s.eng.root = s'.eng.root
    ∧ (∀ i, i < s.len.toNat → s.readBit s.cfg .packed i = s'.readBit s'.cfg .packed i)
    ∧ (∃ t, exec Fmt.packed.decoder s = .next t) ∧ ∃ t', exec Fmt.packed.decoder s' = .next t' :=
  ⟨rfl, rfl, rfl, rfl, rfl, fun _ _ => rfl, ⟨_, rfl⟩, ⟨_, rfl⟩⟩

/-- V1, and a text of exactly MAX_LEN symbols whose stream is of exactly MAX_LEN bits (TC, "aaaa"). -/
theorem witness_PackedRoundTrip :
    let s := textState Config.rc aaabbc
    1 ≤ s.len.toNat ∧ s.len.toNat ≤ s.cfg.maxLen
    ∧ ∃ s1, exec .build (s.accept 0x00000001) = .next s1
      ∧ ((s.text s.cfg s.len.toNat).map fun y => ((s1.eng.codeOf y).getD []).length).sum = 9 ∧ 9 ≤ s.cfg.maxBits :=
  ⟨by decide, by decide, _, rfl, by decide⟩

theorem witness_CharacterRoundTrip :
    let s := textState Config.tc [0x61, 0x61, 0x61, 0x61]
    1 ≤ s.len.toNat ∧ s.len.toNat ≤ s.cfg.maxLen
    ∧ ∃ s1, exec .build (s.accept 0x00000001) = .next s1
      ∧ ((s.text s.cfg s.len.toNat).map fun y => ((s1.eng.codeOf y).getD []).length).sum = s.cfg.maxLen
      ∧ ∃ s2, exec .encodeC (s1.accept 0x00000012) = .next s2
        ∧ ∃ u : State, u.cfg = s2.cfg ∧ u.eng = s2.eng ∧ u.len = s2.outlen
          ∧ ∀ j, j < s2.outlen.toNat → u.txtIn u.cfg j = s2.txtOut s2.cfg j :=
  ⟨by decide, by decide, _, rfl, by decide, _, rfl,
    withEng engV2 (textState Config.tc [0x30, 0x30, 0x30, 0x30]), by decide, by decide, by decide, by decide⟩

theorem witness_InterruptFollowsDoneAndEnable : (∃ t, exec .build State.reset = .next t) ∧ (∃ t, execBad State.reset = .next t)
    ∧ (0x0000000A : Word).getLsbD 1 = true ∧ (0x00000000 : Word).getLsbD 0 = false ∧ State.reset.fsm = .idle
    ∧ ({ State.reset with done := true } : State).done = true ∧ (0x00000001 : Word).getLsbD 0 = true :=
  ⟨⟨_, rfl⟩, ⟨_, rfl⟩, by decide⟩

/-- A BUILD that completes, and a reset of a built ENG. -/
theorem witness_OnlyASuccessfulBuildChangesEngine :
    (∃ t, step ((textState Config.rc aaabbc).withFetchWord 32 1) = .next t ∧ t.eng ≠ Eng.uninitialized)
    ∧ ∃ t, step { withEng engV1 State.reset with turns := [.reset] } = .next t ∧ t.eng ≠ engV1 :=
  ⟨⟨_, rfl, by decide⟩, ⟨_, rfl, by decide⟩⟩

/-- BUSY, with a write to LEN and a write to CTRL to issue. -/
theorem witness_HostCannotDisturbARunningCommand :
    let s := { busy 1 with script := [.issue (.write 0x01C 5)] }
    let u := { busy 1 with script := [.issue (.write 0x010 1)] }
    s.fsm = .busy ∧ s.done = false ∧ s.hostStep.ovr = true ∧ s.hostStep.len = 0 ∧ u.hostStep.ie = true := by decide

/-- The same block with a script and without one; and a write to LEN while BUSY. -/
theorem witness_CompletionIgnoresTheHostWhileBusy :
    let s := { (textState Config.rc aaabbc).accept 1 with script := [.issue (.write 0x01C 5)] }
    s.fsm = .busy ∧ (∃ t, engineStep s = .next t) ∧ (∃ u, engineStep (State.hostStep^[1] s) = .next u)
    ∧ ∃ s' : State, s'.toBlock = s.toBlock ∧ s'.cfg = s.cfg ∧ s'.script ≠ s.script ∧ ∃ t', exec .build s' = .next t' :=
  ⟨rfl, ⟨_, rfl⟩, ⟨_, rfl⟩, (textState Config.rc aaabbc).accept 1, rfl, rfl, by decide, _, rfl⟩

/-- A reset, a write to STATUS through the port, and one through a bridge. -/
theorem witness_OverrunIsSticky :
    let s := { State.reset with ovr := true, turns := [.reset] }
    let u := { State.reset with ovr := true, script := [.issue (.write 0x014 0x0000000A)] }
    let v := { State.reset with ovr := true, script := [.bus ⟨0x14, 4, some 0x00000008⟩] }
    (∃ t, step s = .next t ∧ t.ovr = false) ∧ (∃ t, step u = .next t ∧ t.ovr = false)
    ∧ ∃ t, step v = .next t ∧ t.ovr = false :=
  ⟨⟨_, rfl, by decide⟩, ⟨_, rfl, by decide⟩, ⟨_, rfl, by decide⟩⟩

/-- Behind HC_BASE = 0x40000000: two bytes at a word address, a misaligned word, a whole word at the first and the last
word of the window, and an address on each side of it. -/
theorem witness_BridgePassesWholeWordsOnly :
    let s : State := State.initial { Config.rc with hcBase := 0x40000000 }
    let on (addr bytes : Nat) (v : Option Word) : State := { s with script := [.bus ⟨addr, bytes, v⟩] }
    (on 0x40000010 2 (some 1)).hostStep.ie = false
    ∧ ((on 0x40000012 4 none).hostStep.log.map fun r => r.resp) = [.error] ∧ 0x12 % 4 ≠ 0
    ∧ (on 0x40000010 4 (some 1)).hostStep.ie = true
    ∧ ((on 0x40000000 4 none).hostStep.log.map fun r => r.data) = [0x48554646] ∧ 0x3FFFFC < 2 ^ 22
    ∧ (on 0x40400010 4 (some 1)).hostStep.ie = false ∧ s.cfg.hcBase + 2 ^ 22 ≤ 0x40400010
    ∧ (on 0x3FFFFFFC 4 (some 1)).hostStep.log = [] ∧ 0x3FFFFFFC < s.cfg.hcBase := by decide

/-- The empty text, and one of exactly MAX_LEN characters (TC). -/
theorem witness_TextStatementLoadsTheInput :
    let s := (State.initial Config.tc).load [.text ['a', 'b', 'c', 'd'], .wait] []
    let u := (State.initial Config.tc).load [.text []] []
    s.fsm = .idle ∧ ['a', 'b', 'c', 'd'].length = s.cfg.maxLen
    ∧ s.script = (Stmt.text ['a', 'b', 'c', 'd']).expand ++ [.wait] ∧ u.script = (Stmt.text []).expand ++ [] := by decide

theorem witness_EveryStepKeepsTheTreeInvariants : (textState Config.rc aaabbc).eng.Ok Config.rc
    ∧ ∃ t, step ((textState Config.rc aaabbc).withFetchWord 32 1) = .next t ∧ t.eng.built = true :=
  ⟨by decide, _, rfl, by decide⟩

/-- The last entry of BIT is written. -/
theorem witness_EveryStepKeepsMemoryCanonical :
    let s := { State.reset with script := [.issue (.write 0x303FFC 1)] }
    s.MemOk ∧ ∃ t, step s = .next t ∧ t.mem.length = 4 :=
  ⟨by decide, _, rfl, by decide⟩

theorem witness_EveryStepKeepsSelectorsAndRecord :
    let s := { busy 1 with script := [.issue (.write 0x040 0xFFFFFFFF)], turns := [.host] }
    s.SelOk ∧ s.RecordOk ∧ ∃ t, step s = .next t ∧ t.nodesel = 0x1FF :=
  ⟨by decide, by decide, _, rfl, by decide⟩

end Sys2Proof.Tests
end

section
/-! The state and its registers (10_state.md): which steps change ENG, and what the registers that hold or show plain values
read and take. -/

namespace Sys2Proof.Machine

/-! ### Register words and guarded writes -/

/-- A register shows a natural in full when it fits in 32 bits. -/
theorem toNat_natReg {n : Nat} (h : n < 2 ^ 32) : (natReg n).toNat = n := by
  rw [natReg, BitVec.toNat_ofNat, Nat.mod_eq_of_lt h]

/-- CTRL reads IE in bit 0 and 0 above it (R33). -/
theorem Block.toNat_ctrlWord (s : Block) : s.ctrlWord.toNat = if s.ie then 1 else 0 := by
  cases hie : s.ie <;> simp [ctrlWord, hie]

theorem Block.unlessBusy_of_idle {s : Block} (f : Block → Block) (h : s.fsm = .idle) : s.unlessBusy f = f s := by
  simp [unlessBusy, h]

theorem Block.unlessBusy_of_busy {s : Block} (f : Block → Block) (h : s.fsm = .busy) : s.unlessBusy f = s.overrun := by
  simp [unlessBusy, h]

namespace State

/-- While IDLE a write to LEN sets LEN and nothing else (R38). -/
theorem memWrite_len_of_idle {s : State} (v : Word) (h : s.fsm = .idle) :
    s.memWrite 0x01C v = (.okay, s.onBlock (Block.setLen v)) :=
  (memWrite_reg (r := .len) v rfl).trans <| by
    simp only [onBlock, Block.regWrite, Block.unlessBusy_of_idle _ h]

/-- While BUSY a write to LEN is dropped and sets OVR (R67). -/
theorem memWrite_len_of_busy {s : State} (v : Word) (h : s.fsm = .busy) :
    s.memWrite 0x01C v = (.okay, s.onBlock Block.overrun) :=
  (memWrite_reg (r := .len) v rfl).trans <| by
    simp only [onBlock, Block.regWrite, Block.unlessBusy_of_busy _ h]

end State

/-! ### The steps that leave ENG as it is -/

/-- No write of the host reaches ENG (R23): it goes to a register, to an input buffer or to OVR. -/
@[simp] theorem Block.memWrite_eng (c : Config) (s : Block) (a : Addr) (v : Word) :
    (s.memWrite c a v).2.eng = s.eng := by
  obtain hw | ⟨-, hw⟩ | ⟨-, hw⟩ | ⟨-, hw⟩ | ⟨-, hw⟩ | ⟨-, hw⟩ | ⟨-, -, hw⟩ | ⟨-, -, hw⟩ | ⟨-, _, -, -, hw⟩
    | ⟨-, _, -, -, hw⟩ := Block.memWrite_cases c s a v
  all_goals rw [hw]
  all_goals rfl

/-- A read of the host changes nothing of the block (R57). -/
@[simp] theorem State.memRead_toBlock (s : State) (a : Addr) : (s.memRead a).2.toBlock = s.toBlock := by
  obtain hr | ⟨-, -, hr⟩ := s.memRead_cases a
  · rw [hr]
  · rw [hr, State.drew_toBlock]

/-- No step of the host touches ENG (R23). -/
@[simp] theorem State.hostStep_eng (s : State) : s.hostStep.eng = s.eng := by
  obtain ⟨u, rest, log, he, rfl | ⟨a, rfl⟩ | ⟨a, v, rfl, -⟩⟩ := s.hostStep_cases
  · rw [he]
  · rw [he]; exact congrArg Block.eng (s.memRead_toBlock a)
  · rw [he]; exact s.toBlock.memWrite_eng s.cfg a v

/-- A completion changes ENG only when it is that of a BUILD of 1 to MAX_LEN symbols, which succeeds (R23, R96). -/
theorem exec_eng {i : Instr} {s t : State} (h : exec i s = .next t) :
    t.eng = s.eng ∨ (i = .build ∧ 1 ≤ s.inputLen ∧ s.inputLen ≤ s.cfg.maxLen ∧ t.err = .none
      ∧ t.eng = buildEng (s.text s.cfg s.inputLen)) := by
  obtain ⟨-, ⟨-, hbuild⟩ | ⟨hkeep, -⟩⟩ := exec_next h
  · exact hbuild
  · exact .inl hkeep

/-! ### The obligations -/

/-- Settles O51, by the cases of what a step can do: the host's steps and a BAD word keep ENG, and of the commands only a
successful BUILD replaces it. -/
theorem onlyASuccessfulBuildChangesEngine : Obligations.OnlyASuccessfulBuildChangesEngine := by
  intro s t hstep hne
  obtain ⟨-, rfl⟩ | ⟨ts, -, rfl⟩ | ⟨ts, i, hturn, -, hpend, hexec⟩ | ⟨ts, why, -, -, -, rfl⟩ | ⟨ts, hturn, -⟩ :=
    step_cases hstep
  · exact absurd rfl hne
  · exact absurd (s.turnsTo ts).hostStep_eng hne
  · obtain hkeep | ⟨rfl, hpos, hmax, herr, heng⟩ := exec_eng hexec
    · exact absurd hkeep hne
    · exact .inr ⟨ts, hturn, hpend, hpos, hmax, herr, heng⟩
  · exact absurd rfl hne
  · exact .inl ⟨ts, hturn⟩

/-- Settles O13: each of the four addresses leads to its register, and the parameters fit in 32 bits. -/
theorem identityAndConfigurationRegisters : Obligations.IdentityAndConfigurationRegisters := by
  intro s
  have hsymW := s.cfg.symW_range
  have hmaxLen := s.cfg.maxLen_range
  have hmaxBits := s.cfg.maxBits_range
  refine ⟨State.memRead_reg (r := .id) rfl, ?_, ?_, ?_⟩
  · rw [State.memRead_reg (r := .cfgSymw) rfl]; exact ⟨toNat_natReg (by omega), rfl⟩
  · rw [State.memRead_reg (r := .cfgMaxlen) rfl]; exact ⟨toNat_natReg (by omega), rfl⟩
  · rw [State.memRead_reg (r := .cfgMaxbits) rfl]; exact ⟨toNat_natReg (by omega), rfl⟩

/-- Settles O15: each address leads to its register, where `regRead` and `regWrite` say what the access does. -/
theorem controlStatusAndLengthRegisters : Obligations.ControlStatusAndLengthRegisters := by
  intro s v
  refine ⟨State.memWrite_reg (r := .ctrl) v rfl, ?ctrlReads, State.memWrite_reg (r := .status) v rfl, ?lenReads,
    State.memWrite_len_of_idle v, State.memWrite_len_of_busy v, fun _ => rfl, rfl, State.memRead_reg (r := .cmd) rfl,
    State.memRead_reg (r := .outlen) rfl, State.memRead_reg (r := .errpos) rfl, State.memRead_reg (r := .nsym) rfl,
    State.memRead_reg (r := .total) rfl, State.memRead_reg (r := .root) rfl, State.memRead_reg (r := .sel) rfl,
    State.memRead_reg (r := .nodesel) rfl⟩
  case ctrlReads => rw [State.memRead_reg (r := .ctrl) rfl]; exact s.toNat_ctrlWord
  case lenReads => rw [State.memRead_reg (r := .len) rfl]; rfl

end Sys2Proof.Machine
end

section
/-! The host port and its address map (20_memory.md): which addresses the port refuses, which writes it drops or ignores, and
the words of TXT_IN. -/

namespace Sys2Proof.Machine

/-! ### The address map, by the number of an address -/

theorem addr_eq_ofNat {a : Addr} {n : Nat} (h : a.toNat = n) : a = BitVec.ofNat 22 n := by simp [← h]

section
variable {c : Config} {a : Addr} {w : Nat}

theorem locate_of_toNat_reg {r : Reg} (ha : a.toNat = r.offset) : locate c a = some (.reg r) :=
  addr_eq_ofNat ha ▸ locate_reg c r

theorem locate_of_toNat_codeWin (hw : w < c.codeWords) (ha : a.toNat = 0x010000 + 4 * w) :
    locate c a = some (.codeWin w) := addr_eq_ofNat ha ▸ locate_codeWin c hw

theorem locate_of_toNat_txtIn (hw : w < c.maxLen) (ha : a.toNat = 0x100000 + 4 * w) :
    locate c a = some (.txtIn w) := addr_eq_ofNat ha ▸ locate_txtIn c hw

theorem locate_of_toNat_txtOut (hw : w < c.maxLen) (ha : a.toNat = 0x200000 + 4 * w) :
    locate c a = some (.txtOut w) := addr_eq_ofNat ha ▸ locate_txtOut c hw

theorem locate_of_toNat_bit (hw : w < c.bitWords) (ha : a.toNat = 0x300000 + 4 * w) :
    locate c a = some (.bit w) := addr_eq_ofNat ha ▸ locate_bit c hw

end

/-- An address at a word boundary at or past `base` names a word counted from `base`. -/
theorem exists_wordIndex {base n : Nat} (hbase : base % 4 = 0) (hn : n % 4 = 0) (hle : base ≤ n) :
    ∃ w, n = base + 4 * w := ⟨(n - base) / 4, by omega⟩

/-! ### The addresses the port refuses -/

/-- The offsets of the register map are word addresses below 0x054 (R27). -/
theorem Reg.offset_bound (r : Reg) : r.offset % 4 = 0 ∧ r.offset < 0x54 := by cases r <;> decide

/-- The register map has no hole below 0x054 (R27). -/
theorem Reg.exists_offset {n : Nat} (hword : n % 4 = 0) (hlt : n < 0x54) : ∃ r : Reg, n = r.offset := by
  have hmap : ∀ k < 21, ∃ r ∈ Reg.all, 4 * k = r.offset := by decide
  obtain ⟨r, -, hr⟩ := hmap (n / 4) (by omega)
  exact ⟨r, by omega⟩

/-- The code window lies below TXT_IN in every configuration (R7, R54). -/
theorem codeWords_le (c : Config) : c.codeWords ≤ 2048 := by
  have hpow : 2 ^ c.symW ≤ 2 ^ 16 := Nat.pow_le_pow_right (by omega) c.symW_range.2
  simp only [Config.codeWords, Config.codeMax, Config.nsymMax]
  omega

/-- The addresses that lead nowhere: misaligned (R59), above the last register, or past the words of a region (R60). -/
theorem locate_eq_none_iff (c : Config) (a : Addr) : locate c a = none ↔
    a.toNat % 4 ≠ 0
    ∨ (0x54 ≤ a.toNat ∧ a.toNat < 0x010000)
    ∨ (0x010000 + 4 * c.codeWords ≤ a.toNat ∧ a.toNat < 0x100000)
    ∨ (0x100000 + 4 * c.maxLen ≤ a.toNat ∧ a.toNat < 0x200000)
    ∨ (0x200000 + 4 * c.maxLen ≤ a.toNat ∧ a.toNat < 0x300000)
    ∨ 0x300000 + 4 * c.bitWords ≤ a.toNat := by
  constructor
  · contrapose!
    rintro ⟨hword, hreg, hcode, hin, hout, hbit⟩
    rw [Option.ne_none_iff_exists']
    rcases Nat.lt_or_ge a.toNat 0x010000 with h1 | h1
    · obtain ⟨r, ha⟩ := Reg.exists_offset hword (by omega)
      exact ⟨_, locate_of_toNat_reg ha⟩
    rcases Nat.lt_or_ge a.toNat 0x100000 with h2 | h2
    · obtain ⟨w, ha⟩ := exists_wordIndex (by decide) hword h1
      exact ⟨_, locate_of_toNat_codeWin (by omega) ha⟩
    rcases Nat.lt_or_ge a.toNat 0x200000 with h3 | h3
    · obtain ⟨w, ha⟩ := exists_wordIndex (by decide) hword h2
      exact ⟨_, locate_of_toNat_txtIn (by omega) ha⟩
    rcases Nat.lt_or_ge a.toNat 0x300000 with h4 | h4
    · obtain ⟨w, ha⟩ := exists_wordIndex (by decide) hword h3
      exact ⟨_, locate_of_toNat_txtOut (by omega) ha⟩
    · obtain ⟨w, ha⟩ := exists_wordIndex (by decide) hword h4
      exact ⟨_, locate_of_toNat_bit (by omega) ha⟩
  · intro hrefused
    have hcode := codeWords_le c
    have hlen := c.maxLen_range.2
    rw [Option.eq_none_iff_forall_ne_some]
    intro l hl
    obtain ⟨r, -, rfl⟩ | ⟨w, -, hw, ha⟩ | ⟨w, -, hw, ha⟩ | ⟨w, -, hw, ha⟩ | ⟨w, -, hw, ha⟩ := locate_cases hl
    · obtain ⟨hword, hlt⟩ := r.offset_bound
      have ha : (BitVec.ofNat 22 r.offset).toNat = r.offset := Nat.mod_eq_of_lt (by omega)
      omega
    all_goals omega

namespace State

section
variable {s : State} {a : Addr} {w : Nat}

/-! ### Accesses by what the address names -/

/-- A refused read answers ERROR, reads 0 and changes nothing (R59, R60). -/
theorem memRead_of_none (h : locate s.cfg a = none) : s.memRead a = ((0, .error), s) := by
  simp [memRead, Block.memRead, Block.drawsAt, h]

/-- A refused write answers ERROR and changes nothing (R59, R60). -/
theorem memWrite_of_none (v : Word) (h : locate s.cfg a = none) : s.memWrite a v = (.error, s) := by
  simp [memWrite, Block.memWrite, onBlock, h]

/-- A read of an implemented address is answered OKAY (R57). -/
theorem memRead_resp_of_some {l : PortLoc} (h : locate s.cfg a = some l) : (s.memRead a).1.2 = .okay := by
  cases l <;> simp [memRead, Block.memRead, h]

/-- A write to an implemented address is answered OKAY (R58). -/
theorem memWrite_resp_of_some {l : PortLoc} (v : Word) (h : locate s.cfg a = some l) :
    (s.memWrite a v).1 = .okay := by
  cases l <;> simp [memWrite, Block.memWrite, h]

theorem memWrite_codeWin (v : Word) (h : locate s.cfg a = some (.codeWin w)) : s.memWrite a v = (.okay, s) := by
  simp [memWrite, Block.memWrite, onBlock, h]

theorem memWrite_txtOut (v : Word) (h : locate s.cfg a = some (.txtOut w)) : s.memWrite a v = (.okay, s) := by
  simp [memWrite, Block.memWrite, onBlock, h]

theorem memWrite_txtIn (v : Word) (h : locate s.cfg a = some (.txtIn w)) :
    s.memWrite a v = (.okay, s.onBlock fun b => b.unlessBusy (Block.setTxtIn s.cfg w v)) := by
  simp [memWrite, Block.memWrite, onBlock, h]

theorem memWrite_bit (v : Word) (h : locate s.cfg a = some (.bit w)) :
    s.memWrite a v = (.okay, s.onBlock fun b => b.unlessBusy (Block.setBitWord w v)) := by
  simp [memWrite, Block.memWrite, onBlock, h]

/-- A read of a TXT_IN word, IDLE or BUSY (R62). -/
theorem memRead_txtIn (h : locate s.cfg a = some (.txtIn w)) :
    s.memRead a = ((wordOfSym (s.txtIn s.cfg w), .okay), s) := by
  simp [memRead, Block.memRead, Block.drawsAt, h]

/-! ### Guarded writes -/

theorem onBlock_unlessBusy_of_idle (f : Block → Block) (h : s.fsm = .idle) :
    (s.onBlock fun b => b.unlessBusy f) = s.onBlock f := by
  simp only [onBlock, Block.unlessBusy_of_idle f h]

theorem onBlock_unlessBusy_of_busy (f : Block → Block) (h : s.fsm = .busy) :
    (s.onBlock fun b => b.unlessBusy f) = { s with ovr := true } := by
  simp only [onBlock, Block.unlessBusy_of_busy f h, Block.overrun]

end

end State

/-! ### Read-only registers -/

/-- The registers that a write leaves alone (R27, R67). -/
def Reg.readOnly : List Reg :=
  [.id, .cfgSymw, .cfgMaxlen, .cfgMaxbits, .outlen, .errpos, .nsym, .total, .root, .freq, .codelen, .nodeInfo,
    .nodeWeight, .nodeZero, .nodeOne]

theorem Block.regWrite_of_readOnly (c : Config) (s : Block) (v : Word) :
    ∀ r ∈ Reg.readOnly, s.regWrite c r v = s := by
  simp [Reg.readOnly, regWrite]

/-- A write to a read-only register is ignored, IDLE or BUSY (R67). -/
theorem State.memWrite_of_readOnly (s : State) (v : Word) {r : Reg} (h : r ∈ Reg.readOnly) :
    s.memWrite (BitVec.ofNat 22 r.offset) v = (.okay, s) :=
  (memWrite_reg v (locate_reg s.cfg r)).trans <| by
    simp only [onBlock, Block.regWrite_of_readOnly _ _ _ r h]

/-! ### A TXT_IN word -/

/-- The symbol in a word, put back in a word: the low SYM_W bits, zero-extended (R61). -/
theorem wordOfSym_symOfWord (c : Config) (v : Word) :
    wordOfSym (symOfWord c v) = BitVec.ofNat 32 (v.toNat % 2 ^ c.symW) := by
  rw [← toNat_symOfWord, ← toNat_wordOfSym, BitVec.ofNat_toNat, BitVec.setWidth_eq]

/-- A TXT_IN word holds the symbol written to it (R62). -/
@[simp] theorem Block.txtIn_setTxtIn (c : Config) (w : Nat) (v : Word) (s : Block) :
    (s.setTxtIn c w v).txtIn c w = symOfWord c v := by
  rw [txtIn, setTxtIn, readWord_writeWord_self, symOfWord_wordOfSym c _ (symOfWord_lt c v)]

/-- A write to a TXT_IN word changes no byte but the word's four (R62). -/
theorem Block.sameOutside_setTxtIn (c : Config) (w : Nat) (v : Word) (s : Block) :
    SameOutside (txtInBase + 4 * w) 4 s (s.setTxtIn c w v) :=
  sameOutside_writeWords s (txtInBase + 4 * w) [wordOfSym (symOfWord c v)]

/-! ### The obligations -/

/-- Settles O10: the refused addresses are those that `locate` leads nowhere, and the port answers by `locate`. -/
theorem portRefusesMisalignedAndUnimplemented : Obligations.PortRefusesMisalignedAndUnimplemented := by
  intro s a v refusedAddr
  have hiff : locate s.cfg a = none ↔ refusedAddr := locate_eq_none_iff s.cfg a
  constructor
  · intro h
    have hnone := hiff.2 h
    exact ⟨State.memRead_of_none hnone, State.memWrite_of_none v hnone⟩
  · intro h
    obtain ⟨l, hl⟩ := Option.ne_none_iff_exists'.1 (mt hiff.1 h)
    exact ⟨State.memRead_resp_of_some hl, State.memWrite_resp_of_some v hl⟩

/-- Settles O12: the guarded writes go through `unlessBusy`, the four writable registers never do, and a read-only location
keeps the block as it is. -/
theorem writesDuringABusyCommand : Obligations.WritesDuringABusyCommand := by
  refine ⟨?dropped, ?written, ?ignored⟩
  case dropped =>
    rintro s a v hbusy (rfl | rfl | ⟨w, hw, ha⟩ | ⟨w, hw, ha⟩)
    · rw [State.memWrite_reg (r := .cmd) v rfl]
      exact congrArg _ (State.onBlock_unlessBusy_of_busy _ hbusy)
    · exact State.memWrite_len_of_busy v hbusy
    · rw [State.memWrite_txtIn v (locate_of_toNat_txtIn hw ha), State.onBlock_unlessBusy_of_busy _ hbusy]
    · rw [State.memWrite_bit v (locate_of_toNat_bit hw ha), State.onBlock_unlessBusy_of_busy _ hbusy]
  case written =>
    intro s v _
    exact ⟨State.memWrite_reg (r := .ctrl) v rfl, State.memWrite_reg (r := .status) v rfl,
      State.memWrite_reg (r := .sel) v rfl, State.memWrite_reg (r := .nodesel) v rfl⟩
  case ignored =>
    rintro s a v (ha | ⟨w, hw, ha⟩ | ⟨w, hw, ha⟩)
    · have hmap : a ∈ Reg.readOnly.map fun r => BitVec.ofNat 22 r.offset := ha
      obtain ⟨r, hr, rfl⟩ := List.mem_map.1 hmap
      exact s.memWrite_of_readOnly v hr
    · exact State.memWrite_codeWin v (locate_of_toNat_codeWin hw ha)
    · exact State.memWrite_txtOut v (locate_of_toNat_txtOut hw ha)

/-- Settles O17: the address names the TXT_IN word, whose write while IDLE stores the symbol of `v` and while BUSY goes to
OVR. -/
theorem textInputWords : Obligations.TextInputWords := by
  intro s w v hw a t
  have hloc : locate s.cfg a = some (.txtIn w) := locate_txtIn s.cfg hw
  have ht : t = s.onBlock fun b => b.unlessBusy (Block.setTxtIn s.cfg w v) :=
    congrArg Prod.snd (State.memWrite_txtIn v hloc)
  refine ⟨congrArg Prod.fst (State.memRead_txtIn hloc), fun hidle => ?_, fun hbusy => ?_⟩
  · rw [State.onBlock_unlessBusy_of_idle _ hidle] at ht
    have hsym : t.txtIn t.cfg w = symOfWord s.cfg v := by rw [ht]; exact Block.txtIn_setTxtIn _ _ _ _
    have hread : (t.memRead a).1 = (wordOfSym (t.txtIn t.cfg w), .okay) :=
      congrArg Prod.fst (State.memRead_txtIn (by rw [ht]; exact hloc))
    refine ⟨?_, ?_, ?_, ?_⟩
    · rw [hread, hsym, wordOfSym_symOfWord]
    · rw [hsym, toNat_symOfWord]
    · rw [ht]; exact Block.sameOutside_setTxtIn _ _ _ _
    · rw [ht]; rfl
  · rw [ht, State.onBlock_unlessBusy_of_busy _ hbusy]

end Sys2Proof.Machine
end

section
/-! The command words (30_encoding.md): the decoder and the encoder are inverse to each other, BAD words are known by their
fields, and a write to CMD is the acceptance of its word. -/

namespace Sys2Proof.Machine

/-! ### Decoder and encoder -/

/-- A command's word decodes to the command (R76). -/
@[simp] theorem decodeCmd_encode (i : Instr) : decodeCmd (encode i) = .valid i := by cases i <;> rfl

/-- A command is selected by its own word alone, all 32 bits of it (R76). -/
theorem decodeCmd_eq_valid_iff {v : Word} {i : Instr} : decodeCmd v = .valid i ↔ v = encode i :=
  ⟨decodeCmd_eq_valid, fun hv => hv ▸ decodeCmd_encode i⟩

/-- On the number of a whole command word the table's decoder is `decodeCmd`. -/
theorem decodeTableWord_toNat_of_valid {v : Word} {i : Instr} (h : decodeCmd v = .valid i) :
    decodeTableWord 32 v.toNat = some i := by
  have hword : BitVec.ofNat 32 (v.toNat % 2 ^ 32) = v := by
    rw [Nat.mod_eq_of_lt v.isLt, BitVec.ofNat_toNat, BitVec.setWidth_eq]
  simp only [decodeTableWord, hword, h, le_refl, if_true]

/-! ### BAD words -/

/-- The BAD words are those of no command (R79). -/
theorem exists_decodeCmd_eq_bad_iff (v : Word) : (∃ why, decodeCmd v = .bad why) ↔ ¬ ∃ i, v = encode i := by
  simp only [← decodeCmd_eq_valid_iff]
  cases decodeCmd v with
  | valid i => simp
  | bad why => simp

/-- The command words as numbers (the table of R76). -/
theorem exists_eq_encode_iff (v : Word) : (∃ i, v = encode i) ↔
    v.toNat = 0x01 ∨ v.toNat = 0x02 ∨ v.toNat = 0x12 ∨ v.toNat = 0x03 ∨ v.toNat = 0x13 := by
  simp only [← BitVec.toNat_inj]
  constructor
  · rintro ⟨i, hi⟩
    cases i <;> simp [hi, encode]
  · rintro (h | h | h | h | h)
    exacts [⟨.build, h⟩, ⟨.encodeP, h⟩, ⟨.encodeC, h⟩, ⟨.decodeP, h⟩, ⟨.decodeC, h⟩]

/-! ### Acceptance -/

namespace State

/-- While IDLE a write to CMD is the acceptance of its word (R80). -/
theorem memWrite_cmd_of_idle {s : State} (v : Word) (h : s.fsm = .idle) : s.memWrite 0x018 v = (.okay, s.accept v) :=
  (memWrite_reg (r := .cmd) v rfl).trans (congrArg _ (onBlock_unlessBusy_of_idle _ h))

/-- While BUSY a write to CMD is dropped and sets OVR (R80). -/
theorem memWrite_cmd_of_busy {s : State} (v : Word) (h : s.fsm = .busy) :
    s.memWrite 0x018 v = (.okay, { s with ovr := true }) :=
  (memWrite_reg (r := .cmd) v rfl).trans (congrArg _ (onBlock_unlessBusy_of_busy _ h))

end State

/-- The engine completes a BAD word with BAD_CMD (R81). -/
theorem engineStep_of_bad {s : State} {why : BadWord} (h : decodeCmd s.pend = .bad why) :
    engineStep s = .next (s.completeWith doBad) := by
  simp only [engineStep, h, execBad]

/-! ### The obligations -/

/-- Settles O3: a word is BAD when it is none of the five of the table, and those five numbers are the ones whose fields
R79 allows. -/
theorem badWordsByTheirFields : Obligations.BadWordsByTheirFields := by
  intro v
  refine ⟨⟨decodeCmd_eq_valid_iff, decodeCmd_eq_valid_iff, decodeCmd_eq_valid_iff, decodeCmd_eq_valid_iff,
    decodeCmd_eq_valid_iff⟩, ?_⟩
  rw [exists_decodeCmd_eq_bad_iff, exists_eq_encode_iff]
  omega

/-- Settles O2: the words are read off `encode`, and the decoder is its inverse. -/
theorem decodeAndEncodeAgree : Obligations.DecodeAndEncodeAgree :=
  ⟨⟨rfl, rfl, rfl, rfl, rfl⟩,
    fun i _ => ⟨decodeCmd_encode i, decodeTableWord_toNat_of_valid (decodeCmd_encode i)⟩,
    fun _ _ => decodeCmd_eq_valid⟩

/-- Settles O7: the write goes through `unlessBusy`; what it accepts is in PEND when the engine moves, which answers a BAD
word by `doBad`. -/
theorem acceptanceOfACommandWord : Obligations.AcceptanceOfACommandWord := by
  intro s v
  refine ⟨State.memWrite_cmd_of_idle v, State.memWrite_cmd_of_busy v, fun why hidle hbad => ?_⟩
  rw [State.memWrite_cmd_of_idle v hidle]
  exact ⟨_, engineStep_of_bad (s := s.accept v) hbad, rfl, rfl, rfl⟩

end Sys2Proof.Machine
end

section
/-! BUILD (40_build.md): how it ends for each length of the text, how the codes of a committed tree share out its paths, and the
ENG that a text gives. -/

namespace Sys2Proof.Machine

/-! ### How a BUILD ends -/

section
variable {c : Config} {b : Block}

theorem doBuild_of_long (h : c.maxLen < b.inputLen) : doBuild c b = b.raiseEarly .lenRange := if_pos h

theorem doBuild_of_empty (h : b.inputLen = 0) : doBuild c b = b.raiseEarly .emptyInput :=
  (if_neg (by omega)).trans (if_pos h)

theorem doBuild_of_text (hpos : 1 ≤ b.inputLen) (hmax : b.inputLen ≤ c.maxLen) :
    doBuild c b = (b.commit (buildEng (b.text c b.inputLen))).succeed (2 * (buildEng (b.text c b.inputLen)).k - 1) :=
  (if_neg (by omega)).trans (if_neg (by omega))

end

namespace State

/-- The ENG that a BUILD of the input text commits. -/
def inputEng (s : State) : Eng := buildEng (s.text s.cfg s.len.toNat)

section
variable {s : State}

/-- A BUILD of 1 to MAX_LEN symbols commits the ENG of the text and changes nothing else but the record (R87, R96). -/
theorem exec_build_of_text (hpos : 1 ≤ s.len.toNat) (hmax : s.len.toNat ≤ s.cfg.maxLen) :
    exec .build s = .next { s.completedWith .none 0 (2 * s.inputEng.k - 1) with eng := s.inputEng } :=
  (exec_eq .build s).trans (congrArg _ (completeWith_eq (doBuild_of_text hpos hmax)))

theorem eng_of_exec_build {t : State} (hpos : 1 ≤ s.len.toNat) (hmax : s.len.toNat ≤ s.cfg.maxLen)
    (h : exec .build s = .next t) : t.eng = s.inputEng := by
  rw [exec_build_of_text hpos hmax] at h
  injection h with h
  rw [← h]

/-- The ENG of a non-empty input text is a committed tree (R22). -/
theorem inputEng_treeOk (hpos : 1 ≤ s.len.toNat) : s.inputEng.TreeOk s.cfg :=
  buildEng_treeOk s.cfg _ (List.length_pos_iff.1 (by rw [Block.length_text]; exact hpos)) fun _ => Block.text_nsym s.cfg _ _

/-- A successful BUILD leaves a committed tree (R22). -/
theorem treeOk_of_exec_build {t : State} (hpos : 1 ≤ s.len.toNat) (hmax : s.len.toNat ≤ s.cfg.maxLen)
    (h : exec .build s = .next t) : t.eng.TreeOk s.cfg :=
  eng_of_exec_build hpos hmax h ▸ inputEng_treeOk hpos

end

end State

/-! ### The ENG of a text -/

/-- The ENG of a text depends on how often each symbol occurs, and on nothing else (R100). -/
theorem buildEng_congr {t t' : List Sym} (h : ∀ y, t.count y = t'.count y) : buildEng t = buildEng t' := by
  rw [buildEng_eq, buildEng_eq, countFreq_congr h, (List.perm_iff_count.2 h).length_eq]

theorem countFreq_replicate (n : Nat) (y : Sym) : countFreq (List.replicate (n + 1) y) = [(y, n + 1)] := by
  induction n with
  | zero => rfl
  | succ n ih =>
    rw [List.replicate_succ', countFreq, List.foldl_append, ← countFreq, ih]
    simp [bump, Table.set, Table.get?]

/-- One distinct symbol: its Leaf is the whole tree, and its code is [0] (R93, R95). -/
theorem buildEng_replicate {n : Nat} (y : Sym) (h : 1 ≤ n) : buildEng (List.replicate n y) =
    { built := true, k := 1, total := n, root := 0, freq := [(y, n)], code := [(y, [false])], nodes := [.leaf y n] } := by
  obtain ⟨n, rfl⟩ := Nat.exists_eq_succ_of_ne_zero (by omega : n ≠ 0)
  rw [buildEng_eq, countFreq_replicate, List.length_replicate]
  rfl

/-! ### The walk for codes -/

namespace Shape

variable {e : Eng} {k : Nat}

/-- The walk records no path twice: the two sides of an Internal node differ in the bit after the path to it. -/
theorem nodup_walk (h : Shape e.nodes k) (fuel : Nat) : ∀ (n : Nat) (p : Bits), n < fuel → n < e.nodes.length →
    (walk fuel e.nodes n p).Nodup := by
  induction fuel with
  | zero => intro n _ hf; omega
  | succ fuel ih =>
    intro n p hf hn
    rcases Nat.lt_or_ge n k with hk | hk
    · obtain ⟨y, w, hleaf⟩ := h.leaf n hk
      simp [walk, hleaf]
    · obtain ⟨z, o, hnode, hz, ho, -⟩ := h.inner n hn hk
      simp only [walk, hnode]
      refine (ih z _ (by omega) (by omega)).append (ih o _ (by omega) (by omega)) ?_
      rintro ⟨y, q⟩ hzero hone
      obtain ⟨r, hr, -⟩ := (h.mem_walk fuel z _ (by omega) (by omega) y q).1 hzero
      obtain ⟨r', hr', -⟩ := (h.mem_walk fuel o _ (by omega) (by omega) y q).1 hone
      simp [hr] at hr'

/-- A path of L bits counts 2^(d - L). The paths through a node then count as much as the path to it, for it is halved at each
Internal node on the way down, and d leaves room for the Internal nodes that can follow. -/
theorem sum_walk (h : Shape e.nodes k) (d fuel : Nat) : ∀ (n : Nat) (p : Bits), n < fuel → n < e.nodes.length →
    p.length + (n + 1 - k) ≤ d →
    ((walk fuel e.nodes n p).map fun x => 2 ^ (d - x.2.length)).sum = 2 ^ (d - p.length) := by
  induction fuel with
  | zero => intro n _ hf; omega
  | succ fuel ih =>
    intro n p hf hn hd
    rcases Nat.lt_or_ge n k with hk | hk
    · obtain ⟨y, w, hleaf⟩ := h.leaf n hk
      simp [walk, hleaf]
    · obtain ⟨z, o, hnode, hz, ho, -⟩ := h.inner n hn hk
      have hlen : ∀ b : Bool, (p ++ [b]).length = p.length + 1 := by simp
      simp only [walk, hnode, List.map_append, List.sum_append]
      rw [ih z _ (by omega) (by omega) (by rw [hlen]; omega), ih o _ (by omega) (by omega) (by rw [hlen]; omega), hlen, hlen,
        ← Nat.two_mul, ← Nat.pow_succ']
      congr 1
      omega

end Shape

/-! ### The codes of a committed tree -/

namespace Eng.TreeOk

variable {c : Config} {e : Eng} {y z : Sym} {p q : Bits}

/-- The counted symbols are those of the frequency table (R20). -/
theorem freqOf_pos_iff (h : e.TreeOk c) (y : Sym) : 0 < e.freqOf y ↔ y ∈ e.freq.map Prod.fst := by
  rw [← Table.get?_isSome_iff, Eng.freqOf]
  cases hy : Table.get? e.freq y with
  | none => simp
  | some n => exact iff_of_true (h.freq_sym _ (Table.mem_of_get? hy)).1 rfl

/-- Exactly the counted symbols have a code (R99). -/
theorem codeOf_ne_none_iff (h : e.TreeOk c) (y : Sym) : e.codeOf y ≠ none ↔ 0 < e.freqOf y := by
  rw [h.freqOf_pos_iff, ← h.code_keys, Eng.codeOf, Ne, Table.get?_eq_none_iff, not_not]

/-- A code leads from the root to the Leaf of its symbol (R94). -/
theorem code_path (h : e.TreeOk c) (h2 : 2 ≤ e.k) (hp : e.codeOf y = some p) :
    ∃ m, e.descend e.root p = some m ∧ e.leafAt m = some y :=
  Option.bind_eq_some_iff.1 ((h.codeOf_iff h2 y p).1 hp)

/-- A code is no longer than the tree is deep (R99). -/
theorem code_length_le (h : e.TreeOk c) (h2 : 2 ≤ e.k) (hp : e.codeOf y = some p) : p.length ≤ e.k - 1 := by
  obtain ⟨m, hm, -⟩ := h.code_path h2 hp
  have hdepth := (h.shape.descend_le hm).2 (h.code_ne_nil hp)
  rw [h.root_eq] at hdepth
  omega

/-- A code belongs to one symbol: the one at the end of its path (R99). -/
theorem code_injective (h : e.TreeOk c) (hy : e.codeOf y = some p) (hz : e.codeOf z = some p) : y = z := by
  refine Option.some.inj ?_
  rcases Nat.lt_or_ge e.k 2 with hk | h2
  · have h1 : e.k = 1 := by have := h.one_le; omega
    rw [← (h.codeOf_single h1 hy).2, ← (h.codeOf_single h1 hz).2]
  · rw [← (h.codeOf_iff h2 y p).1 hy, ← (h.codeOf_iff h2 z p).1 hz]

/-- A code begins no other symbol's code: a proper part of a code ends at an Internal node (R99). -/
theorem eq_of_code_isPrefix (h : e.TreeOk c) (hy : e.codeOf y = some p) (hz : e.codeOf z = some q) (hpre : p <+: q) : y = z := by
  obtain ⟨r, rfl⟩ := hpre
  rcases eq_or_ne r [] with rfl | hr
  · exact h.code_injective hy (by simpa using hz)
  · obtain ⟨m, hm, hinner, -, h2⟩ := h.descend_part hz (h.code_ne_nil hy) hr
    obtain ⟨m', hm', hleaf⟩ := h.code_path h2 hy
    obtain rfl : m = m' := Option.some.inj (hm.symm.trans hm')
    rw [hinner] at hleaf
    cases hleaf

/-- The code table holds what the walk from the root finds (R94). -/
theorem code_perm_walk (h : e.TreeOk c) (h2 : 2 ≤ e.k) : e.code.Perm (walk (e.root + 1) e.nodes e.root []) := by
  have hroot : e.root < e.nodes.length := by rw [h.root_eq, h.nodes_length]; omega
  refine (List.perm_ext_iff_of_nodup (nodup_keys h.code_wf).of_map
    (h.shape.nodup_walk _ _ _ (Nat.lt_succ_self _) hroot)).2 ?_
  rintro ⟨y, p⟩
  rw [h.shape.mem_walk _ _ _ (Nat.lt_succ_self _) hroot]
  calc (y, p) ∈ e.code ↔ e.codeOf y = some p := ⟨Table.get?_of_mem h.code_wf, Table.mem_of_get?⟩
    _ ↔ (e.descend e.root p).bind e.leafAt = some y := h.codeOf_iff h2 y p
    _ ↔ _ := by simp

/-- The code lengths fill the tree: Kraft's sum is 1, here times 2^(k-1) (R99). -/
theorem sum_code (h : e.TreeOk c) (h2 : 2 ≤ e.k) :
    (e.code.map fun x => 2 ^ (e.k - 1 - x.2.length)).sum = 2 ^ (e.k - 1) := by
  have hroot := h.root_eq
  have hlen := h.nodes_length
  rw [((h.code_perm_walk h2).map _).sum_eq]
  exact h.shape.sum_walk (e.k - 1) _ _ [] (Nat.lt_succ_self _) (by omega) (by simp only [List.length_nil]; omega)

end Eng.TreeOk

/-! ### The obligations -/

/-- Settles O27: the ENG committed is a tree of R22, whose codes are the paths to its leaves. -/
theorem codesArePrefixFree : Obligations.CodesArePrefixFree := by
  intro s t hpos hmax hexec
  have htree := State.treeOk_of_exec_build hpos hmax hexec
  refine ⟨htree.codeOf_ne_none_iff, fun y p hp => ⟨htree.code_ne_nil hp, fun h1 => ?_, fun h2 => htree.code_length_le h2 hp,
    (htree.code_entry _ (Table.mem_of_get? hp)).2.1⟩, fun y z p q hne hy hz => ?_, htree.sum_code⟩
  · rw [(htree.codeOf_single h1 hp).1]; rfl
  · have hpre : ¬ p <+: q := mt (htree.eq_of_code_isPrefix hy hz) hne
    exact ⟨fun heq => hpre (heq ▸ List.prefix_refl p), hpre⟩

/-- Settles O26: the counts are those of `countFreq`, the shape of the tree is that of R22, and NSYM and TOTAL fit their
registers. -/
theorem buildCommitsTheFrequenciesOfTheText : Obligations.BuildCommitsTheFrequenciesOfTheText := by
  intro s hpos hmax
  have htree := State.inputEng_treeOk hpos
  have htotal : s.inputEng.total = s.len.toNat := Block.length_text _ _ _
  have hk : s.inputEng.k = (s.text s.cfg s.len.toNat).dedup.length := length_countFreq _
  have hnsym : s.inputEng.k < 2 ^ 32 := by
    have hpow : s.cfg.nsymMax ≤ 2 ^ 16 := Nat.pow_le_pow_right (by omega) s.cfg.symW_range.2
    have := htree.k_le
    omega
  refine ⟨s.inputEng, State.exec_build_of_text hpos hmax, rfl, htotal, countFreq_get? _, htree.freq_sum.trans htotal, hk,
    ?nsym, ?total, htree.nodes_length, htree.root_eq⟩
  case nsym => rw [State.memRead_reg (r := .nsym) rfl, ← hk]; exact toNat_natReg hnsym
  case total =>
    rw [State.memRead_reg (r := .total) rfl]
    exact (toNat_natReg (htotal ▸ s.len.isLt)).trans htotal

/-- Settles O28: the ENG committed is a tree of R22. -/
theorem codesAreRootToLeafPaths : Obligations.CodesAreRootToLeafPaths := by
  intro s t hpos hmax hexec h2
  exact (State.treeOk_of_exec_build hpos hmax hexec).codeOf_iff h2

/-- Settles O29: BUILD commits the ENG of the text, which is the one Leaf. -/
theorem singleSymbolTextIsOneLeaf : Obligations.SingleSymbolTextIsOneLeaf := by
  rintro s y n hpos hmax rfl htext
  have heng : s.inputEng = _ := (congrArg buildEng htext).trans (buildEng_replicate y hpos)
  rw [State.exec_build_of_text hpos hmax, heng]
  rfl

/-- Settles O31: both BUILDs commit the ENG of their text, which depends on the counts only. -/
theorem buildDependsOnFrequenciesOnly : Obligations.BuildDependsOnFrequenciesOnly := by
  intro s s' t t' hpos hmax hpos' hmax' hcount hexec hexec'
  rw [State.eng_of_exec_build hpos hmax hexec, State.eng_of_exec_build hpos' hmax' hexec']
  exact buildEng_congr hcount

/-- Settles O25: either length ends the BUILD with an early error, which keeps ENG and the buffers. -/
theorem buildRejectsEmptyAndLongText : Obligations.BuildRejectsEmptyAndLongText := by
  intro s
  have hbuild := exec_eq .build s
  constructor
  · intro hlong
    exact hbuild.trans (congrArg _ (State.completeWith_eq (doBuild_of_long hlong)))
  · intro hempty
    exact hbuild.trans (congrArg _ (State.completeWith_eq (doBuild_of_empty hempty)))

end Sys2Proof.Machine
end

section
/-! ENCODE (41_encode.md): what the encoder makes of a text, the two ways an ENCODE ends, and that its output keeps clear of the
input text. -/

namespace Sys2Proof.Machine

/-! ### What the encoder makes of a text -/

section
variable {c : Config} {cap : Nat} {b : Block} {cs : List Bits}

/-- A text of symbols with codes that fit gives the concatenation of the codes (R107). -/
theorem encodeBits_of_codes (hcodes : (b.text c b.inputLen).map b.eng.codeOf = cs.map some) (hcap : cs.flatten.length ≤ cap) :
    encodeBits c cap b = (cs.flatten, none) := by
  have hrun := encodeLoop_run b.eng.codeOf cap (b.text c b.inputLen) cs [] 0 [] hcodes (by simpa using hcap)
  rwa [List.append_nil] at hrun

/-- The encoder stops at the first symbol without a code, with the codes of the symbols before it (R105). -/
theorem encodeBits_of_unknown {i : Nat} (hi : i < b.inputLen) (hcodes : (b.text c i).map b.eng.codeOf = cs.map some)
    (hcap : cs.flatten.length ≤ cap) (hnone : b.eng.codeOf (b.txtIn c i) = none) :
    encodeBits c cap b = (cs.flatten, some (.unknownSymbol, i)) := by
  obtain ⟨rest, hsplit⟩ := b.text_split c hi
  rw [encodeBits, hsplit, encodeLoop_run _ _ _ cs _ _ _ hcodes (by simpa using hcap), encodeLoop, hnone]
  simp [Block.length_text]

end

/-! ### Where the output stands -/

/-- The capacity of an output buffer fits in OUTLEN (R6). -/
theorem Fmt.outCap_lt (c : Config) (fmt : Fmt) : fmt.outCap c < 2 ^ 32 := by
  have hmaxLen := c.maxLen_range
  have hmaxBits := c.maxBits_range
  cases fmt
  · show c.maxBits < 2 ^ 32
    omega
  · show c.maxLen < 2 ^ 32
    omega

/-- TXT_IN ends where the first of the two output buffers begins, at the latest (R54, R104). -/
theorem Fmt.txtIn_below_outBase (c : Config) (fmt : Fmt) : txtInBase + 4 * c.maxLen ≤ fmt.outBase := by
  have hmaxLen := c.maxLen_range
  cases fmt
  · show 0x100000 + 4 * c.maxLen ≤ 0x300000
    omega
  · show 0x100000 + 4 * c.maxLen ≤ 0x200000
    omega

/-- A change from `base` on leaves the entries of TXT_IN that end below it. -/
theorem Block.SameOutside.txtIn_eq {s t : Block} {base n i : Nat} (h : Block.SameOutside base n s t) (c : Config)
    (hi : txtInBase + 4 * i + 4 ≤ base) : t.txtIn c i = s.txtIn c i :=
  congrArg (symOfWord c) (Block.readWord_congr fun _ _ => h _ (by omega))

/-- Nothing changed is nothing changed outside a range. -/
theorem Block.sameOutside_of_mem {s t : Block} (base n : Nat) (hm : t.mem = s.mem) (he : t.epoch = s.epoch) :
    Block.SameOutside base n s t := fun a _ => Block.readByte_of_mem s t a hm he

/-! ### How an ENCODE ends -/

/-- An ENCODE ends with one of the two early errors, which touch the record only, or with a stream of `n` bits that fits
in the output buffer and whatever the encoder raised (R102, R110). -/
theorem exec_encoder_cases {s t : State} {fmt : Fmt} (h : exec fmt.encoder s = .next t) :
    (∃ e, e ∈ ([.uninitializedTree, .lenRange] : List ErrCode) ∧ t = s.completedWith e 0 0)
    ∨ ∃ e p n, e ∈ ([.none, .unknownSymbol, .outOverflow] : List ErrCode) ∧ n ≤ fmt.outCap s.cfg
        ∧ t = { s.completedWith e p n with mem := t.mem }
        ∧ Block.SameOutside fmt.outBase (fmt.outBytes n) s.toBlock t.toBlock := by
  have ht : t = s.completeWith (doEncode fmt) := by rw [exec_encoder] at h; injection h with h; exact h.symm
  obtain ⟨-, hd⟩ | ⟨-, -, hd⟩ | ⟨hbuilt, hlen, -⟩ := doEncode_cases fmt s.cfg s.toBlock
  · exact .inl ⟨.uninitializedTree, by decide, ht.trans (State.completeWith_eq hd)⟩
  · exact .inl ⟨.lenRange, by decide, ht.trans (State.completeWith_eq hd)⟩
  · obtain ⟨u, hu, hrecord, -, -, hsame⟩ := exec_encoder_of_bits (fmt := fmt) hbuilt hlen rfl
    obtain rfl : u = t := by rw [hu] at h; injection h
    exact .inr ⟨_, _, _, encodeLoop_err _ _ _ _ _, encodeLoop_length_le _ _ _ _ _ (Nat.zero_le _), hrecord, hsame⟩

/-! ### The obligations -/

/-- Settles O35: the encoder answers the concatenation of the codes and no error. -/
theorem encodeWritesTheConcatenatedCodes : Obligations.EncodeWritesTheConcatenatedCodes := by
  intro s fmt cs hbuilt hlen hcodes hcap
  obtain ⟨t, hexec, hrecord, -, hholds, hsame⟩ := exec_encoder_of_bits hbuilt hlen (encodeBits_of_codes hcodes hcap)
  exact ⟨t, hexec, hrecord, hholds, hsame⟩

/-- Settles O36: the encoder answers the codes before the first symbol without one, and its position. -/
theorem encodeStopsAtAnUnknownSymbol : Obligations.EncodeStopsAtAnUnknownSymbol := by
  intro s fmt i cs hbuilt hlen hi hcodes hcap hnone
  obtain ⟨t, hexec, hrecord, -, hholds, hsame⟩ :=
    exec_encoder_of_bits hbuilt hlen (encodeBits_of_unknown hi hcodes hcap hnone)
  exact ⟨t, hexec, hrecord, hholds, hsame⟩

/-- Settles O38: an early error touches the record only; otherwise OUTLEN is the length of the stream, which fits in the buffer,
and the buffer lies above TXT_IN. -/
theorem encodeFrame : Obligations.EncodeFrame := by
  intro s t fmt hexec
  obtain ⟨e, -, rfl⟩ | ⟨e, p, n, he, hcap, ht, hsame⟩ := exec_encoder_cases hexec
  · exact ⟨rfl, Nat.zero_le _, Block.sameOutside_of_mem _ _ rfl rfl, fun _ _ => rfl, fun _ => ⟨rfl, rfl⟩⟩
  · have hcfg : t.cfg = s.cfg := by rw [ht]; rfl
    have herr : t.err = e := by rw [ht]; rfl
    have houtlen : t.outlen.toNat = n := by
      rw [ht]; exact toNat_natReg (hcap.trans_lt (fmt.outCap_lt s.cfg))
    refine ⟨by rw [ht]; rfl, houtlen ▸ hcap, houtlen ▸ hsame, fun i hi => ?keepsTxtIn, fun hearly => ?notEarly⟩
    case keepsTxtIn =>
      have hbelow := fmt.txtIn_below_outBase s.cfg
      rw [hcfg]
      exact hsame.txtIn_eq s.cfg (by omega)
    case notEarly =>
      obtain rfl | rfl := herr ▸ hearly
      · exact absurd he (by decide)
      · exact absurd he (by decide)

end Sys2Proof.Machine
end

section
/-! The inspection registers (43_inspect.md): the node that NODESEL names, the count and the code of the symbol in SEL, and the
host procedure that reads the tables out. -/

namespace Sys2Proof.Machine

/-! ### The node registers -/

namespace Block

variable {s : Block}

/-- NODESEL names a node of the committed tree: VALID of R126. -/
abbrev SelValid (s : Block) : Prop := s.eng.built = true ∧ s.nodesel.toNat < 2 * s.eng.k - 1

theorem selNode_of_valid (h : s.SelValid) : s.selNode = s.eng.nodes[s.nodesel.toNat]? := by
  simp [selNode, h]

theorem selNode_of_not_valid (h : ¬ s.SelValid) : s.selNode = none := by
  simpa [selNode] using fun hbuilt hlt => absurd ⟨hbuilt, hlt⟩ h

/-- With no node selected all four registers read 0 (R126 to R129). -/
theorem nodeRegs_of_none (h : s.selNode = none) :
    s.nodeInfoReg = 0 ∧ s.nodeWeightReg = 0 ∧ s.nodeZeroReg = 0 ∧ s.nodeOneReg = 0 := by
  simp [nodeInfoReg, nodeWeightReg, nodeZeroReg, nodeOneReg, natReg, h]

/-- NODE_INFO of a Leaf: VALID and LEAF, the top bits of the upper half, and the symbol as the lower half (R126). -/
theorem toNat_nodeInfoReg_of_leaf {y : Sym} {w : Nat} (h : s.selNode = some (.leaf y w)) :
    s.nodeInfoReg.toNat = 2 ^ 31 + 2 ^ 30 + y.toNat := by
  have hreg : s.nodeInfoReg = (0xC000#16 ++ y : Word) := by
    simp only [nodeInfoReg, h]; rfl
  rw [hreg, BitVec.toNat_append, ← Nat.shiftLeft_add_eq_or_of_lt y.isLt]
  rfl

/-- NODE_INFO of an Internal node: VALID alone (R126). -/
theorem toNat_nodeInfoReg_of_internal {w z o : Nat} (h : s.selNode = some (.internal w z o)) :
    s.nodeInfoReg.toNat = 2 ^ 31 := by
  simp only [nodeInfoReg, h]; rfl

theorem nodeWeightReg_of_some {n : Node} (h : s.selNode = some n) : s.nodeWeightReg = natReg n.weight := by
  simp only [nodeWeightReg, h]

/-- The branch registers of a Leaf read 0 (R128, R129). -/
theorem branchRegs_of_leaf {y : Sym} {w : Nat} (h : s.selNode = some (.leaf y w)) :
    s.nodeZeroReg = 0 ∧ s.nodeOneReg = 0 := by
  simp [nodeZeroReg, nodeOneReg, natReg, Node.branch?, h]

/-- The branch registers of an Internal node show its two branches (R128, R129). -/
theorem branchRegs_of_internal {w z o : Nat} (h : s.selNode = some (.internal w z o)) :
    s.nodeZeroReg = natReg z ∧ s.nodeOneReg = natReg o := by
  simp [nodeZeroReg, nodeOneReg, Node.branch?, h]

end Block

/-- The addresses of the four node registers (R126 to R129). -/
theorem State.memRead_nodeRegs (s : State) :
    (s.memRead 0x044).1.1 = s.nodeInfoReg ∧ (s.memRead 0x048).1.1 = s.nodeWeightReg
    ∧ (s.memRead 0x04C).1.1 = s.nodeZeroReg ∧ (s.memRead 0x050).1.1 = s.nodeOneReg := by
  rw [memRead_reg (r := .nodeInfo) rfl, memRead_reg (r := .nodeWeight) rfl, memRead_reg (r := .nodeZero) rfl,
    memRead_reg (r := .nodeOne) rfl]
  exact ⟨rfl, rfl, rfl, rfl⟩

/-! ### Counts and codes of a committed ENG -/

namespace Eng

section
variable {c : Config} {e : Eng}

/-- No count passes TOTAL (R22). -/
theorem TreeOk.freqOf_le_total (h : e.TreeOk c) (y : Sym) : e.freqOf y ≤ e.total := by
  rw [← h.freq_sum, freqOf]
  cases hy : Table.get? e.freq y with
  | none => exact Nat.zero_le _
  | some n => exact List.le_sum_of_mem (List.mem_map_of_mem (Table.mem_of_get? hy))

/-- An ENG that is Uninitialized, or a committed tree (R21, R22). -/
theorem Ok.cases (h : e.Ok c) : e = .uninitialized ∨ (e.TreeOk c ∧ e.total ≤ c.maxLen) := by
  cases hb : e.built with
  | false => exact .inl (h.1 hb)
  | true => exact .inr (h.2 hb)

/-- Every count fits in FREQ (R123). -/
theorem Ok.freqOf_lt (h : e.Ok c) (y : Sym) : e.freqOf y < 2 ^ 32 := by
  obtain rfl | ⟨htree, htotal⟩ := h.cases
  · exact Nat.two_pow_pos 32
  · have hle := htree.freqOf_le_total y
    have hmax := c.maxLen_range.2
    omega

/-- The frequency table: ascending and legal symbols, each with a positive count, NSYM of them, and TOTAL in all (R21, R22). -/
theorem Ok.freq_table (h : e.Ok c) : Table.wf e.freq ∧ (∀ x ∈ e.freq, 1 ≤ x.2 ∧ x.1.toNat < c.nsymMax)
    ∧ e.freq.length = e.k ∧ (e.freq.map Prod.snd).sum = e.total := by
  obtain rfl | ⟨htree, -⟩ := h.cases
  · exact ⟨.nil, List.forall_mem_nil _, rfl, rfl⟩
  · exact ⟨htree.freq_wf, htree.freq_sym, htree.freq_length, htree.freq_sum⟩

/-- No code is longer than CODE_MAX (R22). -/
theorem Ok.code_length_le (h : e.Ok c) (y : Sym) : ((e.codeOf y).getD []).length ≤ c.codeMax := by
  obtain rfl | ⟨htree, -⟩ := h.cases
  · exact Nat.zero_le _
  · cases hy : e.codeOf y with
    | none => exact Nat.zero_le _
    | some p => exact (htree.code_entry _ (Table.mem_of_get? hy)).2.1

end

end Eng

/-- Every symbol fits in 16 bits (R6, R7). -/
theorem nsymMax_le (c : Config) : c.nsymMax ≤ 2 ^ 16 := Nat.pow_le_pow_right (by omega) c.symW_range.2

/-- The code window holds CODE_MAX bits (R7, R125). -/
theorem codeMax_le_codeWords (c : Config) : c.codeMax ≤ 32 * c.codeWords := by
  rw [Config.codeWords]
  omega

/-! ### The host procedure for the tables -/

namespace Table

variable {β : Type} {l : List (Sym × β)}

/-- The entry, symbol and all, of the symbol with number `y`. -/
def entry? (l : List (Sym × β)) (y : Nat) : Option (Sym × β) :=
  (get? l (BitVec.ofNat 16 y)).map (BitVec.ofNat 16 y, ·)

theorem entry?_eq_some_iff (hw : wf l) {y : Nat} (hy : y < 2 ^ 16) {x : Sym × β} :
    entry? l y = some x ↔ x ∈ l ∧ x.1.toNat = y := by
  constructor
  · intro h
    obtain ⟨b, hb, rfl⟩ := Option.map_eq_some_iff.1 h
    exact ⟨mem_of_get? hb, Nat.mod_eq_of_lt hy⟩
  · rintro ⟨hx, rfl⟩
    simp [entry?, get?_of_mem hw hx]

/-- A canonical table is what the look-ups of every number of a symbol, in ascending order, find. -/
theorem filterMap_entry?_range {n : Nat} (hw : wf l) (hl : ∀ x ∈ l, x.1.toNat < n) (hn : n ≤ 2 ^ 16) :
    (List.range n).filterMap (entry? l) = l := by
  refine List.Pairwise.eq_of_mem_iff (r := fun a b => a.1.toNat < b.1.toNat) ?ascending (List.pairwise_map.1 hw) fun x => ?mem
  case ascending =>
    refine List.pairwise_filterMap.2 (List.pairwise_lt_range.imp_of_mem fun hi hj hij x hx z hz => ?_)
    rw [List.mem_range] at hi hj
    obtain ⟨-, rfl⟩ := (entry?_eq_some_iff hw (by omega)).1 hx
    obtain ⟨-, rfl⟩ := (entry?_eq_some_iff hw (by omega)).1 hz
    exact hij
  case mem =>
    rw [List.mem_filterMap]
    constructor
    · rintro ⟨y, hy, hx⟩
      exact ((entry?_eq_some_iff hw ((List.mem_range.1 hy).trans_le hn)).1 hx).1
    · intro hx
      exact ⟨x.1.toNat, List.mem_range.2 (hl x hx), (entry?_eq_some_iff hw x.1.isLt).2 ⟨hx, rfl⟩⟩

end Table

namespace State

theorem rd_reg (s : State) (r : Reg) : s.rd (.reg r) = s.regRead s.cfg r := by
  rw [rd, Loc.addr, memRead_reg (locate_reg s.cfg r)]

theorem rd_codew (s : State) {w : Nat} (h : w < s.cfg.codeWords) : s.rd (.codew w) = s.codeWinWord w := by
  rw [rd, Loc.addr, memRead_codeWin s h]

/-- A write of a legal symbol to SEL selects it (R44). -/
theorem wr_sel (s : State) {y : Nat} (h : y < s.cfg.nsymMax) :
    s.wr (.reg .sel) (BitVec.ofNat 32 y) = { s with sel := BitVec.ofNat 16 y } := by
  have hbound := nsymMax_le s.cfg
  have hsym : symOfWord s.cfg (BitVec.ofNat 32 y) = BitVec.ofNat 16 y := by
    rw [symOfWord, BitVec.toNat_ofNat, Nat.mod_eq_of_lt (by omega : y < 2 ^ 32)]
    exact congrArg _ (Nat.mod_eq_of_lt h)
  rw [wr, Loc.addr, memWrite_reg _ (locate_reg s.cfg .sel), ← hsym]
  rfl

section
variable {s : State} (h : s.eng.Ok s.cfg)
include h

/-- FREQ shows the whole count of SEL (R123). -/
theorem toNat_rd_freq : (s.rd (.reg .freq)).toNat = s.eng.freqOf s.sel := by
  rw [rd_reg]; exact toNat_natReg (h.freqOf_lt s.sel)

/-- CODELEN shows the whole length of SEL's code (R124). -/
theorem toNat_rd_codelen : (s.rd (.reg .codelen)).toNat = (s.selCode.getD []).length := by
  have hlen : (s.selCode.getD []).length ≤ s.cfg.codeMax := h.code_length_le s.sel
  have hwindow := codeMax_le_codeWords s.cfg
  have hwords := codeWords_le s.cfg
  rw [rd_reg]
  exact toNat_natReg (by omega)

/-- The code window, read up to the length of SEL's code, gives the code (R125, R131). -/
theorem readCodeBits_selCode : s.readCodeBits (s.selCode.getD []).length = s.selCode.getD [] := by
  have hlen : (s.selCode.getD []).length ≤ s.cfg.codeMax := h.code_length_le s.sel
  have hwindow := codeMax_le_codeWords s.cfg
  refine List.ext_getElem (by simp [readCodeBits]) fun i hi hi' => ?_
  simp only [readCodeBits, List.getElem_map, List.getElem_range]
  rw [rd_codew s (by omega), Block.codeWinWord, getLsbD_packWord _ _ _ (Nat.mod_lt _ (by omega)), Nat.div_add_mod,
    List.getD_eq_getElem _ _ hi']

/-- The registers of the selected symbol, read one after the other, give its count and its code (R131). -/
theorem readEntry_of_wr {u : State} {y : Nat} (hu : u.wr (.reg .sel) (BitVec.ofNat 32 y) = s) :
    u.readEntry y = if s.eng.freqOf s.sel = 0 then none else some (y, s.eng.freqOf s.sel, (s.eng.codeOf s.sel).getD []) := by
  simp only [readEntry, hu, toNat_rd_freq h, toNat_rd_codelen h, readCodeBits_selCode h]
  rfl

end

/-- What R131 yields for an entry of the frequency table. -/
def tableEntry (s : State) (x : Sym × Nat) : Nat × Nat × Bits := (x.1.toNat, x.2, (s.eng.codeOf x.1).getD [])

/-- A round of the procedure yields what the tables hold for its symbol, if it has a count (R131). -/
theorem readEntry_eq {s : State} (h : s.eng.Ok s.cfg) {y : Nat} (hy : y < s.cfg.nsymMax) :
    s.readEntry y = (Table.entry? s.eng.freq y).map s.tableEntry := by
  rw [readEntry_of_wr (s := { s with sel := BitVec.ofNat 16 y }) h (wr_sel s hy)]
  cases hget : Table.get? s.eng.freq (BitVec.ofNat 16 y) with
  | none => simp [Eng.freqOf, Table.entry?, hget]
  | some n =>
    obtain ⟨-, hpos, -⟩ := h.freq_table
    have hn : n ≠ 0 := Nat.ne_of_gt (hpos _ (Table.mem_of_get? hget)).1
    have hfreq : s.eng.freqOf (BitVec.ofNat 16 y) = n := by rw [Eng.freqOf, hget]; rfl
    have hnum : (BitVec.ofNat 16 y).toNat = y := Nat.mod_eq_of_lt (hy.trans_le (nsymMax_le s.cfg))
    simp only [Table.entry?, tableEntry, hget, hfreq, hn, hnum, if_false, Option.map_some]

end State

/-! ### The obligations -/

/-- Settles O20: the registers show `selNode`, which is the node NODESEL names when there is one and none otherwise. -/
theorem nodeRegistersShowTheSelectedNode : Obligations.NodeRegistersShowTheSelectedNode := by
  refine ⟨fun s n hbuilt hlt hn => ?_, fun s hnot => ?_⟩
  · obtain ⟨hinfo, hweight, hzero, hone⟩ := s.memRead_nodeRegs
    have hsel : s.selNode = some n := (Block.selNode_of_valid ⟨hbuilt, hlt⟩).trans hn
    rw [hinfo, hweight, hzero, hone, Block.nodeWeightReg_of_some hsel]
    cases n with
    | leaf y w => exact ⟨Block.toNat_nodeInfoReg_of_leaf hsel, rfl, Block.branchRegs_of_leaf hsel⟩
    | internal w z o => exact ⟨Block.toNat_nodeInfoReg_of_internal hsel, rfl, Block.branchRegs_of_internal hsel⟩
  · obtain ⟨hinfo, hweight, hzero, hone⟩ := s.memRead_nodeRegs
    rw [hinfo, hweight, hzero, hone]
    exact Block.nodeRegs_of_none (Block.selNode_of_not_valid hnot)

/-- Settles O21: the window shows the packed code of SEL, and CODE_WORDS is CODE_MAX bits in words, rounded up. -/
theorem codeWindowShowsTheWholeCode : Obligations.CodeWindowShowsTheWholeCode := by
  refine ⟨fun s => ⟨?freq, ?codelen⟩, fun s j b hj hb => ?window, fun s p hok hp => ?fits⟩
  case freq => rw [State.memRead_reg (r := .freq) rfl]; rfl
  case codelen => rw [State.memRead_reg (r := .codelen) rfl]; rfl
  case window => rw [s.memRead_codeWin hj]; exact getLsbD_packWord _ _ _ hb
  case fits =>
    have hlen := hok.code_length_le s.sel
    rw [hp] at hlen
    exact hlen.trans (codeMax_le_codeWords s.cfg)

/-- Settles O23: each round yields its symbol's entry, and the rounds run through all symbols in order. -/
theorem tableEnumerationYieldsTheTables : Obligations.TableEnumerationYieldsTheTables := by
  intro s hok
  obtain ⟨hwf, hsym, hk, hsum⟩ := hok.freq_table
  have htables : s.readTables = s.eng.freq.map s.tableEntry := by
    rw [State.readTables, List.filterMap_congr fun y hy => State.readEntry_eq hok (List.mem_range.1 hy),
      ← List.map_filterMap, Table.filterMap_entry?_range hwf (fun x hx => (hsym x hx).2) (nsymMax_le s.cfg)]
  rw [htables, List.length_map, List.map_map, List.map_map]
  refine ⟨rfl, ?ascending, hk, hsum, fun hnot => ?empty⟩
  case ascending => exact List.pairwise_map.2 (List.pairwise_map.1 hwf : s.eng.freq.Pairwise _)
  case empty => rw [hok.1 hnot]; rfl

end Sys2Proof.Machine
end

section
/-! Errors and the interrupt (60_exceptions.md): the early errors that touch the record only, the completion of a BAD word, the
invalid character of DECODE.C, and what moves irq. -/

namespace Sys2Proof.Machine

/-! ### Early errors -/

section
variable {c : Config} {b : Block} {fmt : Fmt}

theorem doEncode_of_uninitialized (h : b.eng.built = false) : doEncode fmt c b = b.raiseEarly .uninitializedTree :=
  if_pos (by rw [h]; rfl)

theorem doEncode_of_long (hbuilt : b.eng.built = true) (h : c.maxLen < b.inputLen) :
    doEncode fmt c b = b.raiseEarly .lenRange :=
  (if_neg (by simp [hbuilt])).trans (if_pos h)

theorem doDecode_of_uninitialized (h : b.eng.built = false) : doDecode fmt c b = b.raiseEarly .uninitializedTree :=
  if_pos (by rw [h]; rfl)

theorem doDecode_of_long (hbuilt : b.eng.built = true) (h : fmt.inCap c < b.inputLen) :
    doDecode fmt c b = b.raiseEarly .lenRange :=
  (if_neg (by simp [hbuilt])).trans (if_pos h)

end

/-- A command that raises an error before any output touches the record only: position 0 and OUTLEN 0 (R135). -/
theorem exec_of_raiseEarly {s : State} {i : Instr} {e : ErrCode} (h : doOf i s.cfg s.toBlock = s.raiseEarly e) :
    exec i s = .next { s with fsm := .idle, done := true, err := e, errpos := 0, outlen := 0 } :=
  (exec_eq i s).trans (congrArg _ (State.completeWith_eq h))

/-! ### The engine's turn -/

/-- When the engine moves, the step is the engine's, with the turn taken off the list (R168). -/
theorem step_of_engine {s : State} {ts : List Turn} (h : s.nextTurn = some (.engine, ts)) :
    step s = engineStep (s.turnsTo ts) := by
  simp only [step, h]

/-! ### Invalid characters -/

/-- A character that is CH0 or CH1 is a bit (R115). -/
theorem Block.exists_readBit_char {c : Config} {b : Block} {j : Nat} (h : b.txtIn c j = 0x30 ∨ b.txtIn c j = 0x31) :
    ∃ d, b.readBit c .char j = some d := by
  obtain h | h := h
  · exact ⟨false, if_pos h⟩
  · exact ⟨true, by simp [readBit, h, Config.ch0, Config.ch1]⟩

/-- A character that is neither CH0 nor CH1 is no bit (R115). -/
theorem Block.readBit_char_eq_none {c : Config} {b : Block} {j : Nat} (h0 : b.txtIn c j ≠ 0x30) (h1 : b.txtIn c j ≠ 0x31) :
    b.readBit c .char j = none :=
  (if_neg h0).trans (if_neg h1)

/-- The input elements split at an index into those before it, the one at it, and the rest. -/
theorem Block.inputBits_split (c : Config) (b : Block) (fmt : Fmt) {i n : Nat} (h : i < n) :
    ∃ rest, b.inputBits c fmt n = b.inputBits c fmt i ++ b.readBit c fmt i :: rest := by
  obtain ⟨k, rfl⟩ := Nat.exists_eq_add_of_lt h
  exact ⟨(List.range k).map fun j => b.readBit c fmt (i + (j + 1)), by
    simp [inputBits, Nat.add_assoc, List.range_add, List.range_succ_eq_map, Function.comp_def]⟩

/-- Input elements that are all bits are a bitstring. -/
theorem Block.exists_inputBits_eq {c : Config} {b : Block} {fmt : Fmt} {n : Nat}
    (h : ∀ j, j < n → ∃ d, b.readBit c fmt j = some d) : ∃ bs : Bits, bs.length = n ∧ b.inputBits c fmt n = bs.map some := by
  have hmem : b.inputBits c fmt n ∈ Set.range (List.map some) := by
    rw [Set.range_list_map]
    exact List.forall_mem_map.2 fun j hj => (h j (List.mem_range.1 hj)).imp fun _ => Eq.symm
  obtain ⟨bs, hbs⟩ := hmem
  exact ⟨bs, by simpa [inputBits] using congrArg List.length hbs, hbs.symm⟩

/-- The decoder stops at the first element that is no bit, with what the elements before it give (R138). -/
theorem decodeBits_of_invalid {c : Config} {b : Block} {fmt : Fmt} {i n : Nat} (hi : i < n) (hcap : i ≤ c.maxLen)
    (hbits : ∀ j, j < i → ∃ d, b.readBit c fmt j = some d) (hbad : b.readBit c fmt i = none) :
    decodeBits c fmt n b = ((decodeBits c fmt i b).1, some (.invalidBit, i)) := by
  obtain ⟨bs, rfl, hbs⟩ := Block.exists_inputBits_eq hbits
  obtain ⟨rest, hsplit⟩ := b.inputBits_split c fmt hi
  rw [decodeBits, decodeBits, hsplit, hbad, hbs, decodeLoop_invalid _ _ _ _ _ _ _ _ (by simpa using hcap), Nat.zero_add]

/-- The errors the decoder's loop can raise over bits. -/
theorem decodeLoop_err_of_bits (e : Eng) (maxLen : Nat) (bs : Bits) (i : Nat) (out : List Sym) (cur start : Nat) :
    ((decodeLoop e maxLen (bs.map some) i out cur start).2.map Prod.fst).getD .none
      ∈ ([.none, .outOverflow, .malformedBitstream] : List ErrCode) := by
  induction bs generalizing i out cur start with
  | nil =>
    simp only [List.map_nil, decodeLoop]
    split
    · simp
    · simp
  | cons b bs ih =>
    simp only [List.map_cons, decodeLoop]
    split
    · split
      · simp
      · exact ih _ _ _ _
    · split
      · split
        · simp
        · exact ih _ _ _ _
      · exact ih _ _ _ _

/-- The errors DECODE.P can end with: INVALID_BIT is none of them, as every packed element is a bit (R114). -/
theorem err_of_exec_decodeP {s t : State} (h : exec .decodeP s = .next t) :
    t.err ∈ ([.none, .uninitializedTree, .lenRange, .outOverflow, .malformedBitstream] : List ErrCode) := by
  rw [exec_eq] at h
  injection h with h
  subst h
  obtain ⟨-, hd⟩ | ⟨-, -, hd⟩ | ⟨-, -, hd⟩ := doDecode_cases .packed s.cfg s.toBlock
  all_goals rw [State.completeWith_eq (f := doOf .decodeP) hd]
  · simp
  · simp
  · have hbits : s.inputBits s.cfg .packed s.inputLen = ((List.range s.inputLen).map s.bit).map some := by
      simp [Block.inputBits, Block.readBit]
    have herr := decodeLoop_err_of_bits s.eng s.cfg.maxLen ((List.range s.inputLen).map s.bit) 0 [] s.eng.root 0
    rw [Block.finish_eq, decodeBits, hbits]
    exact List.subset_def.1 (by decide) herr

/-! ### irq -/

namespace Block

/-- irq is the level of DONE and IE (R146). -/
theorem irq_iff (b : Block) : b.irq = true ↔ b.done = true ∧ b.ie = true := Bool.and_eq_true_iff

theorem irq_of_not_done {b : Block} (h : b.done = false) : b.irq = false := by simp [irq, h]

theorem irq_of_not_ie {b : Block} (h : b.ie = false) : b.irq = false := by simp [irq, h]

end Block

/-- Every command keeps IE and completes with DONE (R81). -/
theorem exec_done_ie {i : Instr} {s t : State} (h : exec i s = .next t) : t.done = true ∧ t.ie = s.ie := by
  obtain ⟨ht, -⟩ := exec_next h
  rw [ht]
  exact ⟨rfl, rfl⟩

/-- So does a BAD word (R143). -/
theorem execBad_done_ie {s t : State} (h : execBad s = .next t) : t.done = true ∧ t.ie = s.ie := by
  injection h with h
  subst h
  exact ⟨rfl, rfl⟩

namespace State

/-- A write to CTRL sets IE, IDLE or BUSY (R33). -/
theorem memWrite_ctrl (s : State) (v : Word) : s.memWrite 0x010 v = (.okay, s.onBlock (Block.setCtrl v)) :=
  memWrite_reg (r := .ctrl) v rfl

/-- A write to STATUS clears DONE and OVR where it has a 1, IDLE or BUSY (R36). -/
theorem memWrite_status (s : State) (v : Word) : s.memWrite 0x014 v = (.okay, s.onBlock (Block.clearStatus v)) :=
  memWrite_reg (r := .status) v rfl

end State

/-! ### The obligations -/

/-- Settles O43: the decoder stops at the first element that is no bit, and a DECODE of the elements before it alone emits and
writes the same. Every element of DECODE.P is a bit. -/
theorem decodeStopsAtAnInvalidCharacter : Obligations.DecodeStopsAtAnInvalidCharacter := by
  refine ⟨fun s i hbuilt hlen hi hchars h0 h1 => ?stops, fun s t hexec herr => ?never⟩
  case stops =>
    have hlen' : (BitVec.ofNat 32 i).toNat = i := toNat_natReg (hi.trans s.len.isLt)
    have hstop := decodeBits_of_invalid hi (hi.le.trans hlen) (fun j hj => Block.exists_readBit_char (hchars j hj))
      (Block.readBit_char_eq_none h0 h1)
    obtain ⟨t, ht, hrecord, hmem, -⟩ := exec_decoder_of_bits (fmt := .char) hbuilt hlen hstop
    obtain ⟨u, hu, hrecord', hmem', -⟩ := exec_decoder_of_bits (fmt := .char)
      (s := { s with len := BitVec.ofNat 32 i }) hbuilt (hlen'.trans_le (hi.le.trans hlen)) rfl
    refine ⟨t, u, ht, hu, by rw [hrecord]; rfl, by rw [hrecord]; exact hlen', ?outlen, ?mem⟩
    case outlen => rw [hrecord, hrecord', hlen']; rfl
    case mem => rw [hmem, hmem', hlen']; rfl
  case never =>
    have hmem := err_of_exec_decodeP hexec
    rw [herr] at hmem
    exact absurd hmem (by decide)

/-- Settles O5: the write is the acceptance of its word, and the engine answers a BAD word by `doBad`. -/
theorem badWordCompletesWithBadCmd : Obligations.BadWordCompletesWithBadCmd := by
  refine ⟨fun s v why hidle _ => ?accepted, fun s ts why hturn hbad => ?completes⟩
  case accepted =>
    rw [State.memWrite_cmd_of_idle v hidle]
    exact ⟨rfl, rfl, rfl⟩
  case completes => exact (step_of_engine hturn).trans (engineStep_of_bad (s := s.turnsTo ts) hbad)

/-- Settles O32: each of the four commands raises the error early. -/
theorem uninitializedTreeIsCheckedFirst : Obligations.UninitializedTreeIsCheckedFirst := by
  intro s i hi hbuilt
  obtain rfl | rfl | rfl | rfl := hi
  · exact exec_of_raiseEarly (doEncode_of_uninitialized hbuilt)
  · exact exec_of_raiseEarly (doEncode_of_uninitialized hbuilt)
  · exact exec_of_raiseEarly (doDecode_of_uninitialized hbuilt)
  · exact exec_of_raiseEarly (doDecode_of_uninitialized hbuilt)

/-- Settles O33: each command raises the error early, above its own capacity. -/
theorem lengthAboveCapacityIsLenRange : Obligations.LengthAboveCapacityIsLenRange := by
  intro s i hi
  obtain ⟨rfl, hlong⟩ | ⟨rfl | rfl | rfl, hbuilt, hlong⟩ | ⟨rfl, hbuilt, hlong⟩ := hi
  · exact exec_of_raiseEarly (doBuild_of_long hlong)
  · exact exec_of_raiseEarly (doEncode_of_long hbuilt hlong)
  · exact exec_of_raiseEarly (doEncode_of_long hbuilt hlong)
  · exact exec_of_raiseEarly (doDecode_of_long hbuilt hlong)
  · exact exec_of_raiseEarly (doDecode_of_long hbuilt hlong)

/-- Settles O50: irq is a function of DONE and IE, and each of the events sets one of the two. -/
theorem interruptFollowsDoneAndEnable : Obligations.InterruptFollowsDoneAndEnable := by
  refine ⟨fun s => s.irq_iff, fun s t i hends => ?completion, fun s v hclear => ?clearsDone, fun s v hoff => ?clearsIe,
    fun s v hidle => ?acceptance, fun s v hdone hon => ?raises, fun s => ?reset⟩
  case completion =>
    obtain ⟨hdone, hie⟩ := hends.elim exec_done_ie execBad_done_ie
    exact ⟨hdone, by rw [Block.irq, hdone, hie, Bool.true_and]⟩
  case clearsDone =>
    rw [s.memWrite_status v]
    exact Block.irq_of_not_done (by simp [hclear])
  case clearsIe =>
    rw [s.memWrite_ctrl v]
    exact Block.irq_of_not_ie hoff
  case acceptance =>
    rw [State.memWrite_cmd_of_idle v hidle]
    exact Block.irq_of_not_done rfl
  case raises =>
    rw [s.memWrite_ctrl v]
    exact (Block.irq_iff _).2 ⟨hdone, hon⟩
  case reset => exact Block.irq_of_not_done rfl

end Sys2Proof.Machine
end

section
/-! The whole machine (10_state.md, 70_reset_and_hazards.md): what a host step and any step can do to the block, the invariants
that every step keeps, and that an accepted command ends, whatever the host does meanwhile. -/

namespace Sys2Proof.Machine

/-! ### What a host step can do to the block -/

/-- What holds of the block whatever a write does to it (R58), by the cases of `memWrite_cases`: nothing, one of the four
registers that are written as ever, OVR while BUSY, or one of the four inputs while IDLE. -/
theorem Block.memWrite_elim {P : Block → Prop} {c : Config} {b : Block} {a : Addr} {v : Word} (same : P b)
    (ctrl : P (b.setCtrl v)) (status : a = 0x014 → P (b.clearStatus v)) (sel : P (b.setSel c v))
    (nodesel : P (b.setNodesel c v)) (overrun : P b.overrun) (accept : P (b.accept v))
    (len : P (b.setLen v)) (txtIn : ∀ w < c.maxLen, P (b.setTxtIn c w v))
    (bit : ∀ w < c.bitWords, P (b.setBitWord w v)) : P (b.memWrite c a v).2 := by
  obtain h | ⟨-, h⟩ | ⟨ha, h⟩ | ⟨-, h⟩ | ⟨-, h⟩ | ⟨-, h⟩ | ⟨-, -, h⟩ | ⟨-, -, h⟩ | ⟨-, w, hw, -, h⟩ | ⟨-, w, hw, -, h⟩ :=
    Block.memWrite_cases c b a v
  all_goals rw [h]
  exacts [same, ctrl, status ha, sel, nodesel, overrun, accept, len, txtIn w hw, bit w hw]

/-- A write clears OVR only at STATUS, with bit 3 set (R36, R148). -/
theorem Block.memWrite_clears_ovr {c : Config} {b : Block} {a : Addr} {v : Word} (hset : b.ovr = true) :
    (b.memWrite c a v).2.ovr = false → a = 0x014 ∧ v.getLsbD 3 = true := by
  have hkept : b.ovr = false → a = 0x014 ∧ v.getLsbD 3 = true := fun h => absurd (hset.symm.trans h) (by decide)
  exact memWrite_elim (P := fun b' => b'.ovr = false → a = 0x014 ∧ v.getLsbD 3 = true) (same := hkept) (ctrl := hkept)
    (status := fun ha h => ⟨ha, by simpa [hset] using h⟩) (sel := hkept) (nodesel := hkept)
    (overrun := fun h => by cases h) (accept := hkept) (len := hkept) (txtIn := fun _ _ => hkept) (bit := fun _ _ => hkept)

namespace State

/-- A host step leaves the block as it is, or does to it what one write does (R168). -/
theorem hostStep_toBlock_cases (s : State) :
    s.hostStep.toBlock = s.toBlock ∨ ∃ a v, s.hostStep.toBlock = (s.toBlock.memWrite s.cfg a v).2 := by
  obtain ⟨u, rest, log, he, rfl | ⟨a, rfl⟩ | ⟨a, v, rfl, -⟩⟩ := s.hostStep_cases
  · exact .inl (by rw [he])
  · exact .inl (by rw [he]; exact s.memRead_toBlock a)
  · exact .inr ⟨a, v, by rw [he]; rfl⟩

@[simp] theorem memRead_cfg (s : State) (a : Addr) : (s.memRead a).2.cfg = s.cfg := by
  obtain hr | ⟨-, -, hr⟩ := s.memRead_cases a
  · rw [hr]
  · rw [hr, drew_cfg]

@[simp] theorem hostStep_cfg (s : State) : s.hostStep.cfg = s.cfg := by
  obtain ⟨u, rest, log, he, rfl | ⟨a, rfl⟩ | ⟨a, v, rfl, -⟩⟩ := s.hostStep_cases
  · rw [he]
  · rw [he]; exact s.memRead_cfg a
  · rw [he]; rfl

/-- A host step clears OVR only by a write to STATUS with bit 3 set, its own or through a bridge (R148). -/
theorem hostStep_clears_ovr {s : State} (hset : s.ovr = true) (hcleared : s.hostStep.ovr = false) :
    ∃ v rest, v.getLsbD 3 = true ∧ (s.script = .issue (.write 0x014 v) :: rest
      ∨ ∃ b : BusAccess, s.script = .bus b :: rest ∧ b.port? s.cfg = some (.write 0x014 v) ∧ b.bytes = 4) := by
  obtain ⟨u, rest, log, he, rfl | ⟨a, rfl⟩ | ⟨a, v, rfl, hscript⟩⟩ := s.hostStep_cases
  all_goals rw [he] at hcleared
  · exact absurd (hset.symm.trans hcleared) (by decide)
  · have hread : (s.memRead a).2.ovr = s.ovr := congrArg Block.ovr (s.memRead_toBlock a)
    exact absurd (hset.symm.trans (hread.symm.trans hcleared)) (by decide)
  · obtain ⟨rfl, hv⟩ := Block.memWrite_clears_ovr hset hcleared
    exact ⟨v, rest, hv, hscript⟩

end State

/-! ### The step of each agent -/

/-- The engine runs the command that PEND decodes to (R81). -/
theorem engineStep_of_valid {s : State} {i : Instr} (h : decodeCmd s.pend = .valid i) : engineStep s = exec i s := by
  simp only [engineStep, h]

/-- The table's decoder, on a number taken as a command word, is `decodeCmd` (R76, R79). -/
theorem decodeTableWord_eq_some_iff {w : Nat} {i : Instr} :
    decodeTableWord 32 w = some i ↔ decodeCmd (BitVec.ofNat 32 (w % 2 ^ 32)) = .valid i := by
  rw [decodeTableWord, if_pos (le_refl 32)]
  cases decodeCmd (BitVec.ofNat 32 (w % 2 ^ 32)) with
  | valid j => simp
  | bad why => simp

theorem step_of_reset {s : State} {ts : List Turn} (h : s.nextTurn = some (.reset, ts)) :
    step s = .next (s.turnsTo ts).resetEvent := by
  simp only [step, h]

theorem step_of_host {s : State} {ts : List Turn} (h : s.nextTurn = some (.host, ts)) :
    step s = .next (s.turnsTo ts).hostStep := by
  simp only [step, h]

/-- A completion changes nothing that stands around the block (R19). -/
theorem exec_toWorld {i : Instr} {s t : State} (h : exec i s = .next t) : t.toWorld = s.toWorld := by
  rw [(exec_next h).1]

theorem exec_fsm {i : Instr} {s t : State} (h : exec i s = .next t) : t.fsm = .idle := by
  rw [(exec_next h).1]

/-- No step changes the configuration (R52). -/
theorem step_cfg {s t : State} (h : step s = .next t) : t.cfg = s.cfg := by
  obtain ⟨-, rfl⟩ | ⟨ts, -, rfl⟩ | ⟨ts, i, -, -, -, hexec⟩ | ⟨ts, why, -, -, -, rfl⟩ | ⟨ts, -, rfl⟩ := step_cases h
  · rfl
  · exact (s.turnsTo ts).hostStep_cfg
  · have hcfg := congrArg World.cfg (exec_toWorld hexec)
    exact hcfg
  · rfl
  · rfl

/-! ### ENG is Uninitialized or a committed tree -/

theorem Eng.ok_uninitialized (c : Config) : Eng.uninitialized.Ok c := ⟨fun _ => rfl, fun h => by cases h⟩

/-- The ENG that a BUILD of 1 to MAX_LEN symbols commits meets R22, and its TOTAL is the length of a text that fitted (R42). -/
theorem State.inputEng_ok {s : State} (hpos : 1 ≤ s.len.toNat) (hmax : s.len.toNat ≤ s.cfg.maxLen) :
    s.inputEng.Ok s.cfg := by
  have htotal : s.inputEng.total = s.len.toNat := Block.length_text _ _ _
  exact ⟨fun h => (by cases h), fun _ => ⟨inputEng_treeOk hpos, htotal.trans_le hmax⟩⟩

/-! ### Memory stays canonical and inside the buffers -/

/-- `m'` is `m` with words written in implemented words of the buffers; no words, when nothing was written. -/
def WritesInside (c : Config) (m m' : List Host.Cell) : Prop :=
  ∃ (a : Nat) (vs : List Word), m' = Memory.setWords m a vs
    ∧ ∀ x, a ≤ x → x < a + 4 * vs.length → State.bufferByte c x = true

namespace WritesInside

variable {c : Config}

theorem refl (m : List Host.Cell) : WritesInside c m m :=
  ⟨0, [], rfl, fun _ _ hlt => absurd hlt (Nat.not_lt_zero _)⟩

theorem txtIn (m : List Host.Cell) {w : Nat} (v : Word) (h : w < c.maxLen) :
    WritesInside c m (Memory.setWord m (txtInBase + 4 * w) v) :=
  ⟨_, [v], rfl, fun x hge hlt => by
    simp only [List.length_singleton] at hlt
    simp only [State.bufferByte, Bool.or_eq_true, Bool.and_eq_true, decide_eq_true_eq]
    omega⟩

theorem bit (m : List Host.Cell) {w : Nat} (v : Word) (h : w < c.bitWords) :
    WritesInside c m (Memory.setWord m (bitBase + 4 * w) v) :=
  ⟨_, [v], rfl, fun x hge hlt => by
    simp only [List.length_singleton] at hlt
    simp only [State.bufferByte, Bool.or_eq_true, Bool.and_eq_true, decide_eq_true_eq]
    omega⟩

theorem txtOut (m : List Host.Cell) {vs : List Word} (h : vs.length ≤ c.maxLen) :
    WritesInside c m (Memory.setWords m txtOutBase vs) :=
  ⟨_, vs, rfl, fun x hge hlt => by
    simp only [State.bufferByte, Bool.or_eq_true, Bool.and_eq_true, decide_eq_true_eq]
    omega⟩

/-- A stream that fits in MAX_BITS touches only implemented words of BIT (R7, R108). -/
theorem packWords (m : List Host.Cell) {bs : Bits} (h : bs.length ≤ c.maxBits) :
    WritesInside c m (Memory.setWords m bitBase (packWords bs)) :=
  ⟨_, _, rfl, fun x hge hlt => by
    have hmul := c.maxBits_range.2.2
    have hwords : wordsOf bs.length ≤ c.bitWords := by simp only [wordsOf, Config.bitWords]; omega
    rw [length_packWords] at hlt
    simp only [State.bufferByte, Bool.or_eq_true, Bool.and_eq_true, decide_eq_true_eq]
    omega⟩

theorem writeBits {b : Block} {fmt : Fmt} {bs : Bits} (h : bs.length ≤ fmt.outCap c) :
    WritesInside c b.mem (b.writeBits fmt bs).mem := by
  cases fmt with
  | packed => exact packWords b.mem h
  | char => exact txtOut b.mem (by rw [List.length_map]; exact h)

/-- A write of the host writes one word of an input buffer, or no byte (R58, R62, R64). -/
theorem memWrite (b : Block) (a : Addr) (v : Word) : WritesInside c b.mem (b.memWrite c a v).2.mem :=
  Block.memWrite_elim (P := fun b' => WritesInside c b.mem b'.mem) (same := refl _) (ctrl := refl _)
    (status := fun _ => refl _) (sel := refl _) (nodesel := refl _) (overrun := refl _) (accept := refl _) (len := refl _)
    (txtIn := fun _ hw => txtIn _ _ hw) (bit := fun _ hw => bit _ v hw)

/-- A completion writes in an output buffer, or no byte (R108, R109, R119). -/
theorem exec {i : Instr} {s t : State} (h : exec i s = .next t) : WritesInside s.cfg s.mem t.mem := by
  obtain ⟨-, ⟨hmem, -⟩ | ⟨-, ⟨fmt, bs, -, hlen, hmem⟩ | ⟨fmt, ys, -, hlen, hmem⟩⟩⟩ := exec_next h
  · rw [hmem]; exact refl s.mem
  · rw [hmem]; exact writeBits hlen
  · rw [hmem]; exact txtOut s.mem (by rw [List.length_map]; exact hlen)

/-- Writes inside the buffers keep memory canonical and inside them (R69). -/
theorem memOk {s t : State} (h : WritesInside s.cfg s.mem t.mem) (hcfg : t.cfg = s.cfg) (hs : s.MemOk) : t.MemOk := by
  obtain ⟨a, vs, hmem, hin⟩ := h
  obtain ⟨hwf, hbuf⟩ := hs
  rw [State.MemOk, hcfg, hmem]
  refine ⟨Memory.wf_setWords a vs hwf, fun x hx => ?_⟩
  obtain ⟨hge, hlt⟩ | hold := (Memory.mem_keys_setWords s.mem a vs x.1).1 (List.mem_map_of_mem hx)
  · exact hin _ hge hlt
  · obtain ⟨y, hy, hyx⟩ := List.mem_map.1 hold
    exact hyx ▸ hbuf y hy

end WritesInside

/-- A step of the machine writes inside the buffers, or is a reset, which forgets all that was written (R69, R155). -/
theorem step_mem {s t : State} (h : step s = .next t) : WritesInside s.cfg s.mem t.mem ∨ t.mem = [] := by
  obtain ⟨-, rfl⟩ | ⟨ts, -, rfl⟩ | ⟨ts, i, -, -, -, hexec⟩ | ⟨ts, why, -, -, -, rfl⟩ | ⟨ts, -, rfl⟩ := step_cases h
  · exact .inl (.refl _)
  · obtain hb | ⟨a, v, hb⟩ := (s.turnsTo ts).hostStep_toBlock_cases
    · rw [hb]; exact .inl (.refl _)
    · rw [hb]; exact .inl (.memWrite _ a v)
  · have hwrites := WritesInside.exec hexec
    exact .inl hwrites
  · exact .inl (.refl _)
  · exact .inr rfl

/-! ### The selectors and the record of a pending command -/

/-- NODESEL takes the low SYM_W + 1 bits of what is written (R45). -/
theorem Block.toNat_setNodesel (c : Config) (v : Word) (b : Block) :
    (b.setNodesel c v).nodesel.toNat = v.toNat % 2 ^ (c.symW + 1) := by
  have hpow : 2 ^ (c.symW + 1) ≤ 2 ^ 17 := Nat.pow_le_pow_right (by omega) (Nat.succ_le_succ c.symW_range.2)
  rw [setNodesel_nodesel, BitVec.toNat_ofNat]
  exact Nat.mod_eq_of_lt ((Nat.mod_lt _ (Nat.two_pow_pos _)).trans_le hpow)

/-- A write of the host leaves SEL and NODESEL within their widths (R44, R45). -/
theorem Block.memWrite_selOk {c : Config} {b : Block} (a : Addr) (v : Word)
    (h : b.sel.toNat < 2 ^ c.symW ∧ b.nodesel.toNat < 2 ^ (c.symW + 1)) :
    (b.memWrite c a v).2.sel.toNat < 2 ^ c.symW ∧ (b.memWrite c a v).2.nodesel.toNat < 2 ^ (c.symW + 1) := by
  have hnodesel : (b.setNodesel c v).nodesel.toNat < 2 ^ (c.symW + 1) := by
    rw [toNat_setNodesel]; exact Nat.mod_lt _ (Nat.two_pow_pos _)
  exact memWrite_elim (P := fun b' => b'.sel.toNat < 2 ^ c.symW ∧ b'.nodesel.toNat < 2 ^ (c.symW + 1)) (same := h) (ctrl := h)
    (status := fun _ => h) (sel := ⟨symOfWord_lt c v, h.2⟩) (nodesel := ⟨h.1, hnodesel⟩) (overrun := h) (accept := h)
    (len := h) (txtIn := fun _ _ => h) (bit := fun _ _ => h)

/-- The completion record is cleared: as acceptance leaves it (R80). -/
def Block.RecordClear (b : Block) : Prop := b.done = false ∧ b.err = .none ∧ b.outlen = 0 ∧ b.errpos = 0

/-- A write of the host that leaves BUSY leaves the record cleared: it is the acceptance, or came while BUSY, when it can only
clear DONE (R67, R80). -/
theorem Block.memWrite_recordClear {c : Config} {b : Block} (a : Addr) (v : Word) (h : b.fsm = .busy → b.RecordClear) :
    (b.memWrite c a v).2.fsm = .busy → (b.memWrite c a v).2.RecordClear := by
  have hstatus : b.fsm = .busy → (b.clearStatus v).RecordClear := fun hbusy => by
    obtain ⟨hdone, hrest⟩ := h hbusy
    exact ⟨by simp [hdone], hrest⟩
  exact memWrite_elim (P := fun b' => b'.fsm = .busy → b'.RecordClear) (same := h) (ctrl := h) (status := fun _ => hstatus)
    (sel := h) (nodesel := h) (overrun := h) (accept := fun _ => ⟨rfl, rfl, rfl, rfl⟩) (len := h) (txtIn := fun _ _ => h)
    (bit := fun _ _ => h)

/-! ### The end of an accepted command -/

/-- While BUSY some agent moves, and if it is not the engine its turn came off the list (R167, R170). -/
theorem State.nextTurn_of_busy {s : State} (h : s.fsm = .busy) :
    ∃ a ts, s.nextTurn = some (a, ts) ∧ (a = .engine ∨ ts.length < s.turns.length) := by
  unfold nextTurn
  cases hd : s.turns.dropWhile fun t => !s.enabled t with
  | nil =>
    have hbusy := (Block.busy_iff s.toBlock).2 h
    exact ⟨.engine, [], by simp [hbusy], .inl rfl⟩
  | cons t ts =>
    have hle := (List.dropWhile_suffix (fun t => !s.enabled t) (l := s.turns)).length_le
    rw [hd] at hle
    exact ⟨t, ts, rfl, .inr hle⟩

/-- The engine's step ends the command (R81). -/
theorem engineStep_fsm {s t : State} (h : engineStep s = .next t) : t.fsm = .idle := by
  obtain ⟨i, -, hexec⟩ | ⟨-, rfl⟩ := engineStep_cases h
  · exact exec_fsm hexec
  · rfl

/-- A step while BUSY ends the command, or is the host's and uses up a turn (R167, R168). -/
theorem step_of_busy {s t : State} (hbusy : s.fsm = .busy) (h : step s = .next t) :
    t.fsm = .idle ∨ (t.fsm = .busy ∧ t.turns.length < s.turns.length) := by
  obtain ⟨a, ts, hturn, hless⟩ := State.nextTurn_of_busy hbusy
  cases a with
  | host =>
    rw [step_of_host hturn] at h
    injection h with h
    subst h
    obtain ⟨ie, done, ovr, sel, nodesel, draws, script, log, hstep, -⟩ := (s.turnsTo ts).hostStep_busy hbusy
    rw [hstep]
    exact .inr ⟨hbusy, hless.resolve_left (by decide)⟩
  | engine =>
    rw [step_of_engine hturn] at h
    exact .inl (engineStep_fsm h)
  | reset =>
    rw [step_of_reset hturn] at h
    injection h with h
    subst h
    exact .inl rfl

/-- A run of one step more, from the step that comes first. -/
theorem run_succ {s t : State} (n : Nat) (h : step s = .next t) :
    Host.Core.run core (n + 1) s = Host.Core.run core n t := by
  have hstep : core.step s = .next t := h
  simp only [Host.Core.run, hstep]

theorem exists_idle_of_busy (n : Nat) : ∀ s : State, s.fsm = .busy → s.turns.length ≤ n →
    ∃ k, k ≤ n + 1 ∧ ∃ t : State, Host.Core.run core k s = .next t ∧ t.fsm = .idle := by
  induction n with
  | zero =>
    intro s hbusy hlen
    obtain ⟨t, ht⟩ := step_next s
    obtain hidle | ⟨-, hless⟩ := step_of_busy hbusy ht
    · exact ⟨1, le_refl _, t, run_succ 0 ht, hidle⟩
    · omega
  | succ n ih =>
    intro s hbusy hlen
    obtain ⟨t, ht⟩ := step_next s
    obtain hidle | ⟨hbusy', hless⟩ := step_of_busy hbusy ht
    · exact ⟨1, by omega, t, run_succ 0 ht, hidle⟩
    · obtain ⟨k, hk, u, hrun, hidle⟩ := ih t hbusy' (by omega)
      exact ⟨k + 1, by omega, u, (run_succ k ht).trans hrun, hidle⟩

/-! ### A completion and what the host may touch -/

/-- What a host step can change of the block while BUSY (R161): IE, DONE, OVR, SEL and NODESEL. -/
def Block.withHostFields (ie done ovr : Bool) (sel : Sym) (nodesel : BitVec 17) (b : Block) : Block :=
  { b with ie := ie, done := done, ovr := ovr, sel := sel, nodesel := nodesel }

section
variable {ie done ovr : Bool} {sel : Sym} {nodesel : BitVec 17} {c : Config} {b : Block} {fmt : Fmt}

/-- An ENCODE of a text that is not too long gets as far as the encoder (R102). -/
theorem doEncode_of_text (hbuilt : b.eng.built = true) (hmax : b.inputLen ≤ c.maxLen) :
    doEncode fmt c b = (b.writeBits fmt (encodeBits c (fmt.outCap c) b).1).finish
      (encodeBits c (fmt.outCap c) b).1.length (encodeBits c (fmt.outCap c) b).2 :=
  (if_neg (by simp [hbuilt])).trans (if_neg (by omega))

/-- A DECODE of an input that is not too long gets as far as the decoder (R111). -/
theorem doDecode_of_input (hbuilt : b.eng.built = true) (hmax : b.inputLen ≤ fmt.inCap c) :
    doDecode fmt c b = (b.writeText (decodeBits c fmt b.inputLen b).1).finish
      (decodeBits c fmt b.inputLen b).1.length (decodeBits c fmt b.inputLen b).2 :=
  (if_neg (by simp [hbuilt])).trans (if_neg (by omega))

theorem Block.finish_withHostFields (n : Nat) (err : Option (ErrCode × Nat)) :
    (b.withHostFields ie done ovr sel nodesel).finish n err = (b.finish n err).withHostFields ie done ovr sel nodesel := by
  rw [finish_eq, finish_eq]
  rfl

theorem Block.writeBits_withHostFields (out : Bits) :
    (b.withHostFields ie done ovr sel nodesel).writeBits fmt out
      = (b.writeBits fmt out).withHostFields ie done ovr sel nodesel := by cases fmt <;> rfl

/-- What a command does up to its completion neither depends on IE, DONE, OVR, SEL and NODESEL nor sets them (R161). -/
theorem doOf_withHostFields (i : Instr) :
    doOf i c (b.withHostFields ie done ovr sel nodesel) = (doOf i c b).withHostFields ie done ovr sel nodesel := by
  obtain rfl | ⟨fmt, rfl⟩ | ⟨fmt, rfl⟩ := instr_cases i
  · obtain ⟨hlen, hd⟩ | ⟨hlen, hd⟩ | ⟨hpos, hmax, hd⟩ := doBuild_cases c b
    all_goals rw [doOf, hd]
    · exact doBuild_of_long hlen
    · exact doBuild_of_empty hlen
    · exact doBuild_of_text hpos hmax
  · rw [doOf_encoder]
    obtain ⟨hbuilt, hd⟩ | ⟨hbuilt, hlen, hd⟩ | ⟨hbuilt, hmax, hd⟩ := doEncode_cases fmt c b
    all_goals rw [hd]
    · exact doEncode_of_uninitialized hbuilt
    · exact doEncode_of_long hbuilt hlen
    · rw [← Block.finish_withHostFields, ← Block.writeBits_withHostFields]
      exact doEncode_of_text hbuilt hmax
  · rw [doOf_decoder]
    obtain ⟨hbuilt, hd⟩ | ⟨hbuilt, hlen, hd⟩ | ⟨hbuilt, hmax, hd⟩ := doDecode_cases fmt c b
    all_goals rw [hd]
    · exact doDecode_of_uninitialized hbuilt
    · exact doDecode_of_long hbuilt hlen
    · rw [← Block.finish_withHostFields]
      exact doDecode_of_input hbuilt hmax

end

/-- The `do` function that the engine runs for the word in PEND (R81). -/
def engineDo (v : Word) : Config → Block → Block :=
  match decodeCmd v with
  | .valid i => doOf i
  | .bad _ => doBad

theorem engineStep_eq (s : State) : engineStep s = .next (s.completeWith (engineDo s.pend)) := by
  unfold engineStep engineDo
  cases decodeCmd s.pend with
  | valid i => exact exec_eq i s
  | bad why => rfl

theorem engineDo_withHostFields (v : Word) (ie done ovr : Bool) (sel : Sym) (nodesel : BitVec 17) (c : Config) (b : Block) :
    engineDo v c (b.withHostFields ie done ovr sel nodesel) = (engineDo v c b).withHostFields ie done ovr sel nodesel := by
  unfold engineDo
  cases decodeCmd v with
  | valid i => exact doOf_withHostFields i
  | bad why => rfl

/-- However many steps the host takes while BUSY, it changes of the block only the fields it may touch (R161). -/
theorem State.hostStep_iterate_busy {s : State} (h : s.fsm = .busy) (n : Nat) :
    (hostStep^[n] s).cfg = s.cfg ∧ ∃ ie done ovr sel nodesel,
      (hostStep^[n] s).toBlock = s.toBlock.withHostFields ie done ovr sel nodesel := by
  induction n with
  | zero => exact ⟨rfl, s.ie, s.done, s.ovr, s.sel, s.nodesel, rfl⟩
  | succ n ih =>
    obtain ⟨hcfg, ie, done, ovr, sel, nodesel, hblock⟩ := ih
    have hbusy : (hostStep^[n] s).fsm = .busy := by rw [hblock]; exact h
    obtain ⟨ie', done', ovr', sel', nodesel', draws, script, log, hstep, -⟩ := hostStep_busy _ hbusy
    rw [Function.iterate_succ_apply', hostStep_cfg]
    refine ⟨hcfg, ie', done', ovr', sel', nodesel', ?_⟩
    rw [hstep, hblock]
    rfl

/-! ### The obligations -/

/-- Settles O57, by what a step can do to ENG (R23): it keeps it, a reset makes it Uninitialized, and a successful BUILD commits
the tree of a text. -/
theorem everyStepKeepsTheTreeInvariants : Obligations.EveryStepKeepsTheTreeInvariants := by
  intro s t hok hstep
  rw [step_cfg hstep]
  by_cases hkeep : t.eng = s.eng
  · rw [hkeep]; exact hok
  · obtain ⟨ts, hturn⟩ | ⟨ts, -, -, hpos, hmax, -, heng⟩ := onlyASuccessfulBuildChangesEngine s t hstep hkeep
    · rw [step_of_reset hturn] at hstep
      injection hstep with ht
      subst ht
      exact Eng.ok_uninitialized s.cfg
    · rw [heng]; exact State.inputEng_ok hpos hmax

/-- Settles O58: a step writes words inside the buffers, or forgets them all. -/
theorem everyStepKeepsMemoryCanonical : Obligations.EveryStepKeepsMemoryCanonical := by
  intro s t hstep
  refine ⟨step_cfg hstep, fun hok => ?_⟩
  obtain hwrites | hnil := step_mem hstep
  · exact hwrites.memOk (step_cfg hstep) hok
  · rw [State.MemOk, hnil]
    exact ⟨.nil, List.forall_mem_nil _⟩

/-- Settles O59: of the steps only a host's write sets a selector or makes BUSY, and every completion and reset ends IDLE. -/
theorem everyStepKeepsSelectorsAndRecord : Obligations.EveryStepKeepsSelectorsAndRecord := by
  intro s t hstep
  obtain ⟨-, rfl⟩ | ⟨ts, -, rfl⟩ | ⟨ts, i, -, -, -, hexec⟩ | ⟨ts, why, -, -, -, rfl⟩ | ⟨ts, -, rfl⟩ := step_cases hstep
  · exact ⟨id, id⟩
  · obtain hb | ⟨a, v, hb⟩ := (s.turnsTo ts).hostStep_toBlock_cases
    all_goals simp only [State.SelOk, State.RecordOk, State.hostStep_cfg, hb]
    · exact ⟨id, id⟩
    · exact ⟨Block.memWrite_selOk a v, Block.memWrite_recordClear a v⟩
  · refine ⟨fun hsel => ?_, fun _ hbusy => ?_⟩
    · rw [(exec_next hexec).1]; exact hsel
    · rw [exec_fsm hexec] at hbusy; cases hbusy
  · exact ⟨id, fun _ hbusy => by cases hbusy⟩
  · exact ⟨fun _ => ⟨Nat.two_pow_pos _, Nat.two_pow_pos _⟩, fun _ hbusy => by cases hbusy⟩

/-- Settles O60: after reset memory lists nothing, the selectors are 0, fsm is IDLE and ENG is Uninitialized. -/
theorem invariantsHoldAfterReset : Obligations.InvariantsHoldAfterReset := by
  have hinitial : ∀ c : Config, (State.initial c).Inv := fun c =>
    ⟨⟨.nil, List.forall_mem_nil _⟩, ⟨Nat.two_pow_pos _, Nat.two_pow_pos _⟩, fun hbusy => (by cases hbusy),
      Eng.ok_uninitialized c⟩
  exact ⟨hinitial Config.rc, hinitial⟩

/-- Settles O4: the first turn that is enabled moves, and `withFetchWord` puts the engine's first. -/
theorem engineStepRunsTheDecodedCommand : Obligations.EngineStepRunsTheDecodedCommand := by
  refine ⟨fun s ts hturn => ?busy, fun s ts i hturn hvalid => ?runs, fun s w i hw => ?fetched⟩
  case busy => exact (Block.busy_iff s.toBlock).1 (State.nextTurn_enabled hturn).1
  case runs => exact (step_of_engine hturn).trans (engineStep_of_valid (s := s.turnsTo ts) hvalid)
  case fetched =>
    have hword : BitVec.ofNat 32 (w % 2 ^ 32) = BitVec.ofNat 32 w := BitVec.eq_of_toNat_eq (by simp)
    have hstart : (s.withFetchWord 32 w).turnsTo s.turns = s.accept (BitVec.ofNat 32 w) := by rw [← hword]; rfl
    rw [decodeTableWord_eq_some_iff, hword] at hw
    rw [step_of_engine (ts := s.turns) rfl, hstart]
    exact engineStep_of_valid hw

/-- Settles O8: each register is a field of `Block.resetEvent`, and no byte is written in it. -/
theorem resetEventClearsEverything : Obligations.ResetEventClearsEverything := by
  intro s ts hturn
  refine ⟨_, step_of_reset hturn, rfl, rfl, rfl, rfl, rfl, rfl, rfl, rfl, rfl, rfl, rfl, fun _ => rfl, fun _ => rfl, rfl,
    fun i hi => ?_, rfl, rfl, rfl, rfl, rfl, rfl⟩
  obtain rfl | ⟨fmt, rfl⟩ | ⟨fmt, rfl⟩ := instr_cases i
  · exact absurd rfl hi
  · exact ⟨_, exec_of_raiseEarly ((congrFun₂ (doOf_encoder fmt) _ _).trans (doEncode_of_uninitialized rfl)), rfl⟩
  · exact ⟨_, exec_of_raiseEarly ((congrFun₂ (doOf_decoder fmt) _ _).trans (doDecode_of_uninitialized rfl)), rfl⟩

/-- Settles O52: what a host step can do while BUSY. -/
theorem hostCannotDisturbARunningCommand : Obligations.HostCannotDisturbARunningCommand := by
  intro s hbusy t
  obtain ⟨ie, done, ovr, sel, nodesel, draws, script, log, hstep, hdone⟩ := s.hostStep_busy hbusy
  have ht : t = _ := hstep
  rw [ht]
  exact ⟨rfl, hdone⟩

/-- Settles O53: a command is its `do` function on the block, which commutes with all that the host may change meanwhile. -/
theorem completionIgnoresTheHostWhileBusy : Obligations.CompletionIgnoresTheHostWhileBusy := by
  refine ⟨fun i s t hexec => ⟨exec_toWorld hexec, fun s' t' hblock hcfg hexec' => ?function⟩,
    fun s t u n hbusy ht hu => ?meanwhile⟩
  case function =>
    rw [exec_eq] at hexec hexec'
    injection hexec with ht
    injection hexec' with ht'
    rw [← ht, ← ht', State.completeWith_toBlock, State.completeWith_toBlock, hblock, hcfg]
  case meanwhile =>
    obtain ⟨hcfg, ie, done, ovr, sel, nodesel, hblock⟩ := State.hostStep_iterate_busy hbusy n
    rw [engineStep_eq] at ht hu
    injection ht with ht
    injection hu with hu
    have hpend : (State.hostStep^[n] s).pend = s.pend := by rw [hblock]; rfl
    have hend : u.toBlock = ((engineDo s.pend s.cfg s.toBlock).withHostFields ie done ovr sel nodesel).complete := by
      rw [← hu, State.completeWith_toBlock, hpend, hcfg, hblock, engineDo_withHostFields]
    rw [hend, ← ht]
    exact ⟨rfl, rfl, rfl, rfl, rfl, rfl, rfl, rfl, rfl⟩

/-- Settles O54: of the steps only a reset and a host's write to STATUS set OVR to 0, and the write where it has a 1 in bit 3. -/
theorem overrunIsSticky : Obligations.OverrunIsSticky := by
  intro s t hstep hset hcleared
  obtain ⟨-, rfl⟩ | ⟨ts, hturn, rfl⟩ | ⟨ts, i, -, -, -, hexec⟩ | ⟨ts, why, -, -, -, rfl⟩ | ⟨ts, hturn, -⟩ :=
    step_cases hstep
  · exact absurd (hset.symm.trans hcleared) (by decide)
  · obtain ⟨v, rest, hv, hscript⟩ := State.hostStep_clears_ovr (s := s.turnsTo ts) hset hcleared
    exact .inr ⟨ts, v, rest, hturn, hv, hscript⟩
  · rw [(exec_next hexec).1] at hcleared
    exact absurd (hset.symm.trans hcleared) (by decide)
  · exact absurd (hset.symm.trans hcleared) (by decide)
  · exact .inl ⟨ts, hturn⟩

/-- Settles O6, by induction on the number of turns: every step while BUSY that does not end the command uses one up. -/
theorem acceptedCommandEnds : Obligations.AcceptedCommandEnds := fun s hbusy =>
  exists_idle_of_busy s.turns.length s hbusy (le_refl _)

end Sys2Proof.Machine
end

section
/-! The host port again (20_memory.md, 30_encoding.md, 43_inspect.md): what reads change and depend on, the words of TXT_OUT and
BIT, the registers after reset, the selectors, the bus bridge, and the accesses of TEXT. -/

namespace Sys2Proof.Machine

/-! ### Words of the output buffers -/

/-- A word of an output buffer while IDLE is its contents (R63, R64). -/
theorem Block.outputRead_of_idle {b : Block} (stored draw : Word) (h : b.fsm = .idle) :
    b.outputRead stored draw = stored := by simp [outputRead, h]

/-- A word of an output buffer while BUSY is a draw (R68). -/
theorem Block.outputRead_of_busy {b : Block} (stored draw : Word) (h : b.fsm = .busy) :
    b.outputRead stored draw = draw := by simp [outputRead, h]

/-- Bit b of BIT word w is stream bit 32w + b (R48, R64). -/
theorem Block.bit_eq_bitWord (s : Block) {w b : Nat} (h : b < 32) : s.bit (32 * w + b) = (s.bitWord w).getLsbD b := by
  rw [bit, show (32 * w + b) / 32 = w by omega, show (32 * w + b) % 32 = b by omega]

@[simp] theorem Block.bitWord_setBitWord (w : Nat) (v : Word) (s : Block) : (s.setBitWord w v).bitWord w = v :=
  readWord_writeWord_self s (bitBase + 4 * w) v

namespace State

variable {s : State} {a : Addr} {w : Nat}

theorem memRead_data_txtOut (h : locate s.cfg a = some (.txtOut w)) : (s.memRead a).1
    = (s.outputRead (wordOfSym (s.txtOut s.cfg w)) (wordOfSym (symOfWord s.cfg (Config.busyDraw s.draws))), .okay) := by
  simp [memRead, Block.memRead, h]

theorem memRead_data_bit (h : locate s.cfg a = some (.bit w)) :
    (s.memRead a).1 = (s.outputRead (s.bitWord w) (Config.busyDraw s.draws), .okay) := by
  simp [memRead, Block.memRead, h]

theorem memRead_data_txtOut_of_busy (hbusy : s.fsm = .busy) (h : locate s.cfg a = some (.txtOut w)) :
    (s.memRead a).1 = (wordOfSym (symOfWord s.cfg (Config.busyDraw s.draws)), .okay) := by
  rw [memRead_data_txtOut h, Block.outputRead_of_busy _ _ hbusy]

theorem memRead_data_bit_of_busy (hbusy : s.fsm = .busy) (h : locate s.cfg a = some (.bit w)) :
    (s.memRead a).1 = (Config.busyDraw s.draws, .okay) := by
  rw [memRead_data_bit h, Block.outputRead_of_busy _ _ hbusy]

/-- A read while IDLE changes nothing at all (R57). -/
theorem memRead_state_of_idle (a : Addr) (h : s.fsm = .idle) : (s.memRead a).2 = s := by
  obtain hr | ⟨hbusy, -, -⟩ := s.memRead_cases a
  · exact hr
  · rw [h] at hbusy; cases hbusy

end State

/-! ### STATUS -/

/-- Two bit strings put together, as numbers. -/
theorem toNat_append_eq_add {n m : Nat} (x : BitVec n) (y : BitVec m) : (x ++ y).toNat = 2 ^ m * x.toNat + y.toNat := by
  rw [BitVec.toNat_append, ← Nat.shiftLeft_add_eq_or_of_lt y.isLt, Nat.shiftLeft_eq, Nat.mul_comm]

/-- STATUS as a number: each field at its place, and 0 in the reserved bits (R34). -/
theorem Block.toNat_statusWord (b : Block) : b.statusWord.toNat =
    (if b.fsm = .busy then 1 else 0) + 2 * (if b.done then 1 else 0) + 4 * (if b.eng.built then 1 else 0)
      + 8 * (if b.ovr then 1 else 0) + 256 * b.err.code.toNat := by
  simp only [statusWord, toNat_append_eq_add, BitVec.toNat_ofBool, BitVec.toNat_ofNat, Bool.toNat, Bool.cond_eq_ite, busy_iff]
  omega

/-! ### The inspection registers -/

/-- The registers that show ENG (R41 to R43, R122). -/
def Reg.inspection : List Reg :=
  [.nsym, .total, .root, .freq, .codelen, .nodeInfo, .nodeWeight, .nodeZero, .nodeOne]

/-- The inspection registers are a function of ENG, SEL and NODESEL (R122). -/
theorem Block.regRead_congr {b b' : Block} (c : Config) (heng : b.eng = b'.eng) (hsel : b.sel = b'.sel)
    (hnodesel : b.nodesel = b'.nodesel) : ∀ r ∈ Reg.inspection, b.regRead c r = b'.regRead c r := by
  simp [Reg.inspection, regRead, freqReg, codeLenReg, selCode, nodeInfoReg, nodeWeightReg, nodeZeroReg, nodeOneReg, selNode,
    heng, hsel, hnodesel]

/-- While ENG is Uninitialized the inspection registers read 0, whatever is selected (R130, R154). -/
theorem Block.regRead_of_uninitialized {b : Block} (c : Config) (h : b.eng = .uninitialized) :
    ∀ r ∈ Reg.inspection, b.regRead c r = 0 := by
  have hnode : b.selNode = none := selNode_of_not_valid fun ⟨hbuilt, _⟩ => by rw [h] at hbuilt; cases hbuilt
  obtain ⟨hinfo, hweight, hzero, hone⟩ := nodeRegs_of_none hnode
  have hcode : b.selCode = none := by rw [selCode, h]; rfl
  have hfreq : b.freqReg = 0 := by rw [freqReg, h]; rfl
  simp [Reg.inspection, regRead, hinfo, hweight, hzero, hone, hfreq, codeLenReg, hcode, natReg, h, Eng.uninitialized]

theorem Block.codeWinWord_of_uninitialized {b : Block} {j : Nat} (h : b.eng = .uninitialized) : b.codeWinWord j = 0 := by
  have hcode : b.selCode = none := by rw [selCode, h]; rfl
  simp [codeWinWord, hcode, packWord, bitsToNat]

/-- The registers that read 0 after reset without a selector (R154). -/
def Reg.zeroAtReset : List Reg :=
  [.ctrl, .status, .cmd, .len, .outlen, .errpos, .nsym, .total, .root, .sel, .nodesel]

theorem Block.regRead_initial (c : Config) : ∀ r ∈ Reg.zeroAtReset, Block.initial.regRead c r = 0 := by
  have hctrl : Block.initial.ctrlWord = 0 := by decide
  have hstatus : Block.initial.statusWord = 0 := by decide
  simp only [Reg.zeroAtReset, List.forall_mem_cons, regRead, hctrl, hstatus]
  simp [Block.initial, Eng.uninitialized, natReg]

/-- The code window is a function of ENG and SEL (R122). -/
theorem Block.codeWinWord_congr {b b' : Block} (heng : b.eng = b'.eng) (hsel : b.sel = b'.sel) :
    b.codeWinWord = b'.codeWinWord := by
  funext w; simp only [codeWinWord, selCode, heng, hsel]

/-- An address between the code window's base and TXT_IN leads to a word of the window or nowhere (R54). -/
theorem locate_of_window {c : Config} {a : Addr} (hlow : 0x010000 ≤ a.toNat) (hhigh : a.toNat < 0x100000) :
    locate c a = none ∨ ∃ w, locate c a = some (.codeWin w) := by
  by_cases hnone : locate c a = none
  · exact .inl hnone
  · rw [locate_eq_none_iff] at hnone
    obtain ⟨w, hw⟩ := exists_wordIndex (by decide) (by omega) hlow
    exact .inr ⟨w, locate_of_toNat_codeWin (by omega) hw⟩

/-- An address at or above TXT_OUT leads to a word of an output buffer or nowhere (R54). -/
theorem locate_of_output {c : Config} {a : Addr} (h : 0x200000 ≤ a.toNat) :
    locate c a = none ∨ (∃ w, locate c a = some (.txtOut w)) ∨ ∃ w, locate c a = some (.bit w) := by
  by_cases hnone : locate c a = none
  · exact .inl hnone
  · rw [locate_eq_none_iff] at hnone
    rcases Nat.lt_or_ge a.toNat 0x300000 with hlt | hge
    · obtain ⟨w, hw⟩ := exists_wordIndex (by decide) (by omega) h
      exact .inr (.inl ⟨w, locate_of_toNat_txtOut (by omega) hw⟩)
    · obtain ⟨w, hw⟩ := exists_wordIndex (by decide) (by omega) hge
      exact .inr (.inr ⟨w, locate_of_toNat_bit (by omega) hw⟩)

theorem State.memRead_data_codeWin {s : State} {a : Addr} {w : Nat} (h : locate s.cfg a = some (.codeWin w)) :
    (s.memRead a).1 = (s.codeWinWord w, .okay) := by
  simp [memRead, Block.memRead, h]

/-! ### The bus bridge -/

/-- A bus access in the window asks for the port access at its distance from HC_BASE (R55). -/
theorem BusAccess.port?_of_window {b : BusAccess} {c : Config} {n : Nat} (haddr : b.addr = c.hcBase + n) (hn : n < 2 ^ 22) :
    b.port? c = some (match b.data with
      | none => .read (BitVec.ofNat 22 n)
      | some v => .write (BitVec.ofNat 22 n) v) := by
  rw [port?, if_pos (by omega), haddr, Nat.add_sub_cancel_left]
  cases b.data <;> rfl

theorem BusAccess.port?_eq_none {b : BusAccess} {c : Config} (h : b.addr < c.hcBase ∨ c.hcBase + 2 ^ 22 ≤ b.addr) :
    b.port? c = none := if_neg (by omega)

namespace State

theorem hostStep_issue {s : State} {acc : Access} {rest : List HostOp} (h : s.script = .issue acc :: rest) :
    s.hostStep = (s.perform acc none).scriptTo rest := by simp only [hostStep, h]

theorem hostStep_bus {s : State} {b : BusAccess} {rest : List HostOp} (h : s.script = .bus b :: rest) :
    s.hostStep = (s.performBus b).scriptTo rest := by simp only [hostStep, h]

/-- An access does not depend on the script it stands in. -/
theorem perform_script (s : State) (l : List HostOp) (acc : Access) (e : Option Word) :
    ({ s with script := l } : State).perform acc e = { s.perform acc e with script := l } := by
  cases acc with
  | read a =>
    by_cases hdraw : s.drawsAt s.cfg a = true
    all_goals simp [perform, memRead, respond, drew, hdraw]
  | write a v => rfl

/-- A misaligned access is refused, whoever asks for it (R59). -/
theorem perform_of_misaligned {s : State} {acc : Access} {a : Addr} (ha : a.toNat % 4 ≠ 0)
    (hacc : acc = .read a ∨ ∃ v, acc = .write a v) (e : Option Word) : s.perform acc e = s.respond ⟨acc, 0, .error, e⟩ := by
  have hnone : locate s.cfg a = none := (locate_eq_none_iff s.cfg a).2 (.inl ha)
  obtain rfl | ⟨v, rfl⟩ := hacc
  · simp only [perform, memRead_of_none hnone]
  · simp only [perform, memWrite_of_none v hnone]

/-! ### The accesses of TEXT -/

theorem hostStep_issue_write {s : State} {a : Addr} {v : Word} {rest : List HostOp}
    (h : s.script = .issue (.write a v) :: rest) : ∃ log,
    s.hostStep = { (s.memWrite a v).2 with script := rest, log := log } := ⟨_, hostStep_issue h⟩

/-- The symbols of words, put back in words, as the words of TXT_IN hold them (R61, R62). -/
def symWords (c : Config) (vs : List Word) : List Word := vs.map fun v => wordOfSym (symOfWord c v)

/-- The host's writes of consecutive TXT_IN words while IDLE load them, one a step (R62, R85). -/
theorem hostStep_iterate_txtIn (vs : List Word) : ∀ {s : State} {i : Nat} {tail : List HostOp}, s.fsm = .idle →
    i + vs.length ≤ s.cfg.maxLen → s.script = wrOps .txtIn i vs ++ tail → ∃ log, hostStep^[vs.length] s =
      { s with mem := Memory.setWords s.mem (txtInBase + 4 * i) (symWords s.cfg vs), script := tail, log := log } := by
  induction vs with
  | nil =>
    intro s i tail _ _ hscript
    have hscript' : s.script = tail := hscript
    exact ⟨s.log, by rw [← hscript']; rfl⟩
  | cons v vs ih =>
    intro s i tail hidle hlen hscript
    rw [List.length_cons] at hlen
    obtain ⟨log, hstep⟩ := hostStep_issue_write (a := BitVec.ofNat 22 (0x100000 + 4 * i)) (v := v) hscript
    rw [memWrite_txtIn v (locate_txtIn s.cfg (by omega)), onBlock_unlessBusy_of_idle _ hidle] at hstep
    obtain ⟨log', hrest⟩ := ih (s := s.hostStep) (i := i + 1) (tail := tail) (by rw [hstep]; exact hidle)
      (by rw [hstep]; show i + 1 + vs.length ≤ s.cfg.maxLen; omega) (by rw [hstep]; rfl)
    refine ⟨log', ?_⟩
    rw [List.length_cons, Function.iterate_succ_apply, hrest, hstep]
    rfl

end State

/-- A character's code fits in a word (R84). -/
theorem toNat_charCode (ch : Char) : (charCode ch).toNat = ch.toNat := Nat.mod_eq_of_lt ch.val.toBitVec.isLt

/-! ### The obligations -/

/-- Settles O11: a read can at most use up a draw, while BUSY and at an output buffer. -/
theorem readsChangeNothing : Obligations.ReadsChangeNothing := by
  intro s a
  obtain hr | ⟨hbusy, hge, hr⟩ := s.memRead_cases a
  · rw [hr]; exact ⟨rfl, fun _ => rfl, fun _ => rfl⟩
  · rw [hr]
    refine ⟨rfl, fun hidle => ?_, fun hlt => by omega⟩
    rw [hbusy] at hidle; cases hidle

/-- Settles O18: the address names the BIT word, which a write while IDLE sets and while BUSY leaves, for OVR. -/
theorem bitBufferWords : Obligations.BitBufferWords := by
  intro s w v hw a t
  have hloc : locate s.cfg a = some (.bit w) := locate_bit s.cfg hw
  have ht : t = s.onBlock fun b => b.unlessBusy (Block.setBitWord w v) := congrArg Prod.snd (State.memWrite_bit v hloc)
  refine ⟨fun hidle => ?_, fun hbusy => ?_⟩
  · rw [State.onBlock_unlessBusy_of_idle _ hidle] at ht
    rw [State.memRead_data_bit hloc, Block.outputRead_of_idle _ _ hidle, ht]
    refine ⟨rfl, fun b hb => (s.bit_eq_bitWord hb).symm, fun b hb => ?_, ?_, rfl⟩
    · rw [Block.bit_eq_bitWord _ hb, State.onBlock_toBlock, Block.bitWord_setBitWord]
    · exact Block.sameOutside_writeWords s.toBlock (bitBase + 4 * w) [v]
  · rw [State.memRead_data_bit_of_busy hbusy hloc, ht, State.onBlock_unlessBusy_of_busy _ hbusy]
    exact ⟨rfl, rfl⟩

/-- Settles O19: an output buffer word reads its contents while IDLE, and while BUSY the draw, which is an input of the read. -/
theorem outputReadsWhileBusySayNothing : Obligations.OutputReadsWhileBusySayNothing := by
  refine ⟨fun s w hw hidle => ?idle, fun s w hw hbusy => ?bound, fun s a m e hbusy ha => ?same⟩
  case idle =>
    refine Prod.ext ?_ (State.memRead_state_of_idle _ hidle)
    rw [State.memRead_data_txtOut (locate_txtOut s.cfg hw), Block.outputRead_of_idle _ _ hidle]
    rfl
  case bound =>
    rw [State.memRead_data_txtOut_of_busy hbusy (locate_txtOut s.cfg hw), toNat_wordOfSym]
    exact symOfWord_lt s.cfg _
  case same =>
    obtain hl | ⟨w, hl⟩ | ⟨w, hl⟩ := locate_of_output (c := s.cfg) ha
    · rw [State.memRead_of_none hl, State.memRead_of_none (s := { s with mem := m, eng := e }) hl]
    · rw [State.memRead_data_txtOut_of_busy hbusy hl]
      exact State.memRead_data_txtOut_of_busy (s := { s with mem := m, eng := e }) hbusy hl
    · rw [State.memRead_data_bit_of_busy hbusy hl]
      exact State.memRead_data_bit_of_busy (s := { s with mem := m, eng := e }) hbusy hl

/-- Settles O22: each address leads to an inspection register, to a word of the code window, or nowhere. -/
theorem inspectionReadsDependOnEngineAndSelectors : Obligations.InspectionReadsDependOnEngineAndSelectors := by
  rintro s t a hcfg heng hsel hnodesel (ha | ⟨hlow, hhigh⟩)
  · have hmap : a ∈ Reg.inspection.map fun r => BitVec.ofNat 22 r.offset := ha
    obtain ⟨r, hr, rfl⟩ := List.mem_map.1 hmap
    rw [State.memRead_reg (locate_reg s.cfg r), State.memRead_reg (locate_reg t.cfg r), hcfg,
      Block.regRead_congr t.cfg heng hsel hnodesel r hr]
  · obtain hl | ⟨w, hl⟩ := locate_of_window (c := s.cfg) hlow hhigh
    · rw [State.memRead_of_none hl, State.memRead_of_none (hcfg ▸ hl)]
    · rw [State.memRead_data_codeWin hl, State.memRead_data_codeWin (hcfg ▸ hl), Block.codeWinWord_congr heng hsel]

/-- Settles O55: an access in the window is the port's, when it is 4 bytes wide, and is refused by the bridge or the port
otherwise; one outside the window is none. -/
theorem bridgePassesWholeWordsOnly : Obligations.BridgePassesWholeWordsOnly := by
  constructor
  case left =>
    intro s b rest n hscript haddr hn acc
    have hport : b.port? s.cfg = some acc := BusAccess.port?_of_window haddr hn
    rw [State.hostStep_bus hscript, State.performBus, hport]
    refine ⟨fun hbad => ?refused, fun hfour => ?passed⟩
    case refused =>
      by_cases hfour : b.bytes = 4
      · have hmis : (BitVec.ofNat 22 n).toNat % 4 ≠ 0 := by
          rw [BitVec.toNat_ofNat, Nat.mod_eq_of_lt hn]
          exact hbad.resolve_left (by simp [hfour])
        have hacc : acc = .read (BitVec.ofNat 22 n) ∨ ∃ v, acc = .write (BitVec.ofNat 22 n) v := by
          cases hdata : b.data with
          | none => exact .inl (by simp only [acc, hdata])
          | some v => exact .inr ⟨v, by simp only [acc, hdata]⟩
        simp only [if_pos hfour]
        rw [State.perform_of_misaligned hmis hacc]
        rfl
      · simp only [if_neg hfour]
        rfl
    case passed =>
      rw [State.hostStep_issue (acc := acc) (rest := rest) rfl, State.perform_script]
      simp only [if_pos hfour]
      rfl
  case right =>
    intro s b rest hscript houtside
    rw [State.hostStep_bus hscript, State.performBus, BusAccess.port?_eq_none houtside]
    rfl

/-- Settles O56, by induction on the characters: each access writes the next TXT_IN word, and the last one LEN. -/
theorem textStatementLoadsTheInput : Obligations.TextStatementLoadsTheInput := by
  intro s cs rest hidle hmax hscript t
  have hlen : (cs.map charCode).length = cs.length := List.length_map _
  rw [Stmt.expand, List.append_assoc] at hscript
  obtain ⟨log, hloaded⟩ := State.hostStep_iterate_txtIn (cs.map charCode) hidle (by omega) hscript
  rw [hlen] at hloaded
  obtain ⟨log', hlast⟩ := State.hostStep_issue_write (s := State.hostStep^[cs.length] s) (a := 0x01C)
    (v := BitVec.ofNat 32 cs.length) (rest := rest) (by rw [hloaded]; rfl)
  rw [State.memWrite_len_of_idle _ (by rw [hloaded]; exact hidle)] at hlast
  have ht : t = { s with
      mem := Memory.setWords s.mem txtInBase (State.symWords s.cfg (cs.map charCode))
      len := BitVec.ofNat 32 cs.length, script := rest, log := log' } :=
    (Function.iterate_succ_apply' State.hostStep cs.length s).trans (hlast.trans (by rw [hloaded]; rfl))
  have hwords : (State.symWords s.cfg (cs.map charCode)).length = cs.length := by simp [State.symWords]
  have hmem : t.toBlock.readWord = (s.writeWords txtInBase (State.symWords s.cfg (cs.map charCode))).readWord := by
    rw [ht]; rfl
  have hcfg : t.cfg = s.cfg := by rw [ht]
  refine ⟨by rw [ht], ?len, fun i hi => ?entries, ?outside, by rw [ht]⟩
  case len =>
    have hrange := s.cfg.maxLen_range.2
    rw [ht]
    exact toNat_natReg (by omega)
  case entries =>
    rw [Block.txtIn, hmem, hcfg, Block.readWord_writeWords_at _ _ _ _ (by omega), toNat_symOfWord]
    simp [State.symWords, toNat_wordOfSym, toNat_symOfWord, toNat_charCode, hi]
  case outside =>
    rw [ht, ← hwords]
    exact Block.sameOutside_writeWords s.toBlock txtInBase (State.symWords s.cfg (cs.map charCode))

/-- Settles O1, by running the decoder on each word. -/
theorem tableWordsDecode : Obligations.TableWordsDecode := by
  unfold Obligations.TableWordsDecode
  decide

/-- Settles O9: what shows the state shows a field of `Block.initial`, and a write to a selector leaves ENG Uninitialized. -/
theorem registersReadTheirResetValues : Obligations.RegistersReadTheirResetValues := by
  intro c v s
  have hunset : ∀ a : Addr, (s.memWrite a v).2.eng = .uninitialized := fun a => s.toBlock.memWrite_eng c a v
  refine ⟨rfl, rfl, fun a ha => ?zero, fun a ha => ?symbol, fun a ha => ?node, fun j hj => ?window,
    State.memRead_reg (r := .id) rfl, State.memRead_reg (r := .cfgSymw) rfl, State.memRead_reg (r := .cfgMaxlen) rfl,
    State.memRead_reg (r := .cfgMaxbits) rfl⟩
  case zero =>
    have hmap : a ∈ Reg.zeroAtReset.map fun r => BitVec.ofNat 22 r.offset := ha
    obtain ⟨r, hr, rfl⟩ := List.mem_map.1 hmap
    rw [State.memRead_reg (locate_reg s.cfg r)]
    exact congrArg (fun w => ((w, Resp.okay), s)) (Block.regRead_initial c r hr)
  case symbol =>
    have hmap : a ∈ ([.freq, .codelen] : List Reg).map fun r => BitVec.ofNat 22 r.offset := ha
    obtain ⟨r, hr, rfl⟩ := List.mem_map.1 hmap
    rw [State.memRead_reg (locate_reg _ r), Block.regRead_of_uninitialized _ (hunset _) r (List.subset_def.1 (by decide) hr)]
  case node =>
    have hmap : a ∈ ([.nodeInfo, .nodeWeight, .nodeZero, .nodeOne] : List Reg).map fun r => BitVec.ofNat 22 r.offset := ha
    obtain ⟨r, hr, rfl⟩ := List.mem_map.1 hmap
    rw [State.memRead_reg (locate_reg _ r), Block.regRead_of_uninitialized _ (hunset _) r (List.subset_def.1 (by decide) hr)]
  case window =>
    rw [State.memRead_codeWin (s.memWrite 0x034 v).2 hj, Block.codeWinWord_of_uninitialized (hunset _)]

/-- Settles O14: STATUS is its fields at their places, with the codes of R133. -/
theorem statusRegisterLayout : Obligations.StatusRegisterLayout := by
  intro s
  rw [State.memRead_reg (r := .status) rfl]
  refine ⟨rfl, s.toNat_statusWord.trans ?_⟩
  cases s.err <;> rfl

/-- Settles O16: a write to a selector keeps the bits of its width, and NODESEL past the last node names none. -/
theorem selectorsKeepTheirWidths : Obligations.SelectorsKeepTheirWidths := by
  refine ⟨?sel, ?nodesel, fun s hpast a ha => ?none⟩
  case sel =>
    intro s v t
    have ht : t = s.onBlock (Block.setSel s.cfg v) := congrArg Prod.snd (State.memWrite_reg (r := .sel) v rfl)
    rw [State.memRead_reg (r := .sel) rfl, ht]
    exact ⟨(toNat_wordOfSym _).trans (toNat_symOfWord _ _), rfl⟩
  case nodesel =>
    intro s v t
    have ht : t = s.onBlock (Block.setNodesel s.cfg v) := congrArg Prod.snd (State.memWrite_reg (r := .nodesel) v rfl)
    rw [State.memRead_reg (r := .nodesel) rfl, ht]
    refine ⟨?_, rfl⟩
    rw [← Block.toNat_setNodesel s.cfg v s.toBlock]
    exact BitVec.toNat_setWidth_of_le (by decide)
  case none =>
    obtain ⟨hinfo, hweight, hzero, hone⟩ := s.memRead_nodeRegs
    obtain ⟨h1, h2, h3, h4⟩ := Block.nodeRegs_of_none (s := s.toBlock)
      (Block.selNode_of_not_valid fun ⟨_, hlt⟩ => absurd hlt (by omega))
    simp only [List.mem_cons, List.not_mem_nil, or_false] at ha
    obtain rfl | rfl | rfl | rfl := ha
    exacts [hinfo.trans h1, hweight.trans h2, hzero.trans h3, hone.trans h4]

end Sys2Proof.Machine
end

section
/-! The committed tree, read out and built (40_build.md, 43_inspect.md): the weights fall from the root down, `render` follows the
walk for codes, and the merges took the nodes in the order of their keys. -/

namespace Sys2Proof.Machine

/-! ### Weights and symbols of the nodes -/

theorem wAt_eq_weight {nodes : List Node} {n : Nat} {x : Node} (h : nodes[n]? = some x) : wAt nodes n = x.weight := by
  rw [wAt, h]; rfl

/-- A node weighs no more than any node above it (R20). -/
theorem Shape.weight_le {e : Eng} {k : Nat} (h : Shape e.nodes k) {n m : Nat} {p : Bits} (hd : e.descend n p = some m) :
    wAt e.nodes m ≤ wAt e.nodes n := by
  induction p generalizing n with
  | nil =>
    obtain rfl : n = m := by simpa [Eng.descend] using hd
    exact le_refl _
  | cons b p ih =>
    simp only [Eng.descend] at hd
    cases hb : e.nodes[n]?.bind (·.branch? b) with
    | none => rw [hb] at hd; cases hd
    | some j =>
      rw [hb] at hd
      obtain ⟨hk, hn, -⟩ := h.branch hb
      obtain ⟨z, o, hnode, -⟩ := h.inner n hn hk
      have hweight : wAt e.nodes n = wAt e.nodes z + wAt e.nodes o := wAt_eq_weight hnode
      have hj : j = z ∨ j = o := by rw [hnode] at hb; cases b <;> simp_all [Node.branch?]
      have hle := ih hd
      obtain rfl | rfl := hj
      · omega
      · omega

namespace Eng.TreeOk

variable {c : Config} {e : Eng}

/-- No node weighs more than TOTAL (R22). -/
theorem wAt_le_total (h : e.TreeOk c) {n : Nat} (hn : n < e.nodes.length) : wAt e.nodes n ≤ e.total := by
  have hlen := h.nodes_length
  obtain ⟨p, hp⟩ := h.shape.reach (2 * e.k - 2 - n) n (by omega)
  rw [← h.root_weight, Eng.weightAt_eq, h.root_eq]
  exact h.shape.weight_le hp

/-- The Leaf of a symbol weighs its count (R22). -/
theorem leaf_weight (h : e.TreeOk c) {n w : Nat} {y : Sym} (hn : e.nodes[n]? = some (.leaf y w)) :
    (y, w) ∈ e.freq ∧ e.freqOf y = w := by
  have hk : n < e.k := ((h.leafAt_iff n y).1 (by rw [leafAt, hn]; rfl)).1
  have hseed : e.nodes[n]? = (seedLeaves e.freq)[n]? := by rw [← h.seeded, List.getElem?_take_of_lt hk]
  rw [hseed, seedLeaves, List.getElem?_map, Option.map_eq_some_iff] at hn
  obtain ⟨x, hx, hleaf⟩ := hn
  injection hleaf with hy hw
  have hmem : (y, w) ∈ e.freq := hy ▸ hw ▸ List.mem_of_getElem? hx
  exact ⟨hmem, by rw [freqOf, Table.get?_of_mem h.freq_wf hmem]; rfl⟩

end Eng.TreeOk

/-! ### The host procedure for the tree -/

/-- STATUS bit 2 shows BUILT (R34). -/
theorem Block.getLsbD_statusWord_two (b : Block) : b.statusWord.getLsbD 2 = b.eng.built := by
  simp only [statusWord, BitVec.getLsbD_append]
  simp

/-- NODE_INFO of a Leaf has LEAF set and SYMBOL in its low half (R126). -/
theorem Block.nodeInfoReg_of_leaf {b : Block} {y : Sym} {w : Nat} (h : b.selNode = some (.leaf y w)) :
    b.nodeInfoReg.getLsbD 30 = true ∧ (b.nodeInfoReg.extractLsb' 0 16).toNat = y.toNat := by
  have hnum := toNat_nodeInfoReg_of_leaf h
  have hy := y.isLt
  constructor
  · rw [BitVec.getLsbD, Nat.testBit_eq_decide_div_mod_eq, hnum, decide_eq_true_eq]
    omega
  · rw [BitVec.extractLsb'_toNat, hnum, Nat.shiftRight_zero]
    omega

/-- NODE_INFO of an Internal node has LEAF clear (R126). -/
theorem Block.nodeInfoReg_of_internal {b : Block} {w z o : Nat} (h : b.selNode = some (.internal w z o)) :
    b.nodeInfoReg.getLsbD 30 = false := by
  rw [BitVec.getLsbD, toNat_nodeInfoReg_of_internal h]
  decide

namespace State

/-- A write of a node index to NODESEL selects it (R45). -/
theorem wr_nodesel (s : State) {n : Nat} (h : n < 2 ^ (s.cfg.symW + 1)) :
    s.wr (.reg .nodesel) (BitVec.ofNat 32 n) = { s with nodesel := BitVec.ofNat 17 n } := by
  have hpow : 2 ^ (s.cfg.symW + 1) ≤ 2 ^ 17 := Nat.pow_le_pow_right (by omega) (Nat.succ_le_succ s.cfg.symW_range.2)
  have hnum : (BitVec.ofNat 32 n).toNat % 2 ^ (s.cfg.symW + 1) = n := by
    rw [BitVec.toNat_ofNat, Nat.mod_eq_of_lt (by omega : n < 2 ^ 32), Nat.mod_eq_of_lt h]
  have hset : s.toBlock.setNodesel s.cfg (BitVec.ofNat 32 n) = { s.toBlock with nodesel := BitVec.ofNat 17 n } := by
    rw [Block.setNodesel, hnum]
  rw [wr, Loc.addr, memWrite_reg _ (locate_reg s.cfg .nodesel)]
  exact congrArg (fun b => ({ s with toBlock := b } : State)) hset

section
variable {s : State} (h : s.eng.TreeOk s.cfg) (hbuilt : s.eng.built = true) (htotal : s.eng.total ≤ s.cfg.maxLen)
include h hbuilt htotal

/-- With a node index in NODESEL the registers show that node, its weight in full (R126, R127). -/
theorem selNode_of_wr {n : Nat} {x : Node} (hn : s.eng.nodes[n]? = some x) :
    (s.wr (.reg .nodesel) (BitVec.ofNat 32 n)).selNode = some x
    ∧ ((s.wr (.reg .nodesel) (BitVec.ofNat 32 n)).rd (.reg .nodeWeight)).toNat = wAt s.eng.nodes n := by
  obtain ⟨hlt, -⟩ := List.getElem?_eq_some_iff.1 hn
  have hlen := h.nodes_length
  have hk : s.eng.k ≤ 2 ^ s.cfg.symW := h.k_le
  have hbound : s.cfg.nsymMax ≤ 2 ^ 16 := nsymMax_le s.cfg
  have hwidth : n < 2 ^ (s.cfg.symW + 1) := by rw [Nat.pow_succ]; omega
  have hnum : (BitVec.ofNat 17 n).toNat = n := Nat.mod_eq_of_lt (by rw [Config.nsymMax] at hbound; omega)
  have hvalid : (BitVec.ofNat 17 n).toNat < 2 * s.eng.k - 1 := by omega
  have hsel : (s.wr (.reg .nodesel) (BitVec.ofNat 32 n)).selNode = some x := by
    rw [s.wr_nodesel hwidth]
    exact (Block.selNode_of_valid (s := { s.toBlock with nodesel := BitVec.ofNat 17 n }) ⟨hbuilt, hvalid⟩).trans
      ((congrArg (s.eng.nodes[·]?) hnum).trans hn)
  refine ⟨hsel, ?_⟩
  have hfits := h.wAt_le_total hlt
  have hmax := s.cfg.maxLen_range.2
  rw [rd_reg, Block.regRead, Block.nodeWeightReg_of_some hsel, ← wAt_eq_weight hn]
  exact toNat_natReg (by omega)

/-- `render` of a Leaf (R132). -/
theorem render_leaf (fuel : Nat) {n w : Nat} {y : Sym} (hn : s.eng.nodes[n]? = some (.leaf y w)) :
    s.render (fuel + 1) n = some (.leaf y.toNat w) := by
  obtain ⟨hsel, hweight⟩ := selNode_of_wr h hbuilt htotal hn
  obtain ⟨hleaf, hsym⟩ := Block.nodeInfoReg_of_leaf hsel
  have hw : wAt s.eng.nodes n = w := wAt_eq_weight hn
  simp only [render, hweight, hw]
  rw [rd_reg, Block.regRead, if_pos hleaf, hsym]

/-- `render` of an Internal node puts together those of its branches (R132). -/
theorem render_internal (fuel : Nat) {n w z o : Nat} {rz ro : RenderedTree} (hn : s.eng.nodes[n]? = some (.internal w z o))
    (hlt : z < n ∧ o < n) (hz : s.render fuel z = some rz) (ho : s.render fuel o = some ro) :
    s.render (fuel + 1) n = some (.internal w rz ro) := by
  obtain ⟨hsel, hweight⟩ := selNode_of_wr h hbuilt htotal hn
  have hlen := h.nodes_length
  have hk := h.k_le
  have hbound := nsymMax_le s.cfg
  obtain ⟨hnlt, -⟩ := List.getElem?_eq_some_iff.1 hn
  have hw : wAt s.eng.nodes n = w := wAt_eq_weight hn
  obtain ⟨hzero, hone⟩ := Block.branchRegs_of_internal hsel
  have hz' : (natReg z).toNat = z := toNat_natReg (by omega)
  have ho' : (natReg o).toNat = o := toNat_natReg (by omega)
  simp only [render, hweight, hw]
  rw [rd_reg, rd_reg, rd_reg, Block.regRead, Block.regRead, Block.regRead, Block.nodeInfoReg_of_internal hsel, hzero, hone,
    hz', ho', hz, ho]
  rfl

end

/-- What R132 says of the rendering `r` of the nodes from `n` down: its weights, and its leaves and paths as the walk for
codes meets them. -/
structure Renders (e : Eng) (fuel n : Nat) (r : RenderedTree) : Prop where
  weight : r.weight = wAt e.nodes n
  sums : r.sums = true
  leaves : ∀ p, r.leaves = (walk fuel e.nodes n p).map fun x => (x.1.toNat, e.freqOf x.1)
  paths : ∀ p, r.paths.map (fun x => (x.1, p ++ x.2)) = (walk fuel e.nodes n p).map fun x => (x.1.toNat, x.2)

theorem Renders.leaf {e : Eng} {c : Config} (h : e.TreeOk c) (fuel : Nat) {n w : Nat} {y : Sym}
    (hn : e.nodes[n]? = some (.leaf y w)) : Renders e (fuel + 1) n (.leaf y.toNat w) where
  weight := (wAt_eq_weight hn).symm
  sums := rfl
  leaves p := by simp [walk, hn, RenderedTree.leaves, (h.leaf_weight hn).2]
  paths p := by simp [walk, hn, RenderedTree.paths]

theorem Renders.internal {e : Eng} {fuel n z o : Nat} {rz ro : RenderedTree}
    (hn : e.nodes[n]? = some (.internal (wAt e.nodes z + wAt e.nodes o) z o)) (hz : Renders e fuel z rz)
    (ho : Renders e fuel o ro) : Renders e (fuel + 1) n (.internal (wAt e.nodes z + wAt e.nodes o) rz ro) where
  weight := (wAt_eq_weight hn).symm
  sums := by simp [RenderedTree.sums, hz.weight, ho.weight, hz.sums, ho.sums]
  leaves p := by simp only [walk, hn, RenderedTree.leaves, List.map_append, ← hz.leaves, ← ho.leaves]
  paths p := by
    simp only [walk, hn, RenderedTree.paths, List.map_append, ← hz.paths, ← ho.paths, List.map_map, Function.comp_def,
      List.append_assoc, List.singleton_append]

/-- The procedure renders every node of a committed tree (R132). -/
theorem exists_render {s : State} (h : s.eng.TreeOk s.cfg) (hbuilt : s.eng.built = true)
    (htotal : s.eng.total ≤ s.cfg.maxLen) (fuel : Nat) : ∀ n, n < fuel → n < s.eng.nodes.length →
    ∃ r, s.render fuel n = some r ∧ Renders s.eng fuel n r := by
  induction fuel with
  | zero => intro n hf; omega
  | succ fuel ih =>
    intro n hf hn
    rcases Nat.lt_or_ge n s.eng.k with hk | hk
    · obtain ⟨y, w, hleaf⟩ := h.shape.leaf n hk
      exact ⟨_, render_leaf h hbuilt htotal fuel hleaf, .leaf h fuel hleaf⟩
    · obtain ⟨z, o, hnode, hz, ho, -⟩ := h.shape.inner n hn hk
      obtain ⟨rz, hrz, hspecz⟩ := ih z (by omega) (by omega)
      obtain ⟨ro, hro, hspeco⟩ := ih o (by omega) (by omega)
      exact ⟨_, render_internal h hbuilt htotal fuel hnode ⟨hz, ho⟩ hrz hro, .internal hnode hspecz hspeco⟩

/-- `tree()` of a committed tree is `render` of its root (R132). -/
theorem readTree_eq_render {s : State} (h : s.eng.TreeOk s.cfg) (hbuilt : s.eng.built = true) :
    s.readTree = s.render (s.eng.root + 1) s.eng.root := by
  have hroot := h.root_eq
  have hk := h.k_le
  have hbound := nsymMax_le s.cfg
  have hnum : (natReg s.eng.root).toNat = s.eng.root := toNat_natReg (by omega)
  rw [readTree, rd_reg, rd_reg, Block.regRead, Block.regRead, Block.getLsbD_statusWord_two, if_pos hbuilt, hnum]

end State

/-- The walk of a committed tree meets the symbols of the frequency table, each once (R22). -/
theorem Eng.TreeOk.walk_freq_perm {c : Config} {e : Eng} (h : e.TreeOk c) (h2 : 2 ≤ e.k) :
    ((walk (e.root + 1) e.nodes e.root []).map fun x => (x.1.toNat, e.freqOf x.1)).Perm
      (e.freq.map fun x => (x.1.toNat, x.2)) := by
  refine ((h.code_perm_walk h2).symm.map _).trans (List.Perm.of_eq ?_)
  calc e.code.map (fun x => (x.1.toNat, e.freqOf x.1))
      = (e.code.map Prod.fst).map fun y => (y.toNat, e.freqOf y) := by rw [List.map_map]; rfl
    _ = (e.freq.map Prod.fst).map fun y => (y.toNat, e.freqOf y) := by rw [h.code_keys]
    _ = e.freq.map fun x => (x.1.toNat, x.2) := by
      rw [List.map_map]
      refine List.map_congr_left fun x hx => ?_
      have hget : e.freqOf x.1 = x.2 := by rw [Eng.freqOf, Table.get?_of_mem h.freq_wf hx]; rfl
      rw [Function.comp_apply, hget]

/-- The code table, with numbers for its symbols, holds the codes (R20). -/
theorem Eng.TreeOk.mem_code_toNat {c : Config} {e : Eng} (h : e.TreeOk c) {y : Sym} {p : Bits} :
    (y.toNat, p) ∈ e.code.map (fun x => (x.1.toNat, x.2)) ↔ e.codeOf y = some p := by
  have hinj : Function.Injective fun x : Sym × Bits => (x.1.toNat, x.2) := fun a b hab => by
    obtain ⟨hy, hp⟩ := Prod.mk.inj hab
    exact Prod.ext (BitVec.eq_of_toNat_eq hy) hp
  have hmem : (y.toNat, p) ∈ e.code.map (fun x => (x.1.toNat, x.2)) ↔ (y, p) ∈ e.code :=
    List.mem_map_of_injective (a := (y, p)) hinj
  exact hmem.trans ⟨Table.get?_of_mem h.code_wf, Table.mem_of_get?⟩

/-- A tree of one Leaf: its symbol is the only one counted (R93). -/
theorem Eng.TreeOk.single {c : Config} {e : Eng} (h : e.TreeOk c) (h1 : e.k = 1) :
    ∃ y w, e.freq = [(y, w)] ∧ e.nodes[e.root]? = some (.leaf y w) := by
  obtain ⟨y, w, hleaf⟩ := h.shape.leaf 0 (by omega)
  obtain ⟨x, hx⟩ := List.length_eq_one_iff.1 (h.freq_length.trans h1)
  have hmem := (h.leaf_weight hleaf).1
  rw [hx, List.mem_singleton] at hmem
  exact ⟨y, w, by rw [hx, hmem], by rw [h.root_eq, h1]; exact hleaf⟩

/-! ### The obligations -/

/-- Settles O30: the order is the invariant `sorted` of the merge loop. -/
theorem mergesRemoveNodesInKeyOrder : Obligations.MergesRemoveNodesInKeyOrder := by
  intro s t hpos hmax hexec
  have hne : countFreq (s.text s.cfg s.len.toNat) ≠ [] := List.length_pos_iff.1 (State.inputEng_treeOk hpos).one_le
  obtain ⟨-, -, -, -, hsorted⟩ := mergeAll_spec (countFreq_pos _) hne
  rw [State.eng_of_exec_build hpos hmax hexec]
  exact hsorted

/-- Settles O24: the rendering follows the walk for codes, which meets the leaves of the tree along the paths of their codes. -/
theorem treeRenderingShowsTheCodePaths : Obligations.TreeRenderingShowsTheCodePaths := by
  refine ⟨fun s hok hbuilt => ?tree, fun s hnot => ?none⟩
  case tree =>
    obtain ⟨h, htotal⟩ := hok.2 hbuilt
    have hroot : s.eng.root < s.eng.nodes.length := by
      have := h.one_le; rw [h.root_eq, h.nodes_length]; omega
    rw [State.readTree_eq_render h hbuilt]
    rcases Nat.lt_or_ge s.eng.k 2 with hk | h2
    · have h1 : s.eng.k = 1 := by have := h.one_le; omega
      obtain ⟨y, w, hfreq, hleaf⟩ := h.single h1
      have hspec := State.Renders.leaf h s.eng.root hleaf
      refine ⟨_, State.render_leaf h hbuilt htotal _ hleaf, hspec.weight.trans h.root_weight, rfl, ?_, fun h2 => by omega,
        fun _ => ⟨y, w, hfreq, rfl⟩⟩
      rw [hfreq]
      exact List.Perm.refl _
    · obtain ⟨r, hr, hspec⟩ := State.exists_render h hbuilt htotal (s.eng.root + 1) s.eng.root (Nat.lt_succ_self _) hroot
      refine ⟨r, hr, hspec.weight.trans h.root_weight, hspec.sums, ?leaves, fun _ y p => ?paths, fun h1 => by omega⟩
      case leaves => rw [hspec.leaves []]; exact h.walk_freq_perm h2
      case paths =>
        have hpaths : r.paths = (walk (s.eng.root + 1) s.eng.nodes s.eng.root []).map fun x => (x.1.toNat, x.2) := by
          rw [← hspec.paths []]; simp
        rw [hpaths, ((h.code_perm_walk h2).symm.map _).mem_iff]
        exact h.mem_code_toNat
  case none =>
    rw [State.readTree, State.rd_reg, Block.regRead, Block.getLsbD_statusWord_two, hnot]
    rfl

end Sys2Proof.Machine
end

section
/-! What the coders read and report (41_encode.md, 42_decode.md, 60_exceptions.md): the overflow of ENCODE, the frame of DECODE,
the errors of each command, and that ENCODE reads the code table only and DECODE the tree only. -/

namespace Sys2Proof.Machine

/-! ### Output that does not depend on what stood there -/

namespace Block

/-- Where the same words were written the bytes are the same, whatever stood there before. -/
theorem readByte_eq_of_writeWords {s s' t t' : Block} {a x : Nat} {vs : List Word} (hm : t.mem = (s.writeWords a vs).mem)
    (hm' : t'.mem = (s'.writeWords a vs).mem) (hge : a ≤ x) (hlt : x < a + 4 * vs.length) : t.readByte x = t'.readByte x := by
  obtain ⟨i, j, hj, rfl⟩ : ∃ i j, j < 4 ∧ x = a + 4 * i + j := ⟨(x - a) / 4, (x - a) % 4, by omega, by omega⟩
  simp only [readByte, hm, hm', writeWords_mem, Memory.get?_setWords_at _ a vs i j (by omega) hj, Option.getD_some]

/-- The output of an ENCODE is words written from the base of its buffer on (R108, R109). -/
theorem exists_writeBits_eq (fmt : Fmt) (out : Bits) : ∃ vs : List Word, 4 * vs.length = fmt.outBytes out.length
    ∧ ∀ b : Block, b.writeBits fmt out = b.writeWords fmt.outBase vs := by
  cases fmt with
  | packed => exact ⟨packWords out, congrArg (4 * ·) (length_packWords out), fun _ => rfl⟩
  | char => exact ⟨_, congrArg (4 * ·) (List.length_map _), fun _ => rfl⟩

/-- Two blocks with one input text, as far as it goes. -/
theorem text_eq_of_txtIn {s s' : Block} {c c' : Config} {n : Nat} (h : ∀ i, i < n → s.txtIn c i = s'.txtIn c' i) :
    s.text c n = s'.text c' n :=
  List.map_congr_left fun i hi => h i (List.mem_range.1 hi)

end Block

/-! ### How a DECODE ends -/

/-- TXT_OUT ends where BIT begins, at the latest (R54). -/
theorem txtOut_below_bitBase (c : Config) : txtOutBase + 4 * c.maxLen ≤ bitBase := by
  have hmaxLen := c.maxLen_range
  show 0x200000 + 4 * c.maxLen ≤ 0x300000
  omega

/-- The capacity of TXT_OUT fits in OUTLEN (R6). -/
theorem maxLen_lt (c : Config) : c.maxLen < 2 ^ 32 := Fmt.outCap_lt c .char

/-- A change below `base` leaves the stream bits of the words of BIT from there on. -/
theorem Block.SameOutside.bit_eq {s t : Block} {base n i : Nat} (h : Block.SameOutside base n s t) (hi : base + n ≤ bitBase) :
    t.bit i = s.bit i := by
  have hword : t.bitWord (i / 32) = s.bitWord (i / 32) := Block.readWord_congr fun _ _ => h _ (by omega)
  rw [Block.bit, Block.bit, hword]

/-- A DECODE ends with one of the two early errors, which touch the record only, or with what `decodeBits` answers
(R111, R119). -/
theorem exec_decoder_cases {s t : State} {fmt : Fmt} (h : exec fmt.decoder s = .next t) :
    (∃ e, e ∈ ([.uninitializedTree, .lenRange] : List ErrCode) ∧ t = s.completedWith e 0 0)
    ∨ ∃ out err, s.len.toNat ≤ fmt.inCap s.cfg ∧ decodeBits s.cfg fmt s.len.toNat s.toBlock = (out, err)
        ∧ t = { s.completedWith ((err.map Prod.fst).getD .none) ((err.map Prod.snd).getD 0) out.length with mem := t.mem }
        ∧ Block.SameOutside txtOutBase (4 * out.length) s.toBlock t.toBlock := by
  have ht : t = s.completeWith (doDecode fmt) := by rw [exec_decoder] at h; injection h with h; exact h.symm
  obtain ⟨-, hd⟩ | ⟨-, -, hd⟩ | ⟨hbuilt, hlen, -⟩ := doDecode_cases fmt s.cfg s.toBlock
  · exact .inl ⟨.uninitializedTree, by decide, ht.trans (State.completeWith_eq hd)⟩
  · exact .inl ⟨.lenRange, by decide, ht.trans (State.completeWith_eq hd)⟩
  · obtain ⟨u, hu, hrecord, -, -, hsame⟩ := exec_decoder_of_bits (fmt := fmt) hbuilt hlen rfl
    obtain rfl : u = t := by rw [hu] at h; injection h
    exact .inr ⟨_, _, hlen, rfl, hrecord, hsame⟩

/-- Of two blocks that agree on LEN and BUILT, an ENCODE gets as far as the encoder or raises the same early error on both. -/
theorem doEncode_early_or_text (fmt : Fmt) (c : Config) {b b' : Block} (hlen : b.len = b'.len)
    (hbuilt : b.eng.built = b'.eng.built) :
    (∃ e, doOf fmt.encoder c b = b.raiseEarly e ∧ doOf fmt.encoder c b' = b'.raiseEarly e)
    ∨ (b.eng.built = true ∧ b.len.toNat ≤ c.maxLen) := by
  rw [doOf_encoder]
  obtain ⟨hb, hd⟩ | ⟨hb, hlong, hd⟩ | ⟨hb, hmax, -⟩ := doEncode_cases fmt c b
  · exact .inl ⟨_, hd, doEncode_of_uninitialized (hbuilt ▸ hb)⟩
  · exact .inl ⟨_, hd, doEncode_of_long (hbuilt ▸ hb) (by rw [Block.inputLen, ← hlen]; exact hlong)⟩
  · exact .inr ⟨hb, hmax⟩

/-- The same of a DECODE. -/
theorem doDecode_early_or_input (fmt : Fmt) (c : Config) {b b' : Block} (hlen : b.len = b'.len)
    (hbuilt : b.eng.built = b'.eng.built) :
    (∃ e, doOf fmt.decoder c b = b.raiseEarly e ∧ doOf fmt.decoder c b' = b'.raiseEarly e)
    ∨ (b.eng.built = true ∧ b.len.toNat ≤ fmt.inCap c) := by
  rw [doOf_decoder]
  obtain ⟨hb, hd⟩ | ⟨hb, hlong, hd⟩ | ⟨hb, hmax, -⟩ := doDecode_cases fmt c b
  · exact .inl ⟨_, hd, doDecode_of_uninitialized (hbuilt ▸ hb)⟩
  · exact .inl ⟨_, hd, doDecode_of_long (hbuilt ▸ hb) (by rw [Block.inputLen, ← hlen]; exact hlong)⟩
  · exact .inr ⟨hb, hmax⟩

/-- Two commands that raise the same error early end with the same record, and no output. -/
theorem record_of_raiseEarly {i : Instr} {s s' t t' : State} {e : ErrCode} (hd : doOf i s.cfg s.toBlock = s.raiseEarly e)
    (hd' : doOf i s'.cfg s'.toBlock = s'.raiseEarly e) (h : exec i s = .next t) (h' : exec i s' = .next t') :
    t.err = t'.err ∧ t.errpos = t'.errpos ∧ t.outlen = t'.outlen ∧ t.outlen = 0 := by
  rw [exec_of_raiseEarly hd] at h
  rw [exec_of_raiseEarly hd'] at h'
  injection h with h
  injection h' with h'
  rw [← h, ← h']
  exact ⟨rfl, rfl, rfl, rfl⟩

/-! ### The errors of the commands -/

/-- The errors BUILD can end with (R97, R98). -/
theorem err_of_exec_build {s t : State} (h : exec .build s = .next t) :
    t.err ∈ ([.none, .emptyInput, .lenRange] : List ErrCode) := by
  rw [exec_eq] at h
  injection h with h
  subst h
  obtain ⟨-, hd⟩ | ⟨-, hd⟩ | ⟨-, -, hd⟩ := doBuild_cases s.cfg s.toBlock
  all_goals rw [State.completeWith_eq (f := doOf .build) hd]; simp

/-- The errors ENCODE can end with, in either format (R105, R106, R140, R141). -/
theorem err_of_exec_encoder {s t : State} {fmt : Fmt} (h : exec fmt.encoder s = .next t) :
    t.err ∈ ([.none, .uninitializedTree, .lenRange, .unknownSymbol, .outOverflow] : List ErrCode) := by
  obtain ⟨e, he, rfl⟩ | ⟨e, p, n, he, -, ht, -⟩ := exec_encoder_cases h
  · exact List.subset_def.1 (by decide) he
  · rw [ht]; exact List.subset_def.1 (by decide) he

/-- The errors of the decoder over characters no more than TXT_OUT holds symbols: INVALID_BIT at the first that is no bit, and
otherwise those over bits (R115). -/
theorem decodeBits_char_err {c : Config} {b : Block} {n : Nat} (hn : n ≤ c.maxLen) :
    ((decodeBits c .char n b).2.map Prod.fst).getD .none
      ∈ ([.none, .outOverflow, .malformedBitstream, .invalidBit] : List ErrCode) := by
  by_cases hbits : ∀ j, j < n → ∃ d, b.readBit c .char j = some d
  · obtain ⟨bs, -, hbs⟩ := Block.exists_inputBits_eq hbits
    rw [decodeBits, hbs]
    exact List.subset_def.1 (by decide) (decodeLoop_err_of_bits _ _ _ _ _ _ _)
  · have hex : ∃ j, j < n ∧ ¬ ∃ d, b.readBit c .char j = some d := by simpa using hbits
    classical
    obtain ⟨hlt, hbad⟩ := Nat.find_spec hex
    have hbefore : ∀ j, j < Nat.find hex → ∃ d, b.readBit c .char j = some d := fun j hj =>
      not_not.1 fun hnot => Nat.find_min hex hj ⟨hj.trans hlt, hnot⟩
    have hnone := Option.eq_none_iff_forall_ne_some.2 fun d hd => hbad ⟨d, hd⟩
    rw [decodeBits_of_invalid hlt (hlt.le.trans hn) hbefore hnone]
    simp

/-- The errors DECODE.C can end with (R115, R117, R118, R140, R141). -/
theorem err_of_exec_decodeC {s t : State} (h : exec .decodeC s = .next t) :
    t.err ∈ ([.none, .uninitializedTree, .lenRange, .outOverflow, .malformedBitstream, .invalidBit] : List ErrCode) := by
  obtain ⟨e, he, rfl⟩ | ⟨out, err, hlen, hbits, ht, -⟩ := exec_decoder_cases (fmt := .char) h
  · exact List.subset_def.1 (by decide) he
  · have herr := decodeBits_char_err (b := s.toBlock) hlen
    rw [hbits] at herr
    rw [ht]
    exact List.subset_def.1 (by decide) herr

/-! ### What the coders read -/

/-- The encoder stops at the first code that does not fit, with the codes before it (R106). -/
theorem encodeBits_of_overflow {c : Config} {b : Block} {cap i : Nat} {cs : List Bits} {p : Bits} (hi : i < b.inputLen)
    (hcodes : (b.text c i).map b.eng.codeOf = cs.map some) (hcap : cs.flatten.length ≤ cap)
    (hp : b.eng.codeOf (b.txtIn c i) = some p) (hover : cap < cs.flatten.length + p.length) :
    encodeBits c cap b = (cs.flatten, some (.outOverflow, i)) := by
  obtain ⟨rest, hsplit⟩ := b.text_split c hi
  rw [encodeBits, hsplit, encodeLoop_run _ _ _ cs _ _ _ hcodes (by simpa using hcap), encodeLoop, hp]
  simp only [List.nil_append, Nat.zero_add]
  rw [if_pos hover, Block.length_text]

/-- The encoder reads the code table, LEN and the text (R102). -/
theorem encodeBits_congr {c : Config} {cap : Nat} {b b' : Block} (hlen : b.len = b'.len)
    (hcode : ∀ y, b.eng.codeOf y = b'.eng.codeOf y) (htext : b.text c b.inputLen = b'.text c b.inputLen) :
    encodeBits c cap b = encodeBits c cap b' := by
  have hlen' : b.inputLen = b'.inputLen := congrArg BitVec.toNat hlen
  rw [encodeBits, encodeBits, htext, hlen', encodeLoop_congr _ _ _ _ hcode]

/-- The decoder reads the nodes, the root and the input elements (R111). -/
theorem decodeBits_congr {c : Config} {fmt : Fmt} {n : Nat} {b b' : Block} (hnodes : b.eng.nodes = b'.eng.nodes)
    (hroot : b.eng.root = b'.eng.root) (hinput : ∀ i, i < n → b.readBit c fmt i = b'.readBit c fmt i) :
    decodeBits c fmt n b = decodeBits c fmt n b' := by
  have hbits : b.inputBits c fmt n = b'.inputBits c fmt n := List.map_congr_left fun i hi => hinput i (List.mem_range.1 hi)
  rw [decodeBits, decodeBits, hbits, decodeLoop_congr hnodes hroot, hroot]

/-- The encoder's output fits in its buffer (R106). -/
theorem encodeBits_length_le {c : Config} {cap : Nat} {b : Block} {out : Bits} {err : Option (ErrCode × Nat)}
    (h : encodeBits c cap b = (out, err)) : out.length ≤ cap := by
  have hle := encodeLoop_length_le b.eng.codeOf cap (b.text c b.inputLen) 0 [] (Nat.zero_le _)
  rwa [← encodeBits, h] at hle

/-- The decoder's output fits in TXT_OUT (R118). -/
theorem decodeBits_length_le {c : Config} {fmt : Fmt} {n : Nat} {b : Block} {out : List Sym} {err : Option (ErrCode × Nat)}
    (h : decodeBits c fmt n b = (out, err)) : out.length ≤ c.maxLen := by
  have hle := decodeLoop_length_le b.eng c.maxLen (b.inputBits c fmt n) 0 [] b.eng.root 0 (Nat.zero_le _)
  rwa [← decodeBits, h] at hle

/-! ### The obligations -/

/-- Settles O34: each way a command ends names its error. -/
theorem errorsOfEachCommand : Obligations.ErrorsOfEachCommand := fun _ _ =>
  ⟨err_of_exec_build, fun h => h.elim (err_of_exec_encoder (fmt := .packed)) (err_of_exec_encoder (fmt := .char)),
    err_of_exec_decodeP, err_of_exec_decodeC⟩

/-- Settles O37: the encoder answers the codes before the first that does not fit, and its position. -/
theorem encodeStopsAtAnOverflow : Obligations.EncodeStopsAtAnOverflow := by
  intro s fmt i cs c hbuilt hlen hi hcodes hcap hp hover
  obtain ⟨t, hexec, hrecord, -, hholds, hsame⟩ :=
    exec_encoder_of_bits hbuilt hlen (encodeBits_of_overflow hi hcodes hcap hp hover)
  exact ⟨t, hexec, hrecord, hholds, hsame⟩

/-- Settles O39: both ENCODEs end early alike, or write the one stream that the encoder makes of the code table and the text. -/
theorem encodeReadsOnlyTheCodeTable : Obligations.EncodeReadsOnlyTheCodeTable := by
  intro s s' t t' fmt hcfg hlen hbuilt hcode htext hexec hexec'
  obtain ⟨e, hd, hd'⟩ | ⟨hb, hmax⟩ := doEncode_early_or_text fmt s.cfg (b := s.toBlock) (b' := s'.toBlock) hlen hbuilt
  case inl =>
    have hnothing : fmt.outBytes (0 : Word).toNat = 0 := by cases fmt <;> rfl
    obtain ⟨herr, hpos, hout, hzero⟩ := record_of_raiseEarly hd (hcfg ▸ hd') hexec hexec'
    exact ⟨herr, hpos, hout, fun a hge hlt => by rw [hzero, hnothing] at hlt; omega⟩
  case inr =>
    obtain ⟨⟨out, err⟩, hbits⟩ : ∃ x, encodeBits s.cfg (fmt.outCap s.cfg) s.toBlock = x := ⟨_, rfl⟩
    have hbits' : encodeBits s'.cfg (fmt.outCap s'.cfg) s'.toBlock = (out, err) := by
      rw [← hcfg] at htext ⊢
      rw [← hbits]
      exact (encodeBits_congr hlen hcode (Block.text_eq_of_txtIn htext)).symm
    have hmax' : s'.len.toNat ≤ s'.cfg.maxLen := hlen ▸ hcfg ▸ hmax
    obtain ⟨u, hu, hrecord, hmem, -, -⟩ := exec_encoder_of_bits hb hmax hbits
    obtain ⟨u', hu', hrecord', hmem', -, -⟩ := exec_encoder_of_bits (hbuilt ▸ hb) hmax' hbits'
    obtain rfl : u = t := Host.Outcome.next.inj (hu.symm.trans hexec)
    obtain rfl : u' = t' := Host.Outcome.next.inj (hu'.symm.trans hexec')
    have houtlen : u.outlen.toNat = out.length := by
      rw [hrecord]; exact toNat_natReg ((encodeBits_length_le hbits).trans_lt (fmt.outCap_lt s.cfg))
    refine ⟨by rw [hrecord, hrecord']; rfl, by rw [hrecord, hrecord']; rfl, by rw [hrecord, hrecord']; rfl,
      fun a hge hlt => ?_⟩
    obtain ⟨vs, hvs, hwrite⟩ := Block.exists_writeBits_eq fmt out
    rw [hwrite] at hmem hmem'
    exact Block.readByte_eq_of_writeWords hmem hmem' hge (by rw [hvs, ← houtlen]; exact hlt)

/-- Settles O45: an early error touches the record only; otherwise OUTLEN is the number of symbols, which fit in TXT_OUT, and
TXT_OUT lies between TXT_IN and BIT. -/
theorem decodeFrame : Obligations.DecodeFrame := by
  intro s t fmt hexec
  obtain ⟨e, -, rfl⟩ | ⟨out, err, -, hbits, ht, hsame⟩ := exec_decoder_cases hexec
  · exact ⟨rfl, Nat.zero_le _, Block.sameOutside_of_mem _ _ rfl rfl, fun _ _ => rfl, fun _ _ => rfl⟩
  · have hcap := decodeBits_length_le hbits
    have hcfg : t.cfg = s.cfg := by rw [ht]; rfl
    have houtlen : t.outlen.toNat = out.length := by
      rw [ht]; exact toNat_natReg (hcap.trans_lt (maxLen_lt s.cfg))
    have hbelow := Fmt.txtIn_below_outBase s.cfg .char
    have habove := txtOut_below_bitBase s.cfg
    refine ⟨by rw [ht]; rfl, houtlen ▸ hcap, houtlen ▸ hsame, fun i hi => ?keepsTxtIn, fun i hi => ?keepsBit⟩
    case keepsTxtIn =>
      rw [hcfg]
      exact hsame.txtIn_eq s.cfg (show txtInBase + 4 * i + 4 ≤ Fmt.char.outBase by omega)
    case keepsBit => exact hsame.bit_eq (by omega)

/-- Settles O47: both DECODEs end early alike, or write the one text that the decoder makes of the tree and the input. -/
theorem decodeReadsOnlyTheTree : Obligations.DecodeReadsOnlyTheTree := by
  intro s s' t t' fmt hcfg hlen hbuilt hnodes hroot hinput hexec hexec'
  obtain ⟨e, hd, hd'⟩ | ⟨hb, hmax⟩ := doDecode_early_or_input fmt s.cfg (b := s.toBlock) (b' := s'.toBlock) hlen hbuilt
  case inl =>
    obtain ⟨herr, hpos, hout, hzero⟩ := record_of_raiseEarly hd (hcfg ▸ hd') hexec hexec'
    exact ⟨herr, hpos, hout, fun j hj => by rw [hzero] at hj; cases hj⟩
  case inr =>
    obtain ⟨⟨out, err⟩, hbits⟩ : ∃ x, decodeBits s.cfg fmt s.len.toNat s.toBlock = x := ⟨_, rfl⟩
    have hbits' : decodeBits s'.cfg fmt s'.len.toNat s'.toBlock = (out, err) := by
      rw [← hcfg] at hinput ⊢
      rw [← hlen, ← hbits]
      exact (decodeBits_congr hnodes hroot hinput).symm
    have hmax' : s'.len.toNat ≤ fmt.inCap s'.cfg := hlen ▸ hcfg ▸ hmax
    obtain ⟨u, hu, hrecord, hmem, -, -⟩ := exec_decoder_of_bits hb hmax hbits
    obtain ⟨u', hu', hrecord', hmem', -, -⟩ := exec_decoder_of_bits (hbuilt ▸ hb) hmax' hbits'
    obtain rfl : u = t := Host.Outcome.next.inj (hu.symm.trans hexec)
    obtain rfl : u' = t' := Host.Outcome.next.inj (hu'.symm.trans hexec')
    have houtlen : u.outlen.toNat = out.length := by
      rw [hrecord]; exact toNat_natReg ((decodeBits_length_le hbits).trans_lt (maxLen_lt s.cfg))
    have hcfg' : u.cfg = u'.cfg := by rw [hrecord, hrecord']; exact hcfg
    refine ⟨by rw [hrecord, hrecord']; rfl, by rw [hrecord, hrecord']; rfl, by rw [hrecord, hrecord']; rfl, fun j hj => ?_⟩
    have hword : (out.map wordOfSym).length = out.length := List.length_map _
    rw [Block.txtOut, Block.txtOut, hcfg']
    exact congrArg _ (Block.readWord_congr fun b hb => Block.readByte_eq_of_writeWords hmem hmem' (by omega) (by omega))

end Sys2Proof.Machine
end

section
/-! DECODE (42_decode.md): what the decoder makes of the codes of a text, of a stream that ends in a code or runs over, and of a
tree of one or two leaves; and the round trips. -/

namespace Sys2Proof.Machine

/-! ### What the decoder makes of a bitstring -/

section
variable {c : Config} {b : Block} {fmt : Fmt} {n : Nat}

/-- A DECODE of a bitstring runs the automaton over its bits from the root (R111). -/
theorem decodeBits_of_inputIs {bs : Bits} (h : b.InputIs c fmt bs) (hn : n = bs.length) :
    decodeBits c fmt n b = decodeLoop b.eng c.maxLen (bs.map some) 0 [] b.eng.root 0 := by
  rw [decodeBits, Block.inputBits_of_inputIs h hn.le, hn, List.take_length]

variable {ys : List Sym} {cs : List Bits} (htree : b.eng.TreeOk c) (hcodes : ys.map b.eng.codeOf = cs.map some)
  (hfit : ys.length ≤ c.maxLen)
include htree hcodes hfit

/-- After the codes of a text that fits the decoder has emitted the text, and goes on from the root (R111). -/
theorem decodeLoop_after_codes (rest : List (Option Bool)) :
    decodeLoop b.eng c.maxLen (cs.flatten.map some ++ rest) 0 [] b.eng.root 0
      = decodeLoop b.eng c.maxLen rest cs.flatten.length ys b.eng.root cs.flatten.length := by
  simpa using htree.decodeLoop_run c.maxLen ys cs hcodes rest 0 [] (by simpa using hfit)

/-- The codes of a text that fits decode to the text (R111). -/
theorem decodeBits_of_codes (hn : n = cs.flatten.length) (h : b.InputIs c fmt cs.flatten) :
    decodeBits c fmt n b = (ys, none) := by
  have hrun := decodeLoop_after_codes htree hcodes hfit []
  rw [List.append_nil] at hrun
  rw [decodeBits_of_inputIs h hn, hrun, decodeLoop, if_pos rfl]

/-- A stream that ends within a code is malformed from that code's first bit on (R117). -/
theorem decodeBits_of_midCode {z : Sym} {p q : Bits} (hz : b.eng.codeOf z = some (p ++ q)) (hp : p ≠ []) (hq : q ≠ [])
    (hn : n = (cs.flatten ++ p).length) (h : b.InputIs c fmt (cs.flatten ++ p)) :
    decodeBits c fmt n b = (ys, some (.malformedBitstream, cs.flatten.length)) := by
  obtain ⟨m, hdescend, hleaf, hroot, h2⟩ := htree.descend_part hz hp hq
  have hinside := decodeLoop_inside b.eng c.maxLen p [] cs.flatten.length ys b.eng.root cs.flatten.length m
    (htree.leafAt_root_none h2) hdescend hleaf
  rw [List.append_nil] at hinside
  rw [decodeBits_of_inputIs h hn, List.map_append, decodeLoop_after_codes htree hcodes hfit, hinside, decodeLoop, if_neg hroot]

end

/-- MAX_LEN codes fill TXT_OUT, and the code after them overflows at its first bit (R118). -/
theorem decodeBits_of_full {c : Config} {b : Block} {fmt : Fmt} {n : Nat} {ys : List Sym} {cs : List Bits} {z : Sym}
    {p rest : Bits} (htree : b.eng.TreeOk c) (hcodes : ys.map b.eng.codeOf = cs.map some) (hfull : ys.length = c.maxLen)
    (hz : b.eng.codeOf z = some p) (hn : n = (cs.flatten ++ p ++ rest).length)
    (h : b.InputIs c fmt (cs.flatten ++ p ++ rest)) :
    decodeBits c fmt n b = (ys, some (.outOverflow, cs.flatten.length)) := by
  rw [decodeBits_of_inputIs h hn, List.append_assoc, List.map_append, decodeLoop_after_codes htree hcodes hfull.le,
    List.map_append, ← hfull]
  exact htree.decodeLoop_overflow hz _ _ _

/-- A Leaf at the root emits its symbol for every bit of a stream that fits in TXT_OUT (R116). -/
theorem decodeBits_of_leafRoot {c : Config} {b : Block} {fmt : Fmt} {n : Nat} {bs : Bits} {y : Sym}
    (hroot : b.eng.leafAt b.eng.root = some y) (hfit : bs.length ≤ c.maxLen) (hn : n = bs.length) (h : b.InputIs c fmt bs) :
    decodeBits c fmt n b = (List.replicate bs.length y, none) := by
  have hrun := decodeLoop_leafRoot b.eng c.maxLen bs [] 0 [] b.eng.root 0 y hroot (by simpa using hfit)
  rw [List.append_nil] at hrun
  rw [decodeBits_of_inputIs h hn, hrun, decodeLoop, if_pos rfl, List.nil_append]

/-- Of a longer stream it emits MAX_LEN symbols, and the next bit overflows (R118). -/
theorem decodeBits_of_leafRoot_full {c : Config} {b : Block} {fmt : Fmt} {n : Nat} {bs : Bits} {y : Sym}
    (hroot : b.eng.leafAt b.eng.root = some y) (hover : c.maxLen < bs.length) (hn : n = bs.length) (h : b.InputIs c fmt bs) :
    decodeBits c fmt n b = (List.replicate c.maxLen y, some (.outOverflow, c.maxLen)) := by
  obtain ⟨before, bit, after, rfl, hlen⟩ : ∃ before bit after, bs = before ++ bit :: after ∧ before.length = c.maxLen :=
    ⟨bs.take c.maxLen, bs[c.maxLen], bs.drop (c.maxLen + 1), by simp, by simpa using hover.le⟩
  have hpos := c.maxLen_range.1
  have hne : before ≠ [] := List.length_pos_iff.1 (by omega)
  rw [decodeBits_of_inputIs h hn, List.map_append, decodeLoop_leafRoot _ _ _ _ _ _ _ _ y hroot (by simpa using hlen.le),
    List.map_cons, decodeLoop, hroot, if_neg hne, hlen]
  simp

/-! ### Texts with codes -/

/-- A text of counted symbols is the text of its codes (R99). -/
theorem Eng.TreeOk.map_codeOf {c : Config} {e : Eng} (h : e.TreeOk c) {ys : List Sym} (hys : ∀ y ∈ ys, 0 < e.freqOf y) :
    ys.map e.codeOf = (ys.map fun y => (e.codeOf y).getD []).map some := by
  rw [List.map_map]
  refine List.map_congr_left fun y hy => ?_
  obtain ⟨p, hp⟩ := Option.ne_none_iff_exists'.1 ((h.codeOf_ne_none_iff y).2 (hys y hy))
  rw [Function.comp_apply, hp]
  rfl

/-- A text with codes is made of legal symbols (R22). -/
theorem Eng.TreeOk.nsym_of_codes {c : Config} {e : Eng} (h : e.TreeOk c) {ys : List Sym} {cs : List Bits}
    (hcodes : ys.map e.codeOf = cs.map some) : ∀ y ∈ ys, y.toNat < c.nsymMax := by
  intro y hy
  have hmem : e.codeOf y ∈ cs.map some := hcodes ▸ List.mem_map_of_mem hy
  obtain ⟨p, -, hp⟩ := List.mem_map.1 hmem
  exact h.codeOf_nsym hp.symm

/-- In a tree of two leaves every bit is a code (R121). -/
theorem Eng.TreeOk.exists_code_of_two {c : Config} {e : Eng} (h : e.TreeOk c) (h2 : e.k = 2) (b : Bool) :
    ∃ y, e.codeOf y = some [b] := by
  have hroot : e.root = 2 := by rw [h.root_eq, h2]
  have hlen : e.nodes.length = 3 := by rw [h.nodes_length, h2]
  obtain ⟨z, o, hnode, hz, ho, -⟩ := h.shape.inner 2 (by omega) (by omega)
  obtain ⟨m, hm, hbranch⟩ : ∃ m, m < 2 ∧ e.nodes[2]?.bind (·.branch? b) = some m := by
    rw [hnode]
    cases b
    · exact ⟨z, hz, rfl⟩
    · exact ⟨o, ho, rfl⟩
  obtain ⟨y, w, hleaf⟩ := h.shape.leaf m (by omega)
  refine ⟨y, (h.codeOf_iff (by omega) y [b]).2 ?_⟩
  simp only [descend, hroot, hbranch, Option.bind_some, leafAt, hleaf]
  rfl

/-- In a tree of two leaves every bitstring is the codes of a text of as many symbols (R121). -/
theorem Eng.TreeOk.exists_text_of_two {c : Config} {e : Eng} (h : e.TreeOk c) (h2 : e.k = 2) (bs : Bits) :
    ∃ ys : List Sym, ys.length = bs.length ∧ ys.map e.codeOf = (bs.map fun b => [b]).map some := by
  choose sym hsym using h.exists_code_of_two h2
  exact ⟨bs.map sym, List.length_map _, by rw [List.map_map, List.map_map]; exact List.map_congr_left fun b _ => hsym b⟩

/-! ### The obligations: DECODE -/

/-- Settles O40: the decoder answers the text and no error. -/
theorem decodeReturnsTheEncodedText : Obligations.DecodeReturnsTheEncodedText := by
  intro s fmt ys cs hok hbuilt hcodes hfit hn hcap hinput
  obtain ⟨htree, -⟩ := hok.2 hbuilt
  obtain ⟨t, hexec, hrecord, -, hholds, hsame⟩ :=
    exec_decoder_of_bits hbuilt hcap (decodeBits_of_codes htree hcodes hfit hn hinput)
  exact ⟨t, hexec, hrecord, hholds (htree.nsym_of_codes hcodes), hsame⟩

/-- Settles O41: the decoder answers the whole codes, and the first bit of the last one, which is not whole. -/
theorem decodeOfAStreamEndingMidCode : Obligations.DecodeOfAStreamEndingMidCode := by
  intro s fmt ys cs z p q hok hbuilt hcodes hfit hz hp hq hn hcap hinput
  obtain ⟨htree, -⟩ := hok.2 hbuilt
  obtain ⟨t, hexec, hrecord, -, hholds, hsame⟩ :=
    exec_decoder_of_bits hbuilt hcap (decodeBits_of_midCode htree hcodes hfit hz hp hq hn hinput)
  exact ⟨t, hexec, hrecord, hholds (htree.nsym_of_codes hcodes), hsame⟩

/-- Settles O42: the decoder answers the MAX_LEN symbols, and the first bit of the code after them. -/
theorem decodeStopsAtAFullTextBuffer : Obligations.DecodeStopsAtAFullTextBuffer := by
  intro s ys cs z c rest hok hbuilt hcodes hfull hz hn hcap hinput
  obtain ⟨htree, -⟩ := hok.2 hbuilt
  obtain ⟨t, hexec, hrecord, -, hholds, hsame⟩ :=
    exec_decoder_of_bits (fmt := .packed) hbuilt hcap (decodeBits_of_full htree hcodes hfull hz hn hinput)
  exact ⟨t, hexec, hrecord, hholds (htree.nsym_of_codes hcodes), hsame⟩

/-- Settles O44, for a stream that fits in TXT_OUT and for a longer one. -/
theorem singleLeafDecodesEveryBit : Obligations.SingleLeafDecodesEveryBit := by
  intro s fmt bs y w hbuilt hleaf hsym hn hcap hinput
  have hroot : s.eng.leafAt s.eng.root = some y := by rw [Eng.leafAt, hleaf]; rfl
  have hlegal : ∀ m, ∀ z ∈ List.replicate m y, z.toNat < s.cfg.nsymMax := fun m z hz => by
    rw [List.eq_of_mem_replicate hz]; exact hsym
  rcases Nat.lt_or_ge s.cfg.maxLen s.len.toNat with hlong | hfit
  · obtain ⟨t, hexec, hrecord, -, hholds, hsame⟩ :=
      exec_decoder_of_bits hbuilt hcap (decodeBits_of_leafRoot_full hroot (hn ▸ hlong) hn hinput)
    rw [List.length_replicate] at hrecord hsame
    exact ⟨t, hexec, fun hle => by omega, fun _ => ⟨hrecord, hholds (hlegal _), hsame⟩⟩
  · obtain ⟨t, hexec, hrecord, -, hholds, hsame⟩ :=
      exec_decoder_of_bits hbuilt hcap (decodeBits_of_leafRoot hroot (hn ▸ hfit) hn hinput)
    rw [List.length_replicate] at hrecord hsame
    exact ⟨t, hexec, fun _ => ⟨hrecord, hholds (hlegal _), hsame⟩, fun hlt => by omega⟩

/-- Settles O46: every bitstring is the codes of a text of as many symbols, which O40 says is decoded. -/
theorem twoSymbolStreamsAlwaysDecode : Obligations.TwoSymbolStreamsAlwaysDecode := by
  intro s fmt bs hok hbuilt h2 hn hcap hfit hinput
  obtain ⟨ys, hlen, hcodes⟩ := (hok.2 hbuilt).1.exists_text_of_two h2 bs
  have hflat : (bs.map fun b => [b]).flatten = bs := List.flatMap_singleton' bs
  obtain ⟨t, hexec, ht, -⟩ := decodeReturnsTheEncodedText s fmt ys (bs.map fun b => [b]) hok hbuilt hcodes (by omega)
    (by rw [hflat]; exact hn) hcap (by rw [hflat]; exact hinput)
  refine ⟨t, hexec, by rw [ht]; rfl, by rw [ht]; rfl, ?_⟩
  rw [ht]
  exact BitVec.eq_of_toNat_eq ((toNat_natReg (by omega)).trans (by omega))

/-! ### Round trips -/

namespace State

/-- The codes of the input text, in the tree that BUILD makes of it. -/
def inputCodes (s : State) : List Bits := (s.text s.cfg s.len.toNat).map fun y => (s.inputEng.codeOf y).getD []

/-- The bitstream of the input text. -/
def inputStream (s : State) : Bits := s.inputCodes.flatten

theorem length_inputStream (s : State) : s.inputStream.length
    = ((s.text s.cfg s.len.toNat).map fun y => ((s.inputEng.codeOf y).getD []).length).sum := by
  rw [inputStream, inputCodes, List.length_flatten, List.map_map]
  rfl

section
variable {s u : State} {fmt : Fmt} (hpos : 1 ≤ s.len.toNat) (hmax : s.len.toNat ≤ s.cfg.maxLen)
include hpos

/-- Every symbol of the input text has a code in the tree that BUILD makes of it (R99). -/
theorem text_inputCodes : (s.text s.cfg s.len.toNat).map s.inputEng.codeOf = s.inputCodes.map some := by
  refine (inputEng_treeOk hpos).map_codeOf fun y hy => ?_
  have hcount : s.inputEng.freqOf y = (s.text s.cfg s.len.toNat).count y := countFreq_get? _ y
  rw [hcount]
  exact List.count_pos_iff.2 hy

include hmax

/-- A BUILD, however accepted, commits the tree of the input text and keeps the text (R96). -/
theorem exec_build_inputEng (v : Word) : ∃ t : State, exec .build (s.accept v) = .next t ∧ t.err = .none ∧ t.cfg = s.cfg
    ∧ t.eng = s.inputEng ∧ t.len = s.len ∧ t.text s.cfg s.len.toNat = s.text s.cfg s.len.toNat :=
  ⟨_, exec_build_of_text (s := s.accept v) hpos hmax, rfl, rfl, rfl, rfl, rfl⟩

variable (hcfg : u.cfg = s.cfg) (heng : u.eng = s.inputEng)
include hcfg heng

/-- An ENCODE of the input text, in its own tree, writes its bitstream (R107). -/
theorem exec_encoder_inputStream (hlen : u.len = s.len) (htext : u.text s.cfg s.len.toNat = s.text s.cfg s.len.toNat)
    (hfit : s.inputStream.length ≤ fmt.outCap s.cfg) : ∃ t : State, exec fmt.encoder u = .next t ∧ t.err = .none
      ∧ t.outlen.toNat = s.inputStream.length ∧ t.cfg = s.cfg ∧ t.eng = s.inputEng ∧ t.HoldsOutput s.cfg fmt s.inputStream := by
  have hencode := encodeWritesTheConcatenatedCodes u fmt s.inputCodes
  rw [hcfg, heng, hlen, htext] at hencode
  obtain ⟨t, hexec, ht, hholds, -⟩ := hencode rfl hmax (text_inputCodes hpos) hfit
  refine ⟨t, hexec, by rw [ht]; rfl, ?_, by rw [ht]; exact hcfg, by rw [ht]; exact heng, hholds⟩
  rw [ht]
  exact toNat_natReg (hfit.trans_lt (fmt.outCap_lt s.cfg))

/-- A DECODE of the bitstream of the input text, in the same tree, writes the text to TXT_OUT (R120). -/
theorem exec_decoder_inputStream (hlen : u.len.toNat = s.inputStream.length)
    (hfit : s.inputStream.length ≤ fmt.inCap s.cfg) (hinput : u.InputIs s.cfg fmt s.inputStream) :
    ∃ t : State, exec fmt.decoder u = .next t ∧ t.err = .none ∧ t.outlen = s.len
      ∧ ∀ i, i < s.len.toNat → t.txtOut t.cfg i = s.txtIn s.cfg i := by
  have hdecode := decodeReturnsTheEncodedText u fmt (s.text s.cfg s.len.toNat) s.inputCodes
  rw [hcfg, heng, hlen, Block.length_text] at hdecode
  obtain ⟨t, hexec, ht, hholds, -⟩ := hdecode (inputEng_ok hpos hmax) rfl (text_inputCodes hpos) hmax rfl hfit hinput
  have hcfg' : t.cfg = s.cfg := by rw [ht]; exact hcfg
  refine ⟨t, hexec, by rw [ht]; rfl, ?_, fun i hi => ?_⟩
  · rw [ht]
    exact BitVec.eq_of_toNat_eq (toNat_natReg s.len.isLt)
  · rw [hcfg', hholds i (by rw [Block.length_text]; exact hi), List.getD_eq_getElem?_getD, Block.text_lt _ _ hi]
    rfl

end

end State

/-- A character CH0 or CH1 is the bit it stands for (R115). -/
theorem Block.readBit_char_of_txtIn {c : Config} {b : Block} {i : Nat} {d : Bool}
    (h : b.txtIn c i = if d then 0x31 else 0x30) : b.readBit c .char i = some d := by
  cases d <;> simp [readBit, h, Config.ch0, Config.ch1]

/-! ### The obligations: round trips -/

/-- Settles O48: ENCODE.P leaves the stream of the text in BIT, where DECODE.P reads it. -/
theorem packedRoundTrip : Obligations.PackedRoundTrip := by
  intro s hpos hmax
  obtain ⟨s1, hbuild, herr1, hcfg1, heng1, hlen1, htext1⟩ := State.exec_build_inputEng (s := s) hpos hmax 0x00000001
  refine ⟨s1, hbuild, herr1, fun hfit => ?_⟩
  rw [heng1, ← s.length_inputStream] at hfit
  obtain ⟨s2, hencode, herr, houtlen, hcfg, heng, hholds⟩ := State.exec_encoder_inputStream (s := s) (fmt := .packed) hpos hmax
    (u := s1.accept 0x00000002) hcfg1 heng1 hlen1 htext1 hfit
  have hinput : s2.InputIs s.cfg .packed s.inputStream := fun i hi =>
    congrArg some (hholds i (by rw [wordsOf]; omega))
  obtain ⟨s3, hdecode, herr', hlen, htext⟩ := State.exec_decoder_inputStream (s := s) (fmt := .packed) hpos hmax
    (u := State.accept 0x00000003 { s2 with len := s2.outlen }) hcfg heng houtlen hfit hinput
  rw [heng1, ← s.length_inputStream]
  exact ⟨s2, s3, hencode, herr, houtlen, hdecode, herr', hlen, htext⟩

/-- Settles O49: ENCODE.C leaves the stream of the text in TXT_OUT as characters, which DECODE.C reads in TXT_IN. -/
theorem characterRoundTrip : Obligations.CharacterRoundTrip := by
  intro s hpos hmax
  obtain ⟨s1, hbuild, herr1, hcfg1, heng1, hlen1, htext1⟩ := State.exec_build_inputEng (s := s) hpos hmax 0x00000001
  refine ⟨s1, hbuild, herr1, fun hfit => ?_⟩
  rw [heng1, ← s.length_inputStream] at hfit
  obtain ⟨s2, hencode, herr, houtlen, hcfg, heng, hholds⟩ := State.exec_encoder_inputStream (s := s) (fmt := .char) hpos hmax
    (u := s1.accept 0x00000012) hcfg1 heng1 hlen1 htext1 hfit
  refine ⟨s2, hencode, herr, fun u hucfg hueng hulen hloaded => ?_⟩
  have hinput : u.InputIs s.cfg .char s.inputStream := fun i hi => by
    have hchar := hloaded i (houtlen ▸ hi)
    rw [hucfg, hcfg, hholds i hi] at hchar
    exact Block.readBit_char_of_txtIn hchar
  exact State.exec_decoder_inputStream (s := s) (fmt := .char) hpos hmax (u := u.accept 0x00000013) (hucfg.trans hcfg)
    (hueng.trans heng) ((congrArg BitVec.toNat hulen).trans houtlen) hfit hinput

end Sys2Proof.Machine
end
